-- ==== Sys2Proof/Word.lean ====
section
/-! DEFINITION. The bit-vector widths the spec works with (00_scope.md rules R6 and R7: registers are 32 bits, header
fields 16 and 8 bits, and every integer is unsigned). -/

namespace Sys2Proof

/-- A `u8`: one byte of a frame or a buffer (R8). -/
abbrev Byte := BitVec 8

/-- A `u16`: a header field, a transaction id, the CRC register (R7). -/
abbrev Half := BitVec 16

/-- A 32-bit register or command word (R6, R79). -/
abbrev Word := BitVec 32

end Sys2Proof
end

