-- ==== Sys2Proof/Config.lean ====
section
/-! DEFINITION. What is fixed for one instance of the block and not by the spec: the role strap, the parameters of
00_scope.md rule R6 that are named arguments of the model, and the free values, which have no body. -/

namespace Sys2Proof

/-- The direction of 10_state.md rule R31: SERVER is strap value 0, CLIENT is 1. -/
inductive Role
  | server
  | client
  deriving DecidableEq, Repr

/-- The parameters of R6 that are arguments of the model. `State` carries them, so that a statement about every state
holds for every value of them. -/
structure Params where
  /-- `TID_FIRST`: the id `TIDNEXT` gives a function code that has none yet (44_tid.md rule R181). -/
  tidFirst : Half
  /-- `BASE`: the host address of the window (20_memory.md rule R50). -/
  base : Nat
  deriving DecidableEq, Repr

namespace Config

/-- The parameters `State.reset` starts with: the spec's default `TID_FIRST = 1` (R6), and `BASE`, which R6 leaves
open, at 0. DESIGN CHOICE for `BASE`, unsafe (log 2). -/
def params : Params := { tidFirst := 1, base := 0 }

/-- The strap value `State.reset` samples (R31, R230). DESIGN CHOICE, unsafe: the platform drives the strap (log 1). -/
def roleStrap : Role := .server

/-- The byte at a window offset that came from a given draw: what a buffer holds where the spec says "any value"
(R33, R34, R203). A free value: safe (log 3, log 4). -/
opaque freeByte : Nat → Nat → Byte

/-- The word a given draw gives at a window offset: a register a failing command leaves unspecified (R203), or a host
read while `BUSY = 1` (R61), or what a host write stores of a value that does not fit it (R87). A free value: safe
(log 4, log 7, log 14). -/
opaque freeWord : Nat → Nat → Word

/-- The value of `t & mask` for a negative `t`, from a given draw: R87 states none. A free value: safe (log 14). -/
opaque freeMasked : Nat → Nat

/-- The value of a host variable that nothing has set, by agent and variable: R87 states none. A free value: safe
(log 14). -/
opaque freeVar : Nat → Nat → Int

end Config

end Sys2Proof
end

