-- ==== Sys2Proof/Syntax.lean ====
section
/-! DEFINITION. The instructions: one constructor for each row of spec/opcode_table.json. The first thirteen are the
command words of 30_encoding.md rules R82 and R84; the other eighteen are the function-code rows of the two dispatch
tables, 43_frame.md rules R152 and R153. -/

namespace Sys2Proof

/-- One instruction. `fcsel` is the operand `FCSEL` (any byte) and `tsel` the operand `TSEL` of R79. -/
inductive Instr
  /-- Repeating-key XOR of the input (R104). -/
  | xor
  /-- CRC value and trailer of the input (R116). -/
  | crc
  /-- Check of the input's trailer (R117). -/
  | crcchk
  /-- Header decode (R132). -/
  | hdec
  /-- Header encode (R133). -/
  | henc
  /-- Length field of a header (R134). -/
  | plen
  /-- Message kind of a function code (R155). -/
  | disp (fcsel : Byte)
  /-- Frame encode (R157). -/
  | fenc
  /-- Frame decode (R159). -/
  | fdec
  /-- Next outbound transaction id (R182). -/
  | tidnext (fcsel : Byte)
  /-- Record of a received transaction id (R183). -/
  | tidobs (fcsel : Byte)
  /-- Read of one tracker entry (R184). -/
  | tidrd (fcsel : Byte) (tsel : BitVec 1)
  /-- Clearing of the tracker (R185). -/
  | tidclr
  /-- Row FC_ANNOUNCE@SERVER: frame function-code byte 0x03 under ROLE = SERVER. -/
  | fcAnnounceServer
  /-- Row FC_DATA@SERVER: frame function-code byte 0x04 under ROLE = SERVER. -/
  | fcDataServer
  /-- Row FC_READ_REGISTERS@SERVER: frame function-code byte 0x05 under ROLE = SERVER. -/
  | fcReadRegistersServer
  /-- Row FC_WRITE_SINGLE@SERVER: frame function-code byte 0x06 under ROLE = SERVER. -/
  | fcWriteSingleServer
  /-- Row FC_WRITE_MULTIPLE@SERVER: frame function-code byte 0x10 under ROLE = SERVER. -/
  | fcWriteMultipleServer
  /-- Row FC_PING@SERVER: frame function-code byte 0x16 under ROLE = SERVER. -/
  | fcPingServer
  /-- Row FC_SET_CONFIG@SERVER: frame function-code byte 0x18 under ROLE = SERVER. -/
  | fcSetConfigServer
  /-- Row FC_GET_CONFIG@SERVER: frame function-code byte 0x19 under ROLE = SERVER. -/
  | fcGetConfigServer
  /-- Row FC_BUFFERED_DATA@SERVER: frame function-code byte 0x50 under ROLE = SERVER. -/
  | fcBufferedDataServer
  /-- Row FC_ANNOUNCE@CLIENT: frame function-code byte 0x03 under ROLE = CLIENT. -/
  | fcAnnounceClient
  /-- Row FC_DATA@CLIENT: frame function-code byte 0x04 under ROLE = CLIENT. -/
  | fcDataClient
  /-- Row FC_READ_REGISTERS@CLIENT: frame function-code byte 0x05 under ROLE = CLIENT. -/
  | fcReadRegistersClient
  /-- Row FC_WRITE_SINGLE@CLIENT: frame function-code byte 0x06 under ROLE = CLIENT. -/
  | fcWriteSingleClient
  /-- Row FC_WRITE_MULTIPLE@CLIENT: frame function-code byte 0x10 under ROLE = CLIENT. -/
  | fcWriteMultipleClient
  /-- Row FC_PING@CLIENT: frame function-code byte 0x16 under ROLE = CLIENT. -/
  | fcPingClient
  /-- Row FC_SET_CONFIG@CLIENT: frame function-code byte 0x18 under ROLE = CLIENT. -/
  | fcSetConfigClient
  /-- Row FC_GET_CONFIG@CLIENT: frame function-code byte 0x19 under ROLE = CLIENT. -/
  | fcGetConfigClient
  /-- Row FC_BUFFERED_DATA@CLIENT: frame function-code byte 0x50 under ROLE = CLIENT. -/
  | fcBufferedDataClient
  deriving DecidableEq, Repr

end Sys2Proof
end

