-- ==== Sys2Proof/WellFormed.lean ====
section
/-! DEFINITION. Which command words are legal: the four fields of 30_encoding.md rule R79 and the four checks of rule
R83, and the fields each instruction stands for (R82). -/

namespace Sys2Proof

/-- The fields of a `CMD` word (R79): `OP` bits 7:0, `FCSEL` bits 15:8, `TSEL` bit 16, reserved bits 31:17. -/
structure CmdFields where
  op : Byte
  fcsel : Byte
  tsel : BitVec 1
  reserved : BitVec 15
  deriving DecidableEq, Repr

/-- R83 (a): `OP` is 0x00 or in 0x0E to 0xFF. -/
def CmdFields.reservedOp (f : CmdFields) : Bool := f.op == 0x00#8 || decide (0x0E ≤ f.op.toNat)

/-- R83 (b): one of the reserved bits is 1. -/
def CmdFields.reservedBits (f : CmdFields) : Bool := f.reserved != 0#15

/-- R83 (c): `OP` is not `DISP`, `TIDNEXT`, `TIDOBS` or `TIDRD`, and `FCSEL` is not 0. -/
def CmdFields.unusedFcsel (f : CmdFields) : Bool :=
  !(f.op == 0x07#8 || f.op == 0x0A#8 || f.op == 0x0B#8 || f.op == 0x0C#8) && f.fcsel != 0x00#8

/-- R83 (d): `OP` is not `TIDRD`, and `TSEL` is not 0. -/
def CmdFields.unusedTsel (f : CmdFields) : Bool := f.op != 0x0C#8 && f.tsel != 0#1

/-- A legal command word: none of the four conditions of R83 holds. -/
def CmdFields.wellFormed (f : CmdFields) : Bool :=
  !f.reservedOp && !f.reservedBits && !f.unusedFcsel && !f.unusedTsel

/-- The fields of a command (R82 for `OP`, R79 for the operands); a function-code row is no command word. -/
def Instr.cmdFields : Instr → Option CmdFields
  | .xor => some { op := 0x01, fcsel := 0, tsel := 0, reserved := 0 }
  | .crc => some { op := 0x02, fcsel := 0, tsel := 0, reserved := 0 }
  | .crcchk => some { op := 0x03, fcsel := 0, tsel := 0, reserved := 0 }
  | .hdec => some { op := 0x04, fcsel := 0, tsel := 0, reserved := 0 }
  | .henc => some { op := 0x05, fcsel := 0, tsel := 0, reserved := 0 }
  | .plen => some { op := 0x06, fcsel := 0, tsel := 0, reserved := 0 }
  | .disp fcsel => some { op := 0x07, fcsel := fcsel, tsel := 0, reserved := 0 }
  | .fenc => some { op := 0x08, fcsel := 0, tsel := 0, reserved := 0 }
  | .fdec => some { op := 0x09, fcsel := 0, tsel := 0, reserved := 0 }
  | .tidnext fcsel => some { op := 0x0A, fcsel := fcsel, tsel := 0, reserved := 0 }
  | .tidobs fcsel => some { op := 0x0B, fcsel := fcsel, tsel := 0, reserved := 0 }
  | .tidrd fcsel tsel => some { op := 0x0C, fcsel := fcsel, tsel := tsel, reserved := 0 }
  | .tidclr => some { op := 0x0D, fcsel := 0, tsel := 0, reserved := 0 }
  | .fcAnnounceServer | .fcDataServer | .fcReadRegistersServer | .fcWriteSingleServer | .fcWriteMultipleServer
  | .fcPingServer | .fcSetConfigServer | .fcGetConfigServer | .fcBufferedDataServer
  | .fcAnnounceClient | .fcDataClient | .fcReadRegistersClient | .fcWriteSingleClient | .fcWriteMultipleClient
  | .fcPingClient | .fcSetConfigClient | .fcGetConfigClient | .fcBufferedDataClient => none

/-- A well-formed instruction: a command whose fields make a legal word, or a function-code row. Every operand of
`Instr` already has its field's width, so every term is well-formed; the checks bite on `CmdFields`. -/
def Instr.wellFormed (i : Instr) : Bool :=
  match i.cmdFields with
  | some f => f.wellFormed
  | none => true

end Sys2Proof
end

