-- ==== Sys2Proof/Decode.lean ====
section
/-! DEFINITION. The decoder, total on any word, and after it the encoder. A command is one 32-bit word (30_encoding.md
rule R79); a frame's function code is one byte (R74), which the block reads under its role (R76). The decoder follows
the match and mask rows of R84; R83's own wording stands in WellFormed.lean. -/

namespace Sys2Proof

/-- Why a word or a function-code byte is no instruction: R83 (a) to (d) for a command word, R75 for a byte. -/
inductive DecodeError
  | reservedOp
  | reservedBits
  | unusedFcsel
  | unusedTsel
  | unknownFunctionCode
  deriving DecidableEq, Repr

/-- `OP = w[7:0]` (R79). -/
def opField (w : Word) : Byte := w.extractLsb' 0 8

/-- `FCSEL = w[15:8]` (R79). -/
def fcselField (w : Word) : Byte := w.extractLsb' 8 8

/-- `TSEL = w[16]` (R79). -/
def tselField (w : Word) : BitVec 1 := w.extractLsb' 16 1

/-- The reserved bits `w[31:17]` (R79). -/
def reservedField (w : Word) : BitVec 15 := w.extractLsb' 17 15

/-- The fields of a command word (R79). -/
def fieldsOfWord (w : Word) : CmdFields :=
  { op := opField w, fcsel := fcselField w, tsel := tselField w, reserved := reservedField w }

/-- A row of R84 with mask 0xFFFFFFFF: neither operand field is used. -/
def decodePlain (fcsel : Byte) (tsel : BitVec 1) (i : Instr) : Except DecodeError Instr :=
  if fcsel ≠ 0 then .error .unusedFcsel else if tsel ≠ 0 then .error .unusedTsel else .ok i

/-- A row of R84 with mask 0xFFFF00FF: `FCSEL` is an operand, `TSEL` is not used. -/
def decodeFcsel (tsel : BitVec 1) (i : Instr) : Except DecodeError Instr :=
  if tsel ≠ 0 then .error .unusedTsel else .ok i

/-- The command a `CMD` word encodes, by the rows of R84; a word that matches no row is illegal (R83). -/
def decodeWord (w : Word) : Except DecodeError Instr :=
  let fcsel := fcselField w
  let tsel := tselField w
  if reservedField w ≠ 0 then .error .reservedBits
  else
    match (opField w).toNat with
    | 0x01 => decodePlain fcsel tsel .xor
    | 0x02 => decodePlain fcsel tsel .crc
    | 0x03 => decodePlain fcsel tsel .crcchk
    | 0x04 => decodePlain fcsel tsel .hdec
    | 0x05 => decodePlain fcsel tsel .henc
    | 0x06 => decodePlain fcsel tsel .plen
    | 0x07 => decodeFcsel tsel (.disp fcsel)
    | 0x08 => decodePlain fcsel tsel .fenc
    | 0x09 => decodePlain fcsel tsel .fdec
    | 0x0A => decodeFcsel tsel (.tidnext fcsel)
    | 0x0B => decodeFcsel tsel (.tidobs fcsel)
    | 0x0C => .ok (.tidrd fcsel tsel)
    | 0x0D => decodePlain fcsel tsel .tidclr
    | _ => .error .reservedOp

/-- The function-code row that a frame's byte 7 selects in a block of the given role (R74, R76); a byte outside
`FCSET` is rejected (R75). -/
def decodeFrameByte (role : Role) (b : Byte) : Except DecodeError Instr :=
  match role with
  | .server =>
    if b = 0x03#8 then .ok .fcAnnounceServer
    else if b = 0x04#8 then .ok .fcDataServer
    else if b = 0x05#8 then .ok .fcReadRegistersServer
    else if b = 0x06#8 then .ok .fcWriteSingleServer
    else if b = 0x10#8 then .ok .fcWriteMultipleServer
    else if b = 0x16#8 then .ok .fcPingServer
    else if b = 0x18#8 then .ok .fcSetConfigServer
    else if b = 0x19#8 then .ok .fcGetConfigServer
    else if b = 0x50#8 then .ok .fcBufferedDataServer
    else .error .unknownFunctionCode
  | .client =>
    if b = 0x03#8 then .ok .fcAnnounceClient
    else if b = 0x04#8 then .ok .fcDataClient
    else if b = 0x05#8 then .ok .fcReadRegistersClient
    else if b = 0x06#8 then .ok .fcWriteSingleClient
    else if b = 0x10#8 then .ok .fcWriteMultipleClient
    else if b = 0x16#8 then .ok .fcPingClient
    else if b = 0x18#8 then .ok .fcSetConfigClient
    else if b = 0x19#8 then .ok .fcGetConfigClient
    else if b = 0x50#8 then .ok .fcBufferedDataClient
    else .error .unknownFunctionCode

/-- A command word from its fields, bit 31 to bit 0 (R79), with the reserved bits 0. -/
def assembleWord (op fcsel : Byte) (tsel : BitVec 1) : Word := 0#15 ++ tsel ++ fcsel ++ op

/-- The word of a command (the match column of R84 with its operands put in). -/
def encodeWord : Instr → Option Word
  | .xor => some 0x00000001
  | .crc => some 0x00000002
  | .crcchk => some 0x00000003
  | .hdec => some 0x00000004
  | .henc => some 0x00000005
  | .plen => some 0x00000006
  | .disp fcsel => some (assembleWord 0x07 fcsel 0)
  | .fenc => some 0x00000008
  | .fdec => some 0x00000009
  | .tidnext fcsel => some (assembleWord 0x0A fcsel 0)
  | .tidobs fcsel => some (assembleWord 0x0B fcsel 0)
  | .tidrd fcsel tsel => some (assembleWord 0x0C fcsel tsel)
  | .tidclr => some 0x0000000D
  | .fcAnnounceServer | .fcDataServer | .fcReadRegistersServer | .fcWriteSingleServer | .fcWriteMultipleServer
  | .fcPingServer | .fcSetConfigServer | .fcGetConfigServer | .fcBufferedDataServer
  | .fcAnnounceClient | .fcDataClient | .fcReadRegistersClient | .fcWriteSingleClient | .fcWriteMultipleClient
  | .fcPingClient | .fcSetConfigClient | .fcGetConfigClient | .fcBufferedDataClient => none

/-- The role and the byte of a function-code row (R74, R152, R153). -/
def encodeFrameByte : Instr → Option (Role × Byte)
  | .fcAnnounceServer => some (.server, 0x03)
  | .fcDataServer => some (.server, 0x04)
  | .fcReadRegistersServer => some (.server, 0x05)
  | .fcWriteSingleServer => some (.server, 0x06)
  | .fcWriteMultipleServer => some (.server, 0x10)
  | .fcPingServer => some (.server, 0x16)
  | .fcSetConfigServer => some (.server, 0x18)
  | .fcGetConfigServer => some (.server, 0x19)
  | .fcBufferedDataServer => some (.server, 0x50)
  | .fcAnnounceClient => some (.client, 0x03)
  | .fcDataClient => some (.client, 0x04)
  | .fcReadRegistersClient => some (.client, 0x05)
  | .fcWriteSingleClient => some (.client, 0x06)
  | .fcWriteMultipleClient => some (.client, 0x10)
  | .fcPingClient => some (.client, 0x16)
  | .fcSetConfigClient => some (.client, 0x18)
  | .fcGetConfigClient => some (.client, 0x19)
  | .fcBufferedDataClient => some (.client, 0x50)
  | .xor | .crc | .crcchk | .hdec | .henc | .plen | .disp _ | .fenc | .fdec | .tidnext _ | .tidobs _ | .tidrd _ _
  | .tidclr => none

/-- What a table row's bits decode to: 32 bits are a command word, 8 bits a function-code byte, read under the role
that `State.reset` has (log 1, log 10). -/
def decodeTableWord (nbits w : Nat) : Option Instr :=
  if 2 ^ nbits ≤ w then none
  else if nbits = 32 then (decodeWord (BitVec.ofNat 32 w)).toOption
  else if nbits = 8 then (decodeFrameByte Config.roleStrap (BitVec.ofNat 8 w)).toOption
  else none

end Sys2Proof
end

