-- ==== Sys2Proof/Machine/HostProgram.lean ====
section
/-! DEFINITION. The host side's data: the register names of 10_state.md, the actions of a host program (30_encoding.md
rule R87), a host agent, and the events that say which agent moves next (70_reset_and_hazards.md rules R231, R244). -/

namespace Sys2Proof.Machine

/-- The ten registers of R21. -/
inductive Reg
  | cmd | status | ilen | olen | htid | hpid | hlen | hufc | result | config
  deriving DecidableEq, Repr

/-- The width of a host access. R51 and R52 give a meaning to 32-bit and 8-bit accesses only. -/
inductive Width
  | w8 | w16 | w32 | w64
  deriving DecidableEq, Repr

/-- An integer expression over host variables and constants, with `+`, `-`, `*` and parentheses (R87, `mov`). -/
inductive HostExpr
  | lit (v : Int)
  | var (x : Nat)
  | add (a b : HostExpr)
  | sub (a b : HostExpr)
  | mul (a b : HostExpr)
  deriving DecidableEq, Repr

/-- What a write action writes: a constant or a host variable (R87). Host variables are numbered. -/
inductive HostSrc
  | imm (v : Nat)
  | var (x : Nat)
  deriving DecidableEq, Repr

/-- One line of a host program (R87). `load` and `store` are accesses of any width at any host address, so that the
accesses R51 to R54 refuse can be written too. A command line is a `wr` to `CMD` (Machine/Pseudo.lean). -/
inductive HostAction
  /-- `wr REG, v` -/
  | wr (r : Reg) (v : HostSrc)
  /-- `rd REG -> t` -/
  | rd (r : Reg) (t : Nat)
  /-- `wb IBUF[i], v` -/
  | wb (i : Nat) (v : HostSrc)
  /-- `rb OBUF[i] -> t` -/
  | rb (i : Nat) (t : Nat)
  /-- A read of the given width at a host address. -/
  | load (w : Width) (addr : Nat) (t : Nat)
  /-- A write of the given width at a host address. -/
  | store (w : Width) (addr : Nat) (v : HostSrc)
  /-- `L:` -/
  | label (l : Nat)
  /-- `bnz t & mask, L` -/
  | bnz (t mask l : Nat)
  /-- `jmp L` -/
  | jmp (l : Nat)
  /-- `halt` -/
  | halt
  /-- `mov t, expr` -/
  | mov (t : Nat) (e : HostExpr)
  deriving DecidableEq, Repr

/-- One host agent (R20, R65): its program, the line it is at, and its variables, unbounded integers listed by rising
number (R87). -/
structure HostAgent where
  prog : List HostAction
  pc : Nat
  vars : List (Nat × Int)
  deriving DecidableEq, Repr

/-- Who moves next: the block, a host agent, or the platform's reset with the strap value it drives (R231, R244). -/
inductive Event
  | block
  | host (k : Nat)
  | reset (strap : Role)
  deriving DecidableEq, Repr

end Sys2Proof.Machine
end

