-- ==== Sys2Proof/Machine/State.lean ====
section
/-! DEFINITION. The state of the machine: the registers, buffers and tables of 10_state.md rules R21 to R36, the
command in flight (30_encoding.md rule R90), the host agents and the events, and the reset state of
70_reset_and_hazards.md rule R230. Reserved bits read 0 and ignore writes (R32), so a register is held as its fields. -/

namespace Sys2Proof.Machine

/-- The nine function codes of `FCSET` (R74). -/
inductive Fc
  | announce | data | readRegisters | writeSingle | writeMultiple | ping | setConfig | getConfig | bufferedData
  deriving DecidableEq, Repr

/-- The error codes of R200, in its order (0x01 to 0x08). -/
inductive Err
  | badCmd | ilen | short | fcUnknown | length | crc | noDecoder | tooLong
  deriving DecidableEq, Repr

/-- The message kinds of R151, in its order (0 to 12). -/
inductive Kind
  | none | announce | data | bufferedData | ping | ack | getConfigRequest | getConfigResponse | setConfigRequest
  | setConfigResponse | readRegistersResponse | writeSingleRegisterResponse | writeMultipleRegistersResponse
  deriving DecidableEq, Repr

/-- `STATUS` (R23): `BUSY`, `DONE`, `ERR`, `ERRCODE` (`none` is 0x00) and `KIND`. -/
structure Status where
  busy : Bool
  done : Bool
  err : Bool
  errcode : Option Err
  kind : Kind
  deriving DecidableEq, Repr

/-- `HUFC` (R29): `UID` in bits 7:0, `FC` in bits 15:8. -/
structure Hufc where
  uid : Byte
  fc : Byte
  deriving DecidableEq, Repr

/-- `RESULT` (R30): `VALUE` in bits 15:0, `VALID` in bit 16. -/
structure Result where
  value : Half
  valid : Bool
  deriving DecidableEq, Repr

/-- A transaction-id table: one entry per function code, `none` for `empty` (R35, R36). -/
structure TidTable where
  announce : Option Half
  data : Option Half
  readRegisters : Option Half
  writeSingle : Option Half
  writeMultiple : Option Half
  ping : Option Half
  setConfig : Option Half
  getConfig : Option Half
  bufferedData : Option Half
  deriving DecidableEq, Repr

/-- A table with every entry empty (R230). -/
def TidTable.empty : TidTable :=
  { announce := none, data := none, readRegisters := none, writeSingle := none, writeMultiple := none,
    ping := none, setConfig := none, getConfig := none, bufferedData := none }

/-- A step never ends in a fault: every error of FCB is data in `STATUS` and the block goes on (R202, R208), and an
access without a meaning is refused (R210). -/
inductive Fault
  deriving DecidableEq, Repr

/-- Why a step is refused. All but the first are host accesses or host-program lines to which the spec gives no
meaning (R210: "the host agent is stuck"); each is safe, because the model then claims nothing. -/
inductive Refusal
  /-- An instruction without a meaning. No arm of `exec` raises it. Safe. -/
  | notModelled (mnemonic : String)
  /-- A register access that is not 32 bits wide (R51) or a buffer access that is not 8 bits wide (R52). Safe. -/
  | wrongWidth
  /-- An access inside the register window that is not at a multiple of 4 (R51). Safe. -/
  | misaligned
  /-- An access to an offset of the window that holds nothing (R53). Safe. -/
  | unmapped
  /-- An access at an address outside the window, where FCB is not (R50; log 12). Safe. -/
  | outsideWindow
  /-- A write to `OBUF` (R54). Safe. -/
  | obufWrite
  /-- A write to a register or to `IBUF` while `BUSY = 1` (R60). Safe. -/
  | writeWhileBusy
  /-- A branch to a label the program does not have (log 12). Safe. -/
  | unknownLabel
  deriving DecidableEq, Repr

/-- The state of the machine. Every field but the last group is the spec's (R21); INVENTORY.md lists rule and reset
value of each. -/
structure State where
  /-- `STATUS` (R23). -/
  status : Status
  /-- `ILEN.LEN` (R24). -/
  ilen : BitVec 17
  /-- `OLEN.LEN` (R25). -/
  olen : BitVec 17
  /-- `HTID.TID` (R26). -/
  htid : Half
  /-- `HPID.PID` (R27). -/
  hpid : Half
  /-- `HLEN.LEN` (R28). -/
  hlen : Half
  /-- `HUFC` (R29). -/
  hufc : Hufc
  /-- `RESULT` (R30). -/
  result : Result
  /-- `CONFIG.ROLE` (R31). -/
  role : Role
  /-- The bytes of `IBUF` and `OBUF` that hold a known value, by window offset (R33, R34, R50; log 3). -/
  mem : List Host.Cell
  /-- `TX_LAST` (R35). -/
  txLast : TidTable
  /-- `RX_LAST` (R36). -/
  rxLast : TidTable
  /-- The word of the command between its two steps (R90); `CMD` itself stores nothing (R22; log 13). -/
  inflight : Option Word
  /-- The draw the other bytes of `IBUF` come from (log 3). The model's own. -/
  ibufSeed : Nat
  /-- The draw the other bytes of `OBUF` come from (log 3, log 4). The model's own. -/
  obufSeed : Nat
  /-- How many draws of unspecified values have been made (log 4). The model's own. -/
  draws : Nat
  /-- `TID_FIRST` and `BASE` (R6); no step changes them. -/
  params : Params
  /-- The host agents (R20, R65, R87). -/
  hosts : List HostAgent
  /-- Who moves next (R244; log 8). -/
  events : List Event
  deriving DecidableEq, Repr

/-- `STATUS` = 0x00000000 (R23, R230). -/
def Status.reset : Status := { busy := false, done := false, err := false, errcode := none, kind := .none }

/-- What reset leaves, for a strap value (R230): every register 0 but `CONFIG.ROLE`, both tables empty, no command
running, and both buffers with unspecified contents. -/
def State.resetWith (strap : Role) (params : Params) : State :=
  { status := Status.reset
    ilen := 0
    olen := 0
    htid := 0
    hpid := 0
    hlen := 0
    hufc := { uid := 0, fc := 0 }
    result := { value := 0, valid := false }
    role := strap
    mem := []
    txLast := TidTable.empty
    rxLast := TidTable.empty
    inflight := none
    ibufSeed := 0
    obufSeed := 0
    draws := 1
    params := params
    hosts := []
    events := [] }

/-- The machine right after reset (R230), with the strap and the parameters of Config (log 1, log 2) and nothing in
its surroundings: no host agent, no event (log 8, log 11). -/
def State.reset : State := State.resetWith Config.roleStrap Config.params

end Sys2Proof.Machine
end

