-- ==== Sys2Proof/Machine/Operands.lean ====
section
/-! DEFINITION. Operands: the sizes of 00_scope.md rule R6, the byte orders of R9, the nine function codes of
30_encoding.md rule R74, and the entries of a transaction-id table (44_tid.md rule R180). -/

namespace Sys2Proof.Machine

/-- `BUF_BYTES` (R6). -/
def bufBytes : Nat := 65543

/-- `MAX_PAYLOAD` (R6). -/
def maxPayload : Nat := 65533

/-- `HDR_BYTES` (R6). -/
def hdrBytes : Nat := 8

/-- `TRAILER_BYTES` (R6). -/
def trailerBytes : Nat := 2

/-- The high byte `v[15:8]`. -/
def hiByte (v : Half) : Byte := v.extractLsb' 8 8

/-- The low byte `v[7:0]`. -/
def loByte (v : Half) : Byte := v.extractLsb' 0 8

/-- `be16(v)`: high byte first (R9). -/
def be16 (v : Half) : List Byte := [hiByte v, loByte v]

/-- `unbe16(b0, b1) = b0 ++ b1` (R9). -/
def unbe16 (b0 b1 : Byte) : Half := b0 ++ b1

/-- `le16(v)`: low byte first (R9). -/
def le16 (v : Half) : List Byte := [loByte v, hiByte v]

/-- `unle16(b0, b1) = b1 ++ b0` (R9). -/
def unle16 (b0 b1 : Byte) : Half := b1 ++ b0

/-- `swap16(v) = v[7:0] ++ v[15:8]` (R9). -/
def swap16 (v : Half) : Half := loByte v ++ hiByte v

/-- The byte of a function code (R74). -/
def fcByte : Fc → Byte
  | .announce => 0x03
  | .data => 0x04
  | .readRegisters => 0x05
  | .writeSingle => 0x06
  | .writeMultiple => 0x10
  | .ping => 0x16
  | .setConfig => 0x18
  | .getConfig => 0x19
  | .bufferedData => 0x50

/-- The function code of a byte; `none` outside `FCSET` (R74, R75). -/
def fcOfByte (b : Byte) : Option Fc :=
  if b = 0x03#8 then some .announce
  else if b = 0x04#8 then some .data
  else if b = 0x05#8 then some .readRegisters
  else if b = 0x06#8 then some .writeSingle
  else if b = 0x10#8 then some .writeMultiple
  else if b = 0x16#8 then some .ping
  else if b = 0x18#8 then some .setConfig
  else if b = 0x19#8 then some .getConfig
  else if b = 0x50#8 then some .bufferedData
  else none

/-- The entry of a table for a function code (R35, R36). -/
def tidGet (t : TidTable) (fc : Fc) : Option Half :=
  match fc with
  | .announce => t.announce
  | .data => t.data
  | .readRegisters => t.readRegisters
  | .writeSingle => t.writeSingle
  | .writeMultiple => t.writeMultiple
  | .ping => t.ping
  | .setConfig => t.setConfig
  | .getConfig => t.getConfig
  | .bufferedData => t.bufferedData

/-- A table with one entry replaced (R180: the entries are independent). -/
def tidSet (t : TidTable) (fc : Fc) (e : Option Half) : TidTable :=
  match fc with
  | .announce => { t with announce := e }
  | .data => { t with data := e }
  | .readRegisters => { t with readRegisters := e }
  | .writeSingle => { t with writeSingle := e }
  | .writeMultiple => { t with writeMultiple := e }
  | .ping => { t with ping := e }
  | .setConfig => { t with setConfig := e }
  | .getConfig => { t with getConfig := e }
  | .bufferedData => { t with bufferedData := e }

end Sys2Proof.Machine
end

