-- ==== Sys2Proof/Machine/Flags.lean ====
section
/-! DEFINITION. Flags: the codes of `STATUS.ERRCODE` (60_exceptions.md rule R200) and `STATUS.KIND` (43_frame.md rule
R151), what a command's start, its end and an error write to `STATUS` (30_encoding.md rule R90, 60_exceptions.md rule
R202), and `STATUS` as the host reads it (10_state.md rule R23). -/

namespace Sys2Proof.Machine

/-- The 8-bit code of an error (R200). -/
def errCode : Err → Byte
  | .badCmd => 0x01
  | .ilen => 0x02
  | .short => 0x03
  | .fcUnknown => 0x04
  | .length => 0x05
  | .crc => 0x06
  | .noDecoder => 0x07
  | .tooLong => 0x08

/-- `ERRCODE` (R23): 0x00 when there is no error. -/
def errcodeField (e : Option Err) : Byte :=
  match e with
  | none => 0x00
  | some e => errCode e

/-- The 8-bit code of a message kind (R151). -/
def kindCode : Kind → Byte
  | .none => 0
  | .announce => 1
  | .data => 2
  | .bufferedData => 3
  | .ping => 4
  | .ack => 5
  | .getConfigRequest => 6
  | .getConfigResponse => 7
  | .setConfigRequest => 8
  | .setConfigResponse => 9
  | .readRegistersResponse => 10
  | .writeSingleRegisterResponse => 11
  | .writeMultipleRegistersResponse => 12

/-- What step 1 of a command writes to `STATUS` (R90): all five fields. -/
def statusStarted : Status := { busy := true, done := false, err := false, errcode := none, kind := .none }

/-- What the last two lines of step 2 write to `STATUS` (R90): `BUSY` and `DONE` only. -/
def statusEnded (st : Status) : Status := { st with busy := false, done := true }

/-- What an error writes to `STATUS` (R202): all five fields. -/
def statusFailed (e : Err) : Status := { busy := false, done := true, err := true, errcode := some e, kind := .none }

/-- A flag as one bit. -/
def flagBit (b : Bool) : BitVec 1 := BitVec.ofBool b

/-- `STATUS` as a word (R23): reserved [31:24], KIND, ERRCODE, reserved [7:3], ERR, DONE, BUSY. -/
def statusWord (st : Status) : Word :=
  0#8 ++ kindCode st.kind ++ errcodeField st.errcode ++ 0#5 ++ flagBit st.err ++ flagBit st.done ++ flagBit st.busy

end Sys2Proof.Machine
end

