-- ==== Sys2Proof/Machine/Ops.lean ====
section
/-! DEFINITION. The shared operations: the bytes of the window (20_memory.md rules R50, R52; 10_state.md rules R33,
R34), registers as the host reads and writes them (10_state.md), the start, the end and the failure of a command
(30_encoding.md rule R90, 60_exceptions.md rules R202, R203), and reset (70_reset_and_hazards.md rules R230, R231). -/

namespace Sys2Proof.Machine

/-! ## The bytes of the window

A list of (window offset, byte) pairs, offsets strictly rising. A listed byte holds a known value. An unlisted byte
holds "any value" (R33, R34), so no stored byte equals what it reads as, and the list is the canonical form (log 3). -/

/-- Window offset of `IBUF[0]` (R50). -/
def ibufBase : Nat := 0x20000

/-- Window offset of `OBUF[0]` (R50). -/
def obufBase : Nat := 0x40000

/-- An offset of `IBUF` (R33). -/
def inIbuf (a : Nat) : Bool := decide (ibufBase ≤ a) && decide (a < ibufBase + bufBytes)

/-- An offset of `OBUF` (R34). -/
def inObuf (a : Nat) : Bool := decide (obufBase ≤ a) && decide (a < obufBase + bufBytes)

/-- The stored byte at an offset, if one is known. -/
def memLookup : List Host.Cell → Nat → Option Byte
  | [], _ => none
  | (k, b) :: m, a => if k = a then some b else memLookup m a

/-- Consecutive cells from an offset on. -/
def memCells (a : Nat) : List Byte → List Host.Cell
  | [] => []
  | b :: bs => (a, b) :: memCells (a + 1) bs

/-- The cells below an offset. -/
def memBelow (m : List Host.Cell) (a : Nat) : List Host.Cell := m.filter fun c => decide (c.1 < a)

/-- The cells from an offset on. -/
def memFrom (m : List Host.Cell) (a : Nat) : List Host.Cell := m.filter fun c => decide (a ≤ c.1)

/-- `MemWrite` (R10): the bytes from an offset on are replaced, every other byte stays. -/
def memWrite (m : List Host.Cell) (a : Nat) (bs : List Byte) : List Host.Cell :=
  memBelow m a ++ memCells a bs ++ memFrom m (a + bs.length)

/-- The canonical form: offsets strictly rising, and every offset in one of the two buffers. -/
def Memory.wf (m : List Host.Cell) : Bool :=
  decide (m.Pairwise fun c d => c.1 < d.1) && m.all fun c => inIbuf c.1 || inObuf c.1

/-- What an unlisted offset reads as: a free byte of the draw its buffer's contents come from (R33, R34; log 3). -/
def State.freeByteAt (s : State) (a : Nat) : Byte :=
  Config.freeByte (if a < obufBase then s.ibufSeed else s.obufSeed) a

/-- The byte a buffer offset holds. -/
def State.readByte (s : State) (a : Nat) : Byte := (memLookup s.mem a).getD (s.freeByteAt a)

/-- The `n` bytes from an offset on. -/
def State.readBytes (s : State) (a : Nat) : Nat → List Byte
  | 0 => []
  | n + 1 => s.readByte a :: s.readBytes (a + 1) n

/-- `MemRead(IBUF, 0, n)` with `n = ILEN.LEN`: the command input (R33, R90). -/
def State.input (s : State) : List Byte := s.readBytes ibufBase s.ilen.toNat

/-- `MemWrite(OBUF, 0, |bs|, bs)` and `OLEN.LEN <- |bs|`: the output of a command (R34). -/
def State.output (s : State) (bs : List Byte) : State :=
  { s with mem := memWrite s.mem obufBase bs, olen := BitVec.ofNat 17 bs.length }

/-! ## Registers as the host sees them -/

/-- The window offset of a register (10_state.md, register summary). -/
def regOffset : Reg → Nat
  | .cmd => 0x00
  | .status => 0x04
  | .ilen => 0x08
  | .olen => 0x0C
  | .htid => 0x10
  | .hpid => 0x14
  | .hlen => 0x18
  | .hufc => 0x1C
  | .result => 0x20
  | .config => 0x24

/-- The register at an offset. -/
def regAt (off : Nat) : Option Reg :=
  match off with
  | 0x00 => some .cmd
  | 0x04 => some .status
  | 0x08 => some .ilen
  | 0x0C => some .olen
  | 0x10 => some .htid
  | 0x14 => some .hpid
  | 0x18 => some .hlen
  | 0x1C => some .hufc
  | 0x20 => some .result
  | 0x24 => some .config
  | _ => none

/-- The value of the role bit (R31). -/
def roleBit : Role → BitVec 1
  | .server => 0
  | .client => 1

/-- What a register holds, as a word with its reserved bits 0 (R22 to R32); `CMD` reads 0 (R22). -/
def State.readReg (s : State) : Reg → Word
  | .cmd => 0
  | .status => statusWord s.status
  | .ilen => 0#15 ++ s.ilen
  | .olen => 0#15 ++ s.olen
  | .htid => 0#16 ++ s.htid
  | .hpid => 0#16 ++ s.hpid
  | .hlen => 0#16 ++ s.hlen
  | .hufc => 0#16 ++ s.hufc.fc ++ s.hufc.uid
  | .result => 0#15 ++ flagBit s.result.valid ++ s.result.value
  | .config => 0#31 ++ roleBit s.role

/-- Step 1 of a command (R90): the host's write of a word to `CMD`. It is also the return from an error (R207): it
clears `ERR`, `ERRCODE`, `DONE` and `KIND`. -/
def State.startCommand (s : State) (w : Word) : State := { s with status := statusStarted, inflight := some w }

/-- A host write of a word to a register while no command runs. Reserved bits are not stored (R32); a write to a
read-only register has no effect (R54); a write to `CMD` starts a command (R22). -/
def State.writeReg (s : State) (r : Reg) (w : Word) : State :=
  match r with
  | .cmd => s.startCommand w
  | .ilen => { s with ilen := w.extractLsb' 0 17 }
  | .htid => { s with htid := w.extractLsb' 0 16 }
  | .hpid => { s with hpid := w.extractLsb' 0 16 }
  | .hlen => { s with hlen := w.extractLsb' 0 16 }
  | .hufc => { s with hufc := { uid := w.extractLsb' 0 8, fc := w.extractLsb' 8 8 } }
  | .status | .olen | .result | .config => s

/-! ## The end of a command -/

/-- The last two lines of step 2 (R90): the command ends without an error. -/
def State.endOk (s : State) : State := { s with status := statusEnded s.status, inflight := none }

/-- `STATUS.KIND <- k` (R155, R159). -/
def State.setKind (s : State) (k : Kind) : State := { s with status := { s.status with kind := k } }

/-- Error entry (R202): the command ends at once, `STATUS` says which error, and nothing else changes. There is no
saved pc, vector or mode to write. -/
def State.endError (s : State) (e : Err) : State := { s with status := statusFailed e, inflight := none }

/-- What a failing command can leave unspecified (R203 (c)). -/
inductive Out
  | obuf | olen | htid | hpid | hlen | hufc | result
  deriving DecidableEq, Repr

/-- One register, or all of `OBUF`, takes an unspecified value of the given draw (R203 (c); log 4, log 5). -/
def State.clobberOne (d : Nat) (s : State) (o : Out) : State :=
  match o with
  | .obuf => { s with mem := memBelow s.mem obufBase, obufSeed := d }
  | .olen => { s with olen := (Config.freeWord d 0x0C).extractLsb' 0 17 }
  | .htid => { s with htid := (Config.freeWord d 0x10).extractLsb' 0 16 }
  | .hpid => { s with hpid := (Config.freeWord d 0x14).extractLsb' 0 16 }
  | .hlen => { s with hlen := (Config.freeWord d 0x18).extractLsb' 0 16 }
  | .hufc =>
    { s with hufc := { uid := (Config.freeWord d 0x1C).extractLsb' 0 8, fc := (Config.freeWord d 0x1C).extractLsb' 8 8 } }
  | .result =>
    { s with result := { value := (Config.freeWord d 0x20).extractLsb' 0 16, valid := (Config.freeWord d 0x20).getLsbD 16 } }

/-- The outputs a failing command lists take unspecified values, one draw per error (R203 (c)). -/
def State.clobber (s : State) (outs : List Out) : State :=
  let t := outs.foldl (State.clobberOne s.draws) s
  { t with draws := s.draws + 1 }

/-- `raise E` in the body of a command that lists the given outputs (R202, R203). -/
def State.raise (s : State) (outs : List Out) (e : Err) : State := (s.clobber outs).endError e

/-- The execution frame's check of the commands that read `IBUF` (R90): `E_ILEN` before the body begins. -/
def withInput (s : State) (body : State → State) : Host.Outcome State Fault Refusal :=
  if bufBytes < s.ilen.toNat then .next (s.endError .ilen) else .next (body s)

/-! ## Reset -/

/-- The reset input is asserted and released with a strap value (R230, R231): a running command is abandoned, every
register and table takes its reset value, and the buffers' contents are drawn anew. The host agents, the events and
the parameters are not the block's (log 8). -/
def State.applyReset (s : State) (strap : Role) : State :=
  { State.resetWith strap s.params with
    ibufSeed := s.draws
    obufSeed := s.draws
    draws := s.draws + 1
    hosts := s.hosts
    events := s.events }

end Sys2Proof.Machine
end

