-- ==== Sys2Proof/Machine/Cipher.lean ====
section
/-! DEFINITION. The cipher: the key and the keystream (40_cipher.md rules R100, R101) and the command `XOR` (R104). -/

namespace Sys2Proof.Machine

/-- `KEY`: the ASCII bytes of "Growatt" (R100, R37). -/
def keyBytes : List Byte := [0x47, 0x72, 0x6F, 0x77, 0x61, 0x74, 0x74]

/-- `KEY[i mod 7]` (R101). -/
def keyByte (i : Nat) : Byte := keyBytes.getD (i % 7) 0

/-- The keystream from a phase on. -/
def xorFrom (i : Nat) : List Byte → List Byte
  | [] => []
  | b :: bs => (b ^^^ keyByte i) :: xorFrom (i + 1) bs

/-- `xor_key` (R101): the phase is 0 at byte 0 of every call. -/
def xorKey (b : List Byte) : List Byte := xorFrom 0 b

/-- `XOR` (R104). -/
def execXor (s : State) : Host.Outcome State Fault Refusal :=
  withInput s fun s => (s.output (xorKey s.input)).endOk

end Sys2Proof.Machine
end

