-- ==== Sys2Proof/Machine/Crc.lean ====
section
/-! DEFINITION. The CRC: the register function, the CRC value and the trailer (41_crc.md rules R110 to R115) and the
commands `CRC` (R116) and `CRCCHK` (R117). -/

namespace Sys2Proof.Machine

/-- One shift of the CRC register (R110). -/
def crcShift (r : Half) : Half := if r.getLsbD 0 then (r >>> 1) ^^^ 0xA001#16 else r >>> 1

/-- `k` shifts. -/
def crcShifts : Nat → Half → Half
  | 0, r => r
  | k + 1, r => crcShifts k (crcShift r)

/-- One byte of the CRC (R110). -/
def crcByte (r : Half) (b : Byte) : Half := crcShifts 8 (r ^^^ b.zeroExtend 16)

/-- `crc16_modbus` (R110): initial value 0xFFFF, no final XOR. -/
def crc16 (b : List Byte) : Half := b.foldl crcByte 0xFFFF

/-- `crc_value(b) = swap16(crc16_modbus(b))` (R112). -/
def crcValue (b : List Byte) : Half := swap16 (crc16 b)

/-- `trailer(p)`: the high byte of the register, then its low byte (R113). -/
def trailer (p : List Byte) : List Byte := le16 (crcValue p)

/-- `RESULT.VALUE <- v; RESULT.VALID <- ok` (R30). -/
def State.setResult (s : State) (v : Half) (ok : Bool) : State := { s with result := { value := v, valid := ok } }

/-- `CRC` (R116). -/
def execCrc (s : State) : Host.Outcome State Fault Refusal :=
  withInput s fun s => ((s.setResult (crcValue s.input) false).output (trailer s.input)).endOk

/-- The body of `CRCCHK` (R117) on an input. -/
def crcchkBody (s : State) (f : List Byte) : State :=
  if f.length < 2 then s.raise [.result] .short
  else if f.drop (f.length - 2) ≠ trailer (f.take (f.length - 2)) then s.raise [.result] .crc
  else (s.setResult (crcValue (f.take (f.length - 2))) false).endOk

/-- `CRCCHK` (R117). -/
def execCrcchk (s : State) : Host.Outcome State Fault Refusal := withInput s fun s => crcchkBody s s.input

end Sys2Proof.Machine
end

