-- ==== Sys2Proof/Machine/Header.lean ====
section
/-! DEFINITION. The header codec: decode and encode (42_header.md rules R130, R131) and the commands `HDEC` (R132),
`HENC` (R133) and `PLEN` (R134). -/

namespace Sys2Proof.Machine

/-- A decoded header (30_encoding.md rule R71). Its function code is one of `FCSET`. -/
structure Header where
  tid : Half
  pid : Half
  len : Half
  uid : Byte
  fc : Fc
  deriving DecidableEq, Repr

/-- `hdr_decode` (R130) on the first 8 bytes of a sequence: `E_SHORT` where there are fewer (R132, R158 step 1),
`E_FC_UNKNOWN` where byte 7 is not in `FCSET`. -/
def hdrDecode (h : List Byte) : Except Err Header :=
  match h with
  | h0 :: h1 :: h2 :: h3 :: h4 :: h5 :: h6 :: h7 :: _ =>
    match fcOfByte h7 with
    | none => .error .fcUnknown
    | some fc => .ok { tid := unbe16 h0 h1, pid := unbe16 h2 h3, len := unbe16 h4 h5, uid := h6, fc := fc }
  | _ => .error .short

/-- `hdr_encode` (R131). -/
def hdrEncode (h : Header) : List Byte := be16 h.tid ++ be16 h.pid ++ be16 h.len ++ [h.uid, fcByte h.fc]

/-- The header registers take a decoded header (R132, R159). -/
def State.setHeader (s : State) (h : Header) : State :=
  { s with htid := h.tid, hpid := h.pid, hlen := h.len, hufc := { uid := h.uid, fc := fcByte h.fc } }

/-- The body of `HDEC` (R132) on an input. -/
def hdecBody (s : State) (f : List Byte) : State :=
  match hdrDecode f with
  | .error e => s.raise [.htid, .hpid, .hlen, .hufc] e
  | .ok h => (s.setHeader h).endOk

/-- `HDEC` (R132). -/
def execHdec (s : State) : Host.Outcome State Fault Refusal := withInput s fun s => hdecBody s s.input

/-- `HENC` (R133). It reads no input buffer, so `ILEN` is not checked. -/
def execHenc (s : State) : Host.Outcome State Fault Refusal :=
  match fcOfByte s.hufc.fc with
  | none => .next (s.raise [.obuf, .olen] .fcUnknown)
  | some fc =>
    .next (s.output (hdrEncode { tid := s.htid, pid := s.hpid, len := s.hlen, uid := s.hufc.uid, fc := fc })).endOk

/-- The body of `PLEN` (R134) on an input. -/
def plenBody (s : State) (f : List Byte) : State :=
  if f.length < 8 then s.raise [.result] .short
  else (s.setResult (unbe16 (f.getD 4 0) (f.getD 5 0)) false).endOk

/-- `PLEN` (R134). -/
def execPlen (s : State) : Host.Outcome State Fault Refusal := withInput s fun s => plenBody s s.input

end Sys2Proof.Machine
end

