-- ==== Sys2Proof/Machine/Frame.lean ====
section
/-! DEFINITION. Function-code dispatch (43_frame.md rules R150 to R154), the frame functions (R156, R158) and the
commands `DISP` (R155), `FENC` (R157) and `FDEC` (R159). -/

namespace Sys2Proof.Machine

/-- The server dispatch table (R152). -/
def serverKind : Fc → Option Kind
  | .announce => some .announce
  | .data => some .data
  | .readRegisters => some .readRegistersResponse
  | .writeSingle => some .writeSingleRegisterResponse
  | .writeMultiple => some .writeMultipleRegistersResponse
  | .ping => some .ping
  | .setConfig => some .setConfigResponse
  | .getConfig => some .getConfigResponse
  | .bufferedData => some .bufferedData

/-- The client dispatch table (R153); `none` where no decoder is registered. -/
def clientKind : Fc → Option Kind
  | .announce => some .ack
  | .data => some .ack
  | .readRegisters => none
  | .writeSingle => none
  | .writeMultiple => none
  | .ping => some .ping
  | .setConfig => some .setConfigRequest
  | .getConfig => some .getConfigRequest
  | .bufferedData => some .ack

/-- The table a role selects (R150). -/
def tableKind (role : Role) (fc : Fc) : Option Kind :=
  match role with
  | .server => serverKind fc
  | .client => clientKind fc

/-- The last lines of `disp` (R154): no entry is `E_NO_DECODER`. -/
def dispFc (role : Role) (fc : Fc) : Except Err Kind :=
  match tableKind role fc with
  | none => .error .noDecoder
  | some k => .ok k

/-- `disp(role, fc)` (R154) on a function-code byte. -/
def disp (role : Role) (b : Byte) : Except Err Kind :=
  match fcOfByte b with
  | none => .error .fcUnknown
  | some fc => dispFc role fc

/-- How `DISP` ends (R155, R202): a kind goes to `STATUS.KIND`, or the command fails; it lists no register that an
error leaves unspecified. -/
def State.endDispatch (s : State) (d : Except Err Kind) : State :=
  match d with
  | .error e => s.endError e
  | .ok k => (s.setKind k).endOk

/-- `DISP` (R155). -/
def execDisp (fcsel : Byte) (s : State) : Host.Outcome State Fault Refusal :=
  .next (s.endDispatch (disp s.role fcsel))

/-- `frame_encode` (R156). -/
def frameEncode (tid pid : Half) (uid : Byte) (fc : Fc) (p : List Byte) : List Byte :=
  let h := hdrEncode { tid := tid, pid := pid, len := BitVec.ofNat 16 (p.length + 2), uid := uid, fc := fc }
  let e := xorKey p
  h ++ e ++ trailer (h ++ e)

/-- The body of `FENC` (R157) on a plaintext payload. -/
def fencBody (s : State) (p : List Byte) : State :=
  match fcOfByte s.hufc.fc with
  | none => s.raise [.obuf, .olen, .hlen, .result] .fcUnknown
  | some fc =>
    if maxPayload < p.length then s.raise [.obuf, .olen, .hlen, .result] .tooLong
    else
      let f := frameEncode s.htid s.hpid s.hufc.uid fc p
      let t := s.output f
      ({ t with hlen := BitVec.ofNat 16 (p.length + 2) }.setResult (crcValue (f.take (p.length + 8))) false).endOk

/-- `FENC` (R157). -/
def execFenc (s : State) : Host.Outcome State Fault Refusal := withInput s fun s => fencBody s s.input

/-- A decoded frame: its header, its plaintext payload and its message kind (R158). -/
structure DecodedFrame where
  header : Header
  payload : List Byte
  kind : Kind
  deriving DecidableEq, Repr

/-- `frame_decode` (R158), its checks in the order of its steps 1 to 6. -/
def frameDecode (role : Role) (f : List Byte) : Except Err DecodedFrame :=
  match hdrDecode f with
  | .error e => .error e
  | .ok h =>
    if h.len.toNat < 2 ∨ f.length ≠ 8 + h.len.toNat then .error .length
    else if f.drop (f.length - 2) ≠ trailer (f.take (f.length - 2)) then .error .crc
    else
      match dispFc role h.fc with
      | .error e => .error e
      | .ok k => .ok { header := h, payload := xorKey ((f.take (f.length - 2)).drop 8), kind := k }

/-- The body of `FDEC` (R159) on a frame. -/
def fdecBody (s : State) (f : List Byte) : State :=
  match frameDecode s.role f with
  | .error e => s.raise [.htid, .hpid, .hlen, .hufc, .obuf, .olen, .result] e
  | .ok d =>
    ((((s.setHeader d.header).output d.payload).setResult (crcValue (f.take (f.length - 2))) false).setKind d.kind).endOk

/-- `FDEC` (R159). -/
def execFdec (s : State) : Host.Outcome State Fault Refusal := withInput s fun s => fdecBody s s.input

end Sys2Proof.Machine
end

