-- ==== Sys2Proof/Machine/FrameFc.lean ====
section
/-! DEFINITION. The eighteen function-code rows of spec/opcode_table.json as instructions: what dispatching the row's
byte does (43_frame.md rules R152 to R155). Each row is written from the table's own kind; that the rows and the two
dispatch tables agree is stated and proved apart. -/

namespace Sys2Proof.Machine

/-- A dispatch row: in a block of the row's role the byte dispatches as the row says, and the command that carries it
ends as `DISP` ends (R155). A block of the other role dispatches the same byte by its own table (R150). DESIGN CHOICE
(log 10). -/
def dispatchRow (role : Role) (b : Byte) (d : Except Err Kind) (s : State) : Host.Outcome State Fault Refusal :=
  if s.role = role then .next (s.endDispatch d) else .next (s.endDispatch (disp s.role b))

/-- Row FC_ANNOUNCE@SERVER: byte 0x03 gives KIND 1 (R152). -/
def execFcAnnounceServer (s : State) : Host.Outcome State Fault Refusal :=
  dispatchRow .server 0x03 (.ok .announce) s

/-- Row FC_DATA@SERVER: byte 0x04 gives KIND 2 (R152). -/
def execFcDataServer (s : State) : Host.Outcome State Fault Refusal :=
  dispatchRow .server 0x04 (.ok .data) s

/-- Row FC_READ_REGISTERS@SERVER: byte 0x05 gives KIND 10 (R152). -/
def execFcReadRegistersServer (s : State) : Host.Outcome State Fault Refusal :=
  dispatchRow .server 0x05 (.ok .readRegistersResponse) s

/-- Row FC_WRITE_SINGLE@SERVER: byte 0x06 gives KIND 11 (R152). -/
def execFcWriteSingleServer (s : State) : Host.Outcome State Fault Refusal :=
  dispatchRow .server 0x06 (.ok .writeSingleRegisterResponse) s

/-- Row FC_WRITE_MULTIPLE@SERVER: byte 0x10 gives KIND 12 (R152). -/
def execFcWriteMultipleServer (s : State) : Host.Outcome State Fault Refusal :=
  dispatchRow .server 0x10 (.ok .writeMultipleRegistersResponse) s

/-- Row FC_PING@SERVER: byte 0x16 gives KIND 4 (R152). -/
def execFcPingServer (s : State) : Host.Outcome State Fault Refusal :=
  dispatchRow .server 0x16 (.ok .ping) s

/-- Row FC_SET_CONFIG@SERVER: byte 0x18 gives KIND 9 (R152). -/
def execFcSetConfigServer (s : State) : Host.Outcome State Fault Refusal :=
  dispatchRow .server 0x18 (.ok .setConfigResponse) s

/-- Row FC_GET_CONFIG@SERVER: byte 0x19 gives KIND 7 (R152). -/
def execFcGetConfigServer (s : State) : Host.Outcome State Fault Refusal :=
  dispatchRow .server 0x19 (.ok .getConfigResponse) s

/-- Row FC_BUFFERED_DATA@SERVER: byte 0x50 gives KIND 3 (R152). -/
def execFcBufferedDataServer (s : State) : Host.Outcome State Fault Refusal :=
  dispatchRow .server 0x50 (.ok .bufferedData) s

/-- Row FC_ANNOUNCE@CLIENT: byte 0x03 gives KIND 5 (R153). -/
def execFcAnnounceClient (s : State) : Host.Outcome State Fault Refusal :=
  dispatchRow .client 0x03 (.ok .ack) s

/-- Row FC_DATA@CLIENT: byte 0x04 gives KIND 5 (R153). -/
def execFcDataClient (s : State) : Host.Outcome State Fault Refusal :=
  dispatchRow .client 0x04 (.ok .ack) s

/-- Row FC_READ_REGISTERS@CLIENT: byte 0x05 has no decoder: `E_NO_DECODER` (R153). -/
def execFcReadRegistersClient (s : State) : Host.Outcome State Fault Refusal :=
  dispatchRow .client 0x05 (.error .noDecoder) s

/-- Row FC_WRITE_SINGLE@CLIENT: byte 0x06 has no decoder: `E_NO_DECODER` (R153). -/
def execFcWriteSingleClient (s : State) : Host.Outcome State Fault Refusal :=
  dispatchRow .client 0x06 (.error .noDecoder) s

/-- Row FC_WRITE_MULTIPLE@CLIENT: byte 0x10 has no decoder: `E_NO_DECODER` (R153). -/
def execFcWriteMultipleClient (s : State) : Host.Outcome State Fault Refusal :=
  dispatchRow .client 0x10 (.error .noDecoder) s

/-- Row FC_PING@CLIENT: byte 0x16 gives KIND 4 (R153). -/
def execFcPingClient (s : State) : Host.Outcome State Fault Refusal :=
  dispatchRow .client 0x16 (.ok .ping) s

/-- Row FC_SET_CONFIG@CLIENT: byte 0x18 gives KIND 8 (R153). -/
def execFcSetConfigClient (s : State) : Host.Outcome State Fault Refusal :=
  dispatchRow .client 0x18 (.ok .setConfigRequest) s

/-- Row FC_GET_CONFIG@CLIENT: byte 0x19 gives KIND 6 (R153). -/
def execFcGetConfigClient (s : State) : Host.Outcome State Fault Refusal :=
  dispatchRow .client 0x19 (.ok .getConfigRequest) s

/-- Row FC_BUFFERED_DATA@CLIENT: byte 0x50 gives KIND 5 (R153). -/
def execFcBufferedDataClient (s : State) : Host.Outcome State Fault Refusal :=
  dispatchRow .client 0x50 (.ok .ack) s

end Sys2Proof.Machine
end

