-- ==== Sys2Proof/Machine/Tid.lean ====
section
/-! DEFINITION. Transaction-id tracking: the next id (44_tid.md rule R181) and the commands `TIDNEXT` (R182), `TIDOBS`
(R183), `TIDRD` (R184) and `TIDCLR` (R185). -/

namespace Sys2Proof.Machine

/-- `next_id` (R181): `TID_FIRST` for an empty entry, else one more, modulo 65536. -/
def nextId (tidFirst : Half) (last : Option Half) : Half :=
  match last with
  | none => tidFirst
  | some v => v + 1

/-- The body of `TIDNEXT` for a function code (R182). -/
def tidnextBody (s : State) (fc : Fc) : State :=
  let v := nextId s.params.tidFirst (tidGet s.txLast fc)
  let t := s.setResult v true
  { t with txLast := tidSet s.txLast fc (some v), htid := v, hufc := { s.hufc with fc := fcByte fc } }.endOk

/-- `TIDNEXT` (R182). After `E_FC_UNKNOWN` the registers its rule lists, `RESULT`, `HTID` and `HUFC`, are unspecified
and the tables unchanged (R203; log 6). -/
def execTidnext (fcsel : Byte) (s : State) : Host.Outcome State Fault Refusal :=
  match fcOfByte fcsel with
  | none => .next (s.raise [.result, .htid, .hufc] .fcUnknown)
  | some fc => .next (tidnextBody s fc)

/-- `TIDOBS` (R183). It lists no register, so an error changes `STATUS` alone (R203). -/
def execTidobs (fcsel : Byte) (s : State) : Host.Outcome State Fault Refusal :=
  match fcOfByte fcsel with
  | none => .next (s.endError .fcUnknown)
  | some fc => .next { s with rxLast := tidSet s.rxLast fc (some s.htid) }.endOk

/-- What `TIDRD` reports of an entry (R184): an empty one reads 0 and not valid. -/
def tidReport (s : State) (e : Option Half) : State :=
  match e with
  | none => s.setResult 0 false
  | some v => s.setResult v true

/-- `TIDRD` (R184): `TSEL` 0 selects `TX_LAST`, 1 selects `RX_LAST`. -/
def execTidrd (fcsel : Byte) (tsel : BitVec 1) (s : State) : Host.Outcome State Fault Refusal :=
  match fcOfByte fcsel with
  | none => .next (s.raise [.result] .fcUnknown)
  | some fc => .next (tidReport s (tidGet (if tsel = 0 then s.txLast else s.rxLast) fc)).endOk

/-- `TIDCLR` (R185). -/
def execTidclr (s : State) : Host.Outcome State Fault Refusal :=
  .next { s with txLast := TidTable.empty, rxLast := TidTable.empty }.endOk

end Sys2Proof.Machine
end

