-- ==== Sys2Proof/Machine/Dispatch.lean ====
section
/-! DEFINITION. What each instruction does: one arm per constructor of `Instr`, one meaning per arm. -/

namespace Sys2Proof.Machine

def exec (i : Instr) (s : State) : Host.Outcome State Fault Refusal :=
  match i with
  | .xor => Sys2Proof.Machine.execXor s
  | .crc => Sys2Proof.Machine.execCrc s
  | .crcchk => Sys2Proof.Machine.execCrcchk s
  | .hdec => Sys2Proof.Machine.execHdec s
  | .henc => Sys2Proof.Machine.execHenc s
  | .plen => Sys2Proof.Machine.execPlen s
  | .disp fcsel => Sys2Proof.Machine.execDisp fcsel s
  | .fenc => Sys2Proof.Machine.execFenc s
  | .fdec => Sys2Proof.Machine.execFdec s
  | .tidnext fcsel => Sys2Proof.Machine.execTidnext fcsel s
  | .tidobs fcsel => Sys2Proof.Machine.execTidobs fcsel s
  | .tidrd fcsel tsel => Sys2Proof.Machine.execTidrd fcsel tsel s
  | .tidclr => Sys2Proof.Machine.execTidclr s
  | .fcAnnounceServer => Sys2Proof.Machine.execFcAnnounceServer s
  | .fcDataServer => Sys2Proof.Machine.execFcDataServer s
  | .fcReadRegistersServer => Sys2Proof.Machine.execFcReadRegistersServer s
  | .fcWriteSingleServer => Sys2Proof.Machine.execFcWriteSingleServer s
  | .fcWriteMultipleServer => Sys2Proof.Machine.execFcWriteMultipleServer s
  | .fcPingServer => Sys2Proof.Machine.execFcPingServer s
  | .fcSetConfigServer => Sys2Proof.Machine.execFcSetConfigServer s
  | .fcGetConfigServer => Sys2Proof.Machine.execFcGetConfigServer s
  | .fcBufferedDataServer => Sys2Proof.Machine.execFcBufferedDataServer s
  | .fcAnnounceClient => Sys2Proof.Machine.execFcAnnounceClient s
  | .fcDataClient => Sys2Proof.Machine.execFcDataClient s
  | .fcReadRegistersClient => Sys2Proof.Machine.execFcReadRegistersClient s
  | .fcWriteSingleClient => Sys2Proof.Machine.execFcWriteSingleClient s
  | .fcWriteMultipleClient => Sys2Proof.Machine.execFcWriteMultipleClient s
  | .fcPingClient => Sys2Proof.Machine.execFcPingClient s
  | .fcSetConfigClient => Sys2Proof.Machine.execFcSetConfigClient s
  | .fcGetConfigClient => Sys2Proof.Machine.execFcGetConfigClient s
  | .fcBufferedDataClient => Sys2Proof.Machine.execFcBufferedDataClient s

end Sys2Proof.Machine
end

