-- ==== Sys2Proof/Machine/Block.lean ====
section
/-! DEFINITION. The block's step: step 2 of the command in flight (30_encoding.md rule R90). -/

namespace Sys2Proof.Machine

/-- Step 2 on a command word (R90): an illegal word ends at once with `E_BADCMD` and changes nothing else (R83,
R203 (b)); a legal one runs its command. -/
def runCommand (w : Word) (s : State) : Host.Outcome State Fault Refusal :=
  match decodeWord w with
  | .error _ => .next (s.endError .badCmd)
  | .ok i => exec i s

/-- The block's step: the command in flight, or nothing when none runs (R216). -/
def blockStep (s : State) : Host.Outcome State Fault Refusal :=
  match s.inflight with
  | none => .next s
  | some w => runCommand w s

end Sys2Proof.Machine
end

