-- ==== Sys2Proof/Machine/HostAccess.lean ====
section
/-! DEFINITION. The host's accesses to the window (20_memory.md rules R50 to R55, R60, R61). An access the spec refuses
has no step (R210): it ends in a refusal by name. -/

namespace Sys2Proof.Machine

/-- The size of the window (R50). -/
def windowBytes : Nat := 0x80000

/-- The end of the register window (R50: 0x00000 to 0x00027). -/
def regWindowBytes : Nat := 0x28

/-- What an access names (R50 to R53). -/
inductive Target
  | reg (r : Reg)
  | ibuf
  | obuf
  deriving DecidableEq, Repr

/-- The target of an access of a width at a window offset, or why it is refused: registers take aligned 32-bit
accesses (R51), buffers 8-bit ones (R52), and nothing else is mapped (R53). -/
def targetAt (w : Width) (off : Nat) : Except Refusal Target :=
  if off < regWindowBytes then
    if w ≠ .w32 then .error .wrongWidth
    else
      match regAt off with
      | some r => .ok (.reg r)
      | none => .error .misaligned
  else if inIbuf off then if w ≠ .w8 then .error .wrongWidth else .ok .ibuf
  else if inObuf off then if w ≠ .w8 then .error .wrongWidth else .ok .obuf
  else .error .unmapped

/-- The window offset of a host address (R50). -/
def State.windowOffset (s : State) (addr : Nat) : Except Refusal Nat :=
  if addr < s.params.base ∨ s.params.base + windowBytes ≤ addr then .error .outsideWindow
  else .ok (addr - s.params.base)

/-- A fresh unspecified word for a window offset (R61, R87): one draw each time. -/
def State.drawWord (s : State) (off : Nat) : Word × State :=
  (Config.freeWord s.draws off, { s with draws := s.draws + 1 })

/-- A host read of a mapped target. While a command runs, only `STATUS` and `IBUF` read as they stand (R61; log 7). -/
def State.readTarget (s : State) (t : Target) (off : Nat) : Nat × State :=
  match t with
  | .reg .status => ((s.readReg .status).toNat, s)
  | .reg r => if s.status.busy then ((s.drawWord off).1.toNat, (s.drawWord off).2) else ((s.readReg r).toNat, s)
  | .ibuf => ((s.readByte off).toNat, s)
  | .obuf =>
    if s.status.busy then (((s.drawWord off).1.extractLsb' 0 8).toNat, (s.drawWord off).2)
    else ((s.readByte off).toNat, s)

/-- A host write of a word to a mapped target; `IBUF` takes its low byte (R52, R54, R60). -/
def State.writeTarget (s : State) (t : Target) (off : Nat) (w : Word) : Except Refusal State :=
  match t with
  | .reg r => if s.status.busy then .error .writeWhileBusy else .ok (s.writeReg r w)
  | .ibuf =>
    if s.status.busy then .error .writeWhileBusy
    else .ok { s with mem := memWrite s.mem off [w.extractLsb' 0 8] }
  | .obuf => .error .obufWrite

/-- A host read of a width at a host address: the value and the state after it. -/
def hostRead (s : State) (w : Width) (addr : Nat) : Except Refusal (Nat × State) :=
  match s.windowOffset addr with
  | .error e => .error e
  | .ok off =>
    match targetAt w off with
    | .error e => .error e
    | .ok t => .ok (s.readTarget t off)

/-- How many bits an access of a width carries. -/
def widthBits : Width → Nat
  | .w8 => 8
  | .w16 => 16
  | .w32 => 32
  | .w64 => 64

/-- A value that an access of a width can carry (R87: `imm32`, `imm8`). -/
def fits (w : Width) (v : Int) : Bool := decide (0 ≤ v) && decide (v < 2 ^ widthBits w)

/-- The word a host write carries. The spec states none for a value that does not fit: the write happens with an
unspecified word (R87; log 14). -/
def State.wordToWrite (s : State) (w : Width) (off : Nat) (v : Int) : Word × State :=
  if fits w v then (BitVec.ofInt 32 v, s) else s.drawWord off

/-- A host write of a value at a host address, with an access of the given width. -/
def hostWrite (s : State) (w : Width) (addr : Nat) (v : Int) : Except Refusal State :=
  match s.windowOffset addr with
  | .error e => .error e
  | .ok off =>
    match targetAt w off with
    | .error e => .error e
    | .ok t => (s.wordToWrite w off v).2.writeTarget t off (s.wordToWrite w off v).1

end Sys2Proof.Machine
end

