-- ==== Sys2Proof/Machine/HostRun.lean ====
section
/-! DEFINITION. The host agent's step: one line of its program (30_encoding.md rule R87). A value the notation does not
state is a free value (log 14); a line without a meaning is refused by name (R210; log 12). -/

namespace Sys2Proof.Machine

/-- The value of a host variable. -/
def varGet : List (Nat × Int) → Nat → Option Int
  | [], _ => none
  | (k, v) :: vs, x => if k = x then some v else varGet vs x

/-- The variables with one set; the list stays sorted by number. -/
def varSet (vs : List (Nat × Int)) (x : Nat) (v : Int) : List (Nat × Int) :=
  (vs.filter fun c => decide (c.1 < x)) ++ (x, v) :: (vs.filter fun c => decide (x < c.1))

/-- The value a variable holds for agent `k`; one that nothing has set holds a free integer (log 14). -/
def HostAgent.value (k : Nat) (a : HostAgent) (x : Nat) : Int := (varGet a.vars x).getD (Config.freeVar k x)

/-- The value of an expression for agent `k`, over unbounded integers (R87). -/
def exprValue (k : Nat) (a : HostAgent) : HostExpr → Int
  | .lit v => v
  | .var x => a.value k x
  | .add e f => exprValue k a e + exprValue k a f
  | .sub e f => exprValue k a e - exprValue k a f
  | .mul e f => exprValue k a e * exprValue k a f

/-- The value a write action of agent `k` writes. -/
def srcValue (k : Nat) (a : HostAgent) : HostSrc → Int
  | .imm n => n
  | .var x => a.value k x

/-- The line after the current one. -/
def HostAgent.advance (a : HostAgent) : HostAgent := { a with pc := a.pc + 1 }

/-- A variable is set and the program goes on. -/
def HostAgent.setVar (a : HostAgent) (x : Nat) (v : Int) : HostAgent :=
  { a with vars := varSet a.vars x v, pc := a.pc + 1 }

/-- A branch to a label: the first line that bears it. -/
def HostAgent.branch (a : HostAgent) (l : Nat) : Except Refusal HostAgent :=
  match a.prog.findIdx? (fun x => decide (x = .label l)) with
  | none => .error .unknownLabel
  | some i => .ok { a with pc := i }

/-- The program has ended: `halt`, or past its last line (R87). -/
def HostAgent.ended (a : HostAgent) : Bool := decide (a.prog.length ≤ a.pc)

/-- A read action of an agent. -/
def readAction (s : State) (a : HostAgent) (w : Width) (addr t : Nat) : Except Refusal (HostAgent × State) :=
  match hostRead s w addr with
  | .error e => .error e
  | .ok (v, s') => .ok (a.setVar t v, s')

/-- A write action of an agent. -/
def writeAction (s : State) (a : HostAgent) (w : Width) (addr : Nat) (v : Int) : Except Refusal (HostAgent × State) :=
  match hostWrite s w addr v with
  | .error e => .error e
  | .ok s' => .ok (a.advance, s')

/-- The value of `t & mask`; of a negative `t` it is unspecified, one draw each time (R87; log 14). -/
def State.masked (s : State) (v : Int) (mask : Nat) : Nat × State :=
  if v < 0 then (Config.freeMasked s.draws, { s with draws := s.draws + 1 }) else (v.toNat &&& mask, s)

/-- A branch of an agent. -/
def branchAction (s : State) (a : HostAgent) (l : Nat) : Except Refusal (HostAgent × State) :=
  (a.branch l).map fun a' => (a', s)

/-- `bnz t & mask, L` on the value of `t` (R87). -/
def bnzAction (s : State) (a : HostAgent) (v : Int) (mask l : Nat) : Except Refusal (HostAgent × State) :=
  if (s.masked v mask).1 ≠ 0 then branchAction (s.masked v mask).2 a l else .ok (a.advance, (s.masked v mask).2)

/-- One line of the program of agent `k` (R87). -/
def hostAct (k : Nat) (s : State) (a : HostAgent) (x : HostAction) : Except Refusal (HostAgent × State) :=
  match x with
  | .wr r v => writeAction s a .w32 (s.params.base + regOffset r) (srcValue k a v)
  | .rd r t => readAction s a .w32 (s.params.base + regOffset r) t
  | .wb i v => writeAction s a .w8 (s.params.base + ibufBase + i) (srcValue k a v)
  | .rb i t => readAction s a .w8 (s.params.base + obufBase + i) t
  | .load w addr t => readAction s a w addr t
  | .store w addr v => writeAction s a w addr (srcValue k a v)
  | .label _ => .ok (a.advance, s)
  | .bnz t mask l => bnzAction s a (a.value k t) mask l
  | .jmp l => branchAction s a l
  | .halt => .ok ({ a with pc := a.prog.length }, s)
  | .mov t e => .ok (a.setVar t (exprValue k a e), s)

/-- The step of host agent `k`: the next line of its program, or nothing when there is no such agent or its program
has ended. A refused line is refused by name (R210; log 9). -/
def hostStep (k : Nat) (s : State) : Host.Outcome State Fault Refusal :=
  match s.hosts[k]? with
  | none => .next s
  | some a =>
    match a.prog[a.pc]? with
    | none => .next s
    | some x =>
      match hostAct k s a x with
      | .error e => .refused e
      | .ok (a', s') => .next { s' with hosts := s'.hosts.set k a' }

/-- Who moves when the list of events is empty (R244: the block's step is always taken in the end; log 8): the block
if a command is in flight, else the first host agent whose program has not ended. -/
def State.defaultEvent (s : State) : Option Event :=
  match s.inflight with
  | some _ => some .block
  | none => (s.hosts.findIdx? fun a => !a.ended).map .host

/-- The next event and the state without it. -/
def State.takeEvent (s : State) : Option Event × State :=
  match s.events with
  | e :: es => (some e, { s with events := es })
  | [] => (s.defaultEvent, s)

end Sys2Proof.Machine
end

