-- ==== Sys2Proof/Machine/Step.lean ====
section
/-! DEFINITION. One step of the machine: the next event decides which agent moves (70_reset_and_hazards.md rules R231,
R244). -/

namespace Sys2Proof.Machine

/-- One step: the block's, a host agent's, or a reset; with no event and nothing to run the machine is idle and keeps
its state (R216). -/
def step (s : State) : Host.Outcome State Fault Refusal :=
  match s.takeEvent with
  | (some .block, t) => blockStep t
  | (some (.host k), t) => hostStep k t
  | (some (.reset strap), t) => .next (t.applyReset strap)
  | (none, t) => .next t

/-- The command word that carries a table row's bits: a command row is the word itself, a function-code row (8 bits)
is the word of the `DISP` that dispatches its byte (R155; log 10). -/
def tableWord (nbits w : Nat) : Word :=
  if nbits = 8 then assembleWord 0x07 (BitVec.ofNat 8 w) 0 else BitVec.ofNat 32 w

/-- A state whose very next step is step 2 of the given command: step 1 of R90 has been taken for its word, and the
block moves next. It stands for the host's write of the word to `CMD` (log 11). -/
def State.withFetchWord (s : State) (nbits w : Nat) : State :=
  let t := s.startCommand (tableWord nbits w)
  { t with events := .block :: s.events }

end Sys2Proof.Machine
end

