-- ==== Sys2Proof/Machine/Pseudo.lean ====
section
/-! DEFINITION. The command lines and pseudo-instructions of host programs (30_encoding.md rules R87, R88), as the
actions they expand to. -/

namespace Sys2Proof.Machine

/-- A command line: a write of the command's word to `CMD` (R87). A function-code row has no command word. -/
def cmdLine (i : Instr) : List HostAction :=
  match encodeWord i with
  | some w => [.wr .cmd (.imm w.toNat)]
  | none => []

/-- `ENCRYPT` is `XOR` (R88, R105). -/
def encryptLine : List HostAction := cmdLine .xor

/-- `DECRYPT` is `XOR` (R88, R105). -/
def decryptLine : List HostAction := cmdLine .xor

/-- `POLL`, with its private label and the variable it reads `STATUS` into (R88). -/
def pollLines (p t : Nat) : List HostAction := [.label p, .rd .status t, .bnz t 0x1 p]

/-- `RUN cmd` (R88). -/
def runLines (i : Instr) (p t : Nat) : List HostAction := cmdLine i ++ pollLines p t

/-- The byte writes of `LOADIN` from an index on. -/
def loadBytes (i : Nat) : List Byte → List HostAction
  | [] => []
  | b :: bs => .wb i (.imm b.toNat) :: loadBytes (i + 1) bs

/-- `LOADIN b0 b1 ...` (R88). -/
def loadinLines (bs : List Byte) : List HostAction := loadBytes 0 bs ++ [.wr .ilen (.imm bs.length)]

/-- `SETHDR tid, pid, uid, fc` (R88). -/
def sethdrLines (tid pid : Half) (uid fc : Byte) : List HostAction :=
  [.wr .htid (.imm tid.toNat), .wr .hpid (.imm pid.toNat), .wr .hufc (.imm ((fc.toNat <<< 8) ||| uid.toNat))]

/-- The byte copies of `COPYOUT` from an index on, through a host variable. -/
def copyBytes (i t : Nat) : Nat → List HostAction
  | 0 => []
  | k + 1 => .rb i t :: .wb i (.var t) :: copyBytes (i + 1) t k

/-- `COPYOUT k` (R88). -/
def copyoutLines (k t : Nat) : List HostAction := copyBytes 0 t k ++ [.wr .ilen (.imm k)]

end Sys2Proof.Machine
end

