-- ==== Sys2Proof/Safety.lean ====
section
/-! DEFINITION. What holds of every state the machine can be in: the invariant of the registers and the memory, in the
terms the statements use (10_state.md rules R23, R33, R34, R39; 30_encoding.md rule R90). -/

namespace Sys2Proof.Machine

/-- The invariant. It rules out only states no run reaches. -/
structure State.Inv (s : State) : Prop where
  /-- The known bytes are in the canonical form, and each lies in a buffer (R33, R34). -/
  mem_wf : Memory.wf s.mem = true
  /-- `BUSY` says whether a command is in flight (R23, R90). -/
  busy_iff : s.status.busy = s.inflight.isSome
  /-- While a command runs, `STATUS` is what step 1 wrote (R90), so `BUSY` and `DONE` are never both 1 (R23). -/
  started : s.status.busy = true → s.status = statusStarted
  /-- `ERR` equals (`ERRCODE` ≠ 0) (R23). -/
  err_iff : s.status.err = s.status.errcode.isSome
  /-- `KIND` is not 0 only after a command that ended without an error (R23). -/
  kind_ok : s.status.kind ≠ .none → s.status.done = true ∧ s.status.err = false

/-- The byte of `IBUF` at an index (R33). -/
def State.ibufByte (s : State) (i : Nat) : Byte := s.readByte (ibufBase + i)

/-- The byte of `OBUF` at an index (R34). -/
def State.obufByte (s : State) (i : Nat) : Byte := s.readByte (obufBase + i)

/-- The command input `IBUF[0..ILEN.LEN)`, byte by byte (R33). -/
def State.inputBytes (s : State) : List Byte := (List.range s.ilen.toNat).map s.ibufByte

/-- The bytes of `FCSET` (30_encoding.md rule R74). -/
def fcset : List Byte := [0x03, 0x04, 0x05, 0x06, 0x10, 0x16, 0x18, 0x19, 0x50]

/-- A command is between its two steps (R90): step 1 wrote `STATUS`. -/
def State.Running (s : State) : Prop := s.status = statusStarted

/-- A command started in `s` has ended in `t` without an error (R90): `BUSY` is 0 and `DONE` 1, the other fields of
`STATUS` are as step 1 left them, and nothing is in flight. -/
def EndsOk (s t : State) : Prop :=
  t.status = statusEnded s.status ∧ t.inflight = none ∧ (s.Running → t.readReg .status = 0x00000002)

/-- As `EndsOk`, with a message kind in `STATUS.KIND` (43_frame.md rules R155, R159). -/
def EndsWithKind (s t : State) (k : Kind) : Prop :=
  t.status = { statusEnded s.status with kind := k } ∧ t.inflight = none ∧
    (s.Running → t.readReg .status = 0#8 ++ kindCode k ++ 0x0002#16)

/-- The code column of 60_exceptions.md rule R200, written out for the statements. -/
def tableCode : Err → Byte
  | .badCmd => 0x01
  | .ilen => 0x02
  | .short => 0x03
  | .fcUnknown => 0x04
  | .length => 0x05
  | .crc => 0x06
  | .noDecoder => 0x07
  | .tooLong => 0x08

/-- A command has ended in `t` with an error (60_exceptions.md rule R202): `BUSY` 0, `DONE` 1, `ERR` 1, `KIND` 0, and
the error's code. -/
def EndsInError (t : State) (e : Err) : Prop :=
  t.status = { busy := false, done := true, err := true, errcode := some e, kind := .none } ∧ t.inflight = none ∧
    t.readReg .status = 0#16 ++ tableCode e ++ 0x06#8

/-- The block's step of a command comes next: its word is in flight and the next event is the block's (R244). -/
def State.BlockNext (s : State) (w : Word) : Prop := s.inflight = some w ∧ s.takeEvent.1 = some .block

end Sys2Proof.Machine
end

