-- ==== Sys2Proof/Certificates/Slice0/Obligations.lean ====
section
/-! DEFINITION. The statements for the provers. Each docstring names the rules of spec/ its statement formalises.
Where an equation `t = { s with f := t.f, … }` stands, it says that every field of `t` that it does not list is as in
`s`; the listed fields are then described one by one. -/

open Sys2Proof Sys2Proof.Machine

namespace Sys2Proof.Claims

/-- The first error of a list of checks whose check holds. -/
def firstOf : List (Bool × Err) → Option Err
  | [] => none
  | (c, e) :: cs => if c then some e else firstOf cs

/-- The two bytes before index `n` of `IBUF` are not the trailer of the bytes before them (41_crc.md rule R115). -/
def trailerWrong (s : State) (n : Nat) : Prop :=
  (s.ibufByte (n - 2), s.ibufByte (n - 1)) ≠
    (hiByte (crc16 (s.inputBytes.take (n - 2))), loByte (crc16 (s.inputBytes.take (n - 2))))

/-- The checks of a command in the order of 60_exceptions.md rule R206, `E_BADCMD` apart: that one is about the word. -/
def checks (i : Instr) (s : State) : List (Bool × Err) :=
  let n := s.ilen.toNat
  let tooBig := (decide (65543 < n), Err.ilen)
  let short (k : Nat) := (decide (n < k), Err.short)
  let unknown (b : Byte) := (!fcset.contains b, Err.fcUnknown)
  let noDecoder (b : Byte) := (s.role == .client && [0x05#8, 0x06#8, 0x10#8].contains b, Err.noDecoder)
  let badTrailer := (decide ((s.ibufByte (n - 2), s.ibufByte (n - 1)) ≠
    (hiByte (crc16 (s.inputBytes.take (n - 2))), loByte (crc16 (s.inputBytes.take (n - 2))))), Err.crc)
  let len := (s.ibufByte 4 ++ s.ibufByte 5 : Half).toNat
  match i with
  | .xor | .crc => [tooBig]
  | .crcchk => [tooBig, short 2, badTrailer]
  | .hdec => [tooBig, short 8, unknown (s.ibufByte 7)]
  | .henc => [unknown s.hufc.fc]
  | .plen => [tooBig, short 8]
  | .disp b => [unknown b, noDecoder b]
  | .fenc => [tooBig, unknown s.hufc.fc, (decide (65533 < n), .tooLong)]
  | .fdec => [tooBig, short 8, unknown (s.ibufByte 7), (decide (len < 2 ∨ n ≠ 8 + len), .length), badTrailer,
      noDecoder (s.ibufByte 7)]
  | .tidnext b | .tidobs b | .tidrd b _ => [unknown b]
  | _ => []

/-- What a command's rule lists under "Registers written" that R203 (c) leaves unspecified after an error in its body:
registers and `OBUF`; the tables and `STATUS` follow R203 (a) and R202. -/
def listed : Instr → List Out
  | .xor => [.obuf, .olen]
  | .crc => [.result, .obuf, .olen]
  | .crcchk | .plen | .tidrd _ _ => [.result]
  | .hdec => [.htid, .hpid, .hlen, .hufc]
  | .henc => [.obuf, .olen]
  | .fenc => [.obuf, .olen, .hlen, .result]
  | .fdec => [.htid, .hpid, .hlen, .hufc, .obuf, .olen, .result]
  | .tidnext _ => [.result, .htid, .hufc]
  | _ => []

/-- A register, or every byte of `OBUF`, is the same in two states. -/
def sameOut (s t : State) : Out → Prop
  | .obuf => ∀ a, obufBase ≤ a → t.readByte a = s.readByte a
  | .olen => t.olen = s.olen
  | .htid => t.htid = s.htid
  | .hpid => t.hpid = s.hpid
  | .hlen => t.hlen = s.hlen
  | .hufc => t.hufc = s.hufc
  | .result => t.result = s.result

/-- `IBUF` reads the same in two states. -/
def sameIbuf (s t : State) : Prop := ∀ a, a < obufBase → t.readByte a = s.readByte a

/-- A command's word and the operand fields its row leaves unused: of the words with this `OP`, those that satisfy
`legal` run the command and every other ends with `E_BADCMD` (30_encoding.md rules R83, R84). -/
def WordsOf (op : Byte) (legal : Word → Prop) (run : Word → State → Host.Outcome State Fault Refusal) : Prop :=
  ∀ w : Word, w.extractLsb' 0 8 = op → ∀ s : State,
    (legal w → runCommand w s = run w s) ∧ (¬ legal w → runCommand w s = .next (s.endError .badCmd))

/-- A register, or every byte of `OBUF`, holds what the given draw of the model's free values gives it (log 4). -/
def holdsDraw (d : Nat) (t : State) : Out → Prop
  | .obuf => ∀ a, obufBase ≤ a → t.readByte a = Config.freeByte d a
  | .olen => t.olen = (Config.freeWord d 0x0C).extractLsb' 0 17
  | .htid => t.htid = (Config.freeWord d 0x10).extractLsb' 0 16
  | .hpid => t.hpid = (Config.freeWord d 0x14).extractLsb' 0 16
  | .hlen => t.hlen = (Config.freeWord d 0x18).extractLsb' 0 16
  | .hufc => t.hufc.uid = (Config.freeWord d 0x1C).extractLsb' 0 8 ∧ t.hufc.fc = (Config.freeWord d 0x1C).extractLsb' 8 8
  | .result => t.result.value = (Config.freeWord d 0x20).extractLsb' 0 16 ∧
      t.result.valid = (Config.freeWord d 0x20).getLsbD 16

/-- Agent `k` stands at the given line of its program. -/
def atLine (s : State) (k : Nat) (x : HostAction) : Prop :=
  ∃ a : HostAgent, s.hosts[k]? = some a ∧ a.prog[a.pc]? = some x

/-- A read has no meaning: the access is refused, and an agent that stands at it has no step (60_exceptions.md rule
R210). -/
def noRead (s : State) (w : Width) (addr : Nat) : Prop :=
  (∃ e, hostRead s w addr = .error e) ∧ ∀ k x, atLine s k (.load w addr x) → ∃ e, hostStep k s = .refused e

/-- A write has no meaning, whatever its value. -/
def noWrite (s : State) (w : Width) (addr : Nat) : Prop :=
  (∀ v : Int, ∃ e, hostWrite s w addr v = .error e) ∧ ∀ k v, atLine s k (.store w addr v) → ∃ e, hostStep k s = .refused e

/-- The state after `n` steps of host agent `k`, if each of them answers a next state. -/
def afterHost (k : Nat) : Nat → State → Option State
  | 0, s => some s
  | n + 1, s =>
    match hostStep k s with
    | .next t => afterHost k n t
    | _ => none

/-- The state after `n` steps, if each of them answers a next state. -/
def after : Nat → State → Option State
  | 0, s => some s
  | n + 1, s =>
    match step s with
    | .next t => after n t
    | _ => none

/-- The transaction ids that `n` consecutive `TIDNEXT` commands for a function code put into `RESULT.VALUE`. -/
def tidIds (fc : Fc) : Nat → State → List Half
  | 0, _ => []
  | n + 1, s =>
    match exec (.tidnext (fcByte fc)) s with
    | .next t => t.result.value :: tidIds fc n t
    | _ => []

end Sys2Proof.Claims

open Sys2Proof.Claims

/-! ## Encoding -/

/-- 30_encoding.md section 2: decoding an encoded instruction gives it back, with every operand at every value, and
every instruction has exactly one of the two encodings. -/
def Obligations.DecodeOfEncodeIsTheInstruction : Prop :=
  ∀ i : Instr, i.wellFormed = true →
    (∀ w, encodeWord i = some w → decodeWord w = .ok i) ∧
    (∀ r b, encodeFrameByte i = some (r, b) → decodeFrameByte r b = .ok i) ∧
    ((encodeWord i).isSome ↔ encodeFrameByte i = none)

/-- 30_encoding.md section 2: each legal command word has one meaning, and it encodes back to that word. -/
def Obligations.DecodedWordEncodesBack : Prop :=
  ∀ (w : Word) (i : Instr), decodeWord w = .ok i → encodeWord i = some w ∧ i.wellFormed = true

/-- R83: which words are illegal, and that such a word ends at once with `E_BADCMD` and changes nothing else; every
other word is accepted and runs its command. -/
def Obligations.IllegalWordsEndWithBadCommand : Prop :=
  ∀ w : Word,
    let op := w.extractLsb' 0 8
    let illegal : Prop :=
      (op = 0x00 ∨ (0x0E ≤ op.toNat ∧ op.toNat ≤ 0xFF)) ∨ (∃ k, 17 ≤ k ∧ k ≤ 31 ∧ w.getLsbD k = true) ∨
      (op ∉ [0x07#8, 0x0A#8, 0x0B#8, 0x0C#8] ∧ w.extractLsb' 8 8 ≠ 0) ∨ (op ≠ 0x0C ∧ w.getLsbD 16 = true)
    (illegal → ∀ s : State, ∃ t, runCommand w s = .next t ∧ EndsInError t .badCmd ∧
      t = { s with status := t.status, inflight := t.inflight }) ∧
    (¬ illegal → ∃ i, decodeWord w = .ok i ∧ ∀ s : State, runCommand w s = exec i s)

/-- 30_encoding.md sections 1, 2 and 4 and 43_frame.md section 1 (R74, R76, R84, R89, R152, R153): words written out from
the spec's encodings decode to the instructions they stand for. That a function-code row is an instruction is the
model's choice (log 10). -/
def Obligations.SpecWordsDecode : Prop :=
  decodeWord 0b00000000000000000000000000000001 = .ok .xor ∧
  decodeWord 0b00000000000000000000000000000010 = .ok .crc ∧
  decodeWord 0b00000000000000000000000000000100 = .ok .hdec ∧
  decodeWord 0x00005007 = .ok (.disp 0x50) ∧
  decodeWord 0x00000009 = .ok .fdec ∧
  decodeWord 0x0000160A = .ok (.tidnext 0x16) ∧
  decodeWord 0x0001190C = .ok (.tidrd 0x19 1) ∧
  decodeFrameByte .server 0b00010110 = .ok .fcPingServer ∧
  decodeFrameByte .client 0b01010000 = .ok .fcBufferedDataClient ∧
  decodeWord 0x00001601 = .error .unusedFcsel

/-! ## The step -/

/-- 30_encoding.md section 3, 60_exceptions.md section 3 (from R216) and 70_reset_and_hazards.md sections 1 and 4 with
log 8, which makes the schedule a list of events. What a step is, in the state without the event it takes: when a
command is in flight and the block moves, the execution of the instruction its word decodes to, or `E_BADCMD` for an
illegal word; when a host agent moves, the step of that agent; at a reset event, reset; and when no command is in flight
and no agent has a line left, nothing. -/
def Obligations.StepRunsTheCommandInFlight : Prop :=
  ∀ s : State,
    let t := { s with events := s.events.tail }
    s.takeEvent.2 = t ∧
    (∀ w, s.BlockNext w → (∀ i, decodeWord w = .ok i → step s = exec i t) ∧
      (∀ e, decodeWord w = .error e → step s = .next (t.endError .badCmd))) ∧
    (∀ k, s.takeEvent.1 = some (.host k) → step s = hostStep k t) ∧
    (∀ e es, s.events = e :: es → s.takeEvent.1 = some e ∧
      (e = .block → s.inflight = none → step s = .next t) ∧
      ∀ strap, e = .reset strap → step s = .next (t.applyReset strap)) ∧
    (s.events = [] →
      (∀ w, s.inflight = some w → s.takeEvent.1 = some .block) ∧
      (s.inflight = none →
        (∀ k a, s.hosts[k]? = some a → a.pc < a.prog.length →
          (∀ j b, j < k → s.hosts[j]? = some b → b.prog.length ≤ b.pc) → s.takeEvent.1 = some (.host k)) ∧
        ((∀ a ∈ s.hosts, a.prog.length ≤ a.pc) → step s = .next s)))

/-- R90: the two steps of a command. The host's write of `w` to `CMD` is refused while `BUSY = 1`; otherwise it sets
the five fields of `STATUS` and nothing else of the block but the command in flight. Step 2, the block's, raises
`E_BADCMD` on an illegal word, then `E_ILEN` for the commands that read `IBUF`, else it performs the command's body, and
whatever happens it ends with `BUSY` 0 and `DONE` 1. -/
def Obligations.CommandsRunInTwoSteps : Prop :=
  ∀ (s : State) (w : Word),
    (s.status.busy = true → noWrite s .w32 (s.params.base + 0x00)) ∧
    (s.status.busy = false → ∃ t, hostWrite s .w32 (s.params.base + 0x00) w.toNat = .ok t ∧
      t.status = { busy := true, done := false, err := false, errcode := none, kind := .none } ∧
      t = { s with status := t.status, inflight := some w }) ∧
    (s.inflight = some w → ∃ t, blockStep s = .next t ∧ t.status.busy = false ∧ t.status.done = true ∧
      t.inflight = none ∧ (∀ e, decodeWord w = .error e → EndsInError t .badCmd) ∧
      (∀ i, decodeWord w = .ok i →
        (i ∈ [.xor, .crc, .crcchk, .hdec, .plen, .fenc, .fdec] → 65543 < s.ilen.toNat → EndsInError t .ilen) ∧
        exec i s = .next t))

/-- 70_reset_and_hazards.md section 4: a command in flight is always run. Once the listed events are used up, the
block moves next; the order in which agents move before is the model's schedule (log 8). -/
def Obligations.BlockMovesWhenEventsAreUsedUp : Prop :=
  ∀ (s t : State) (w : Word), s.Inv → s.inflight = some w → (∀ e ∈ s.events, ∃ k, e = .host k) →
    after s.events.length s = some t →
    t.inflight = some w ∧ t.status = s.status ∧ step t = runCommand w t

/-! ## Host accesses -/

/-- R51: a register access is an aligned 32-bit read or write at offset 0x00 to 0x24; every other access inside the
register window is refused, and the agent that issues it has no step. (Writes are shown while no command runs; R60 says
what becomes of them while one does.) -/
def Obligations.RegisterAccessesAreAlignedWords : Prop :=
  ∀ (s : State) (w : Width) (off : Nat), off < 0x28 →
    (w = .w32 ∧ off % 4 = 0 →
      (∃ p, hostRead s w (s.params.base + off) = .ok p) ∧
      (s.status.busy = false → ∀ v : Nat, v < 2 ^ 32 → ∃ t, hostWrite s w (s.params.base + off) v = .ok t)) ∧
    (¬ (w = .w32 ∧ off % 4 = 0) → noRead s w (s.params.base + off) ∧ noWrite s w (s.params.base + off))

/-- R52: a buffer access is an 8-bit read or write of one byte of `IBUF` or `OBUF`; wider ones are refused, and an
index of `BUF_BYTES` or more is outside the region, where an access is refused (R53). -/
def Obligations.BufferAccessesAreBytes : Prop :=
  ∀ (s : State) (w : Width) (region i : Nat), (region = 0x20000 ∨ region = 0x40000) → i < 0x20000 →
    (i < 65543 → w = .w8 →
      (∃ p, hostRead s w (s.params.base + region + i) = .ok p) ∧
      (region = 0x20000 → s.status.busy = false → ∀ v : Nat, v < 2 ^ 8 →
        ∃ t, hostWrite s w (s.params.base + region + i) v = .ok t ∧ t.readByte (region + i) = BitVec.ofNat 8 v ∧
          (∀ a, a ≠ region + i → t.readByte a = s.readByte a) ∧ t = { s with mem := t.mem })) ∧
    ((i < 65543 ∧ w ≠ .w8) ∨ 65543 ≤ i →
      noRead s w (s.params.base + region + i) ∧ noWrite s w (s.params.base + region + i))

/-- R53: an access of any width to an offset of the window that holds neither a register nor a buffer byte is
refused. -/
def Obligations.UnmappedOffsetsAreRefused : Prop :=
  ∀ (s : State) (w : Width) (off : Nat), 0x28 ≤ off → off < 0x80000 → ¬ (0x20000 ≤ off ∧ off < 0x20000 + 65543) →
    ¬ (0x40000 ≤ off ∧ off < 0x40000 + 65543) → noRead s w (s.params.base + off) ∧ noWrite s w (s.params.base + off)

/-- 20_memory.md section 1 with 10_state.md sections 2 and 3 (from R22 to R34, R54): what host reads and writes do while
no command runs, register by register, with reserved bits read as 0 and not stored; a write to `OBUF` is always
refused; a byte of `IBUF` or `OBUF` reads as it stands, and one of `IBUF` that has not been written since reset as a
draw of the model's free values (log 3); a value that does not fit the access is written as a draw of the free values
(log 14); and a byte of `IBUF` changes only by a host write to it or by reset. -/
def Obligations.HostAccessRights : Prop :=
  (∀ s : State, s.status.busy = false →
    let reads (off n : Nat) := hostRead s .w32 (s.params.base + off) = .ok (n, s)
    reads 0x00 0 ∧
    reads 0x04 (2 * s.status.done.toNat + 4 * s.status.err.toNat + 256 * (errcodeField s.status.errcode).toNat +
      65536 * (kindCode s.status.kind).toNat) ∧
    reads 0x08 s.ilen.toNat ∧ reads 0x0C s.olen.toNat ∧ reads 0x10 s.htid.toNat ∧ reads 0x14 s.hpid.toNat ∧
    reads 0x18 s.hlen.toNat ∧ reads 0x1C (s.hufc.uid.toNat + 256 * s.hufc.fc.toNat) ∧
    reads 0x20 (s.result.value.toNat + 65536 * s.result.valid.toNat) ∧
    reads 0x24 (match s.role with | .server => 0 | .client => 1) ∧
    (∀ i, i < 65543 → hostRead s .w8 (s.params.base + 0x40000 + i) = .ok ((s.obufByte i).toNat, s))) ∧
  (∀ (s : State) (v : Nat), s.status.busy = false → v < 2 ^ 32 →
    let w := BitVec.ofNat 32 v
    let writes (off : Nat) (t : State) := hostWrite s .w32 (s.params.base + off) v = .ok t
    (∀ r, r ∈ [Reg.status, .olen, .result, .config] → writes (regOffset r) s) ∧
    writes 0x08 { s with ilen := w.extractLsb' 0 17 } ∧ writes 0x10 { s with htid := w.extractLsb' 0 16 } ∧
    writes 0x14 { s with hpid := w.extractLsb' 0 16 } ∧ writes 0x18 { s with hlen := w.extractLsb' 0 16 } ∧
    writes 0x1C { s with hufc := { uid := w.extractLsb' 0 8, fc := w.extractLsb' 8 8 } }) ∧
  (∀ (s : State) (v : Int), s.status.busy = false →
    (v < 0 ∨ 2 ^ 32 ≤ v → ∀ r, ∃ t,
      hostWrite s .w32 (s.params.base + regOffset r) (Config.freeWord s.draws (regOffset r)).toNat = .ok t ∧
      hostWrite s .w32 (s.params.base + regOffset r) v = .ok { t with draws := s.draws + 1 }) ∧
    (v < 0 ∨ 2 ^ 8 ≤ v → ∀ i, i < 65543 → ∃ t,
      hostWrite s .w8 (s.params.base + 0x20000 + i)
        ((Config.freeWord s.draws (0x20000 + i)).extractLsb' 0 8).toNat = .ok t ∧
      hostWrite s .w8 (s.params.base + 0x20000 + i) v = .ok { t with draws := s.draws + 1 })) ∧
  (∀ (s : State) (i : Nat), noWrite s .w8 (s.params.base + 0x40000 + i)) ∧
  (∀ (s : State) (i : Nat), i < 65543 →
    hostRead s .w8 (s.params.base + 0x20000 + i) = .ok ((s.ibufByte i).toNat, s) ∧
    (memLookup s.mem (0x20000 + i) = none → s.ibufByte i = Config.freeByte s.ibufSeed (0x20000 + i))) ∧
  (∀ (s t : State) (i v : Nat), v < 2 ^ 8 → hostWrite s .w8 (s.params.base + 0x20000 + i) v = .ok t →
    t.ibufByte i = BitVec.ofNat 8 v) ∧
  (∀ (s t : State) (i : Nat), i < 65543 → step s = .next t → t.ibufByte i ≠ s.ibufByte i →
    (∃ k a x addr v, s.takeEvent.1 = some (.host k) ∧ s.hosts[k]? = some a ∧ a.prog[a.pc]? = some x ∧
      (x = .store .w8 addr v ∨ (∃ j, x = .wb j v ∧ addr = s.params.base + 0x20000 + j)) ∧
      addr = s.params.base + 0x20000 + i ∧
      (0 ≤ srcValue k a v → srcValue k a v < 2 ^ 8 → t.ibufByte i = BitVec.ofInt 8 (srcValue k a v))) ∨
    ∃ strap, s.events.head? = some (.reset strap))

/-- 20_memory.md section 1 (from R55): a read has no side effect (while a command runs it only uses up a draw of the
model's own counter), so two reads of one location while `BUSY = 0` give the same value; of the writes, only one to `CMD` touches `STATUS` or
starts a command. -/
def Obligations.OnlyACmdWriteHasASideEffect : Prop :=
  (∀ (s s' : State) (w : Width) (a v : Nat), hostRead s w a = .ok (v, s') →
    s' = { s with draws := s'.draws } ∧ (s.status.busy = false → s' = s ∧ hostRead s' w a = .ok (v, s'))) ∧
  (∀ (s s' : State) (w : Width) (a : Nat) (v : Int), hostWrite s w a v = .ok s' → a ≠ s.params.base →
    s'.status = s.status ∧ s'.inflight = s.inflight) ∧
  (∀ (s : State) (v : Nat), s.status.busy = false → v < 2 ^ 32 →
    hostWrite s .w32 s.params.base v = .ok (s.startCommand (BitVec.ofNat 32 v)))

/-- R60: while `BUSY = 1`, a host write to any register, `CMD` among them, or to `IBUF` is refused. -/
def Obligations.WritesWhileBusyAreRefused : Prop :=
  ∀ s : State, s.status.busy = true →
    (∀ r : Reg, noWrite s .w32 (s.params.base + regOffset r)) ∧
    (∀ i : Nat, noWrite s .w8 (s.params.base + 0x20000 + i))

/-- 20_memory.md section 3 (from R61): host reads while `BUSY = 1`: `STATUS` shows `BUSY` 1 and `DONE` 0, `IBUF` reads
the byte held, and any other register or `OBUF` byte reads a value that is a draw of the model's free values (log 4, log 7). -/
def Obligations.ReadsWhileBusy : Prop :=
  ∀ s : State, s.Inv → s.status.busy = true →
    (hostRead s .w32 (s.params.base + 0x04) = .ok ((s.readReg .status).toNat, s) ∧
      (s.readReg .status).getLsbD 0 = true ∧ (s.readReg .status).getLsbD 1 = false) ∧
    (∀ i, i < 65543 → hostRead s .w8 (s.params.base + 0x20000 + i) = .ok ((s.ibufByte i).toNat, s)) ∧
    (∀ r, r ≠ Reg.status → hostRead s .w32 (s.params.base + regOffset r) =
      .ok ((Config.freeWord s.draws (regOffset r)).toNat, { s with draws := s.draws + 1 })) ∧
    (∀ i, i < 65543 → hostRead s .w8 (s.params.base + 0x40000 + i) =
      .ok (((Config.freeWord s.draws (0x40000 + i)).extractLsb' 0 8).toNat, { s with draws := s.draws + 1 }))

/-- 20_memory.md section 3 (from R60 to R62): a host step taken while a command runs changes nothing of the block but
the model's own draw counter. -/
def Obligations.HostStepsWhileBusyLeaveTheBlockAlone : Prop :=
  ∀ (s t : State) (k : Nat), s.status.busy = true → hostStep k s = .next t →
    t = { s with hosts := t.hosts, draws := t.draws }

/-- 30_encoding.md section 4 with 60_exceptions.md section 2 (from R87, R210): what the access lines of a host program
do: the access, and on to the next line with the value read in the variable; or, where the access is refused, no step.
A variable that nothing has set holds a free value (log 14). -/
def Obligations.HostLinesPerformTheirAccess : Prop :=
  ∀ (s : State) (k : Nat) (a : HostAgent) (x : HostAction), s.hosts[k]? = some a → a.prog[a.pc]? = some x →
    (∀ w addr v, (x = .load w addr v ∨ (∃ r, x = .rd r v ∧ w = .w32 ∧ addr = s.params.base + regOffset r) ∨
        (∃ i, x = .rb i v ∧ w = .w8 ∧ addr = s.params.base + 0x40000 + i)) →
      (∀ n t, hostRead s w addr = .ok (n, t) → ∃ b : HostAgent, varGet b.vars v = some (Int.ofNat n) ∧
        (∀ u, u ≠ v → varGet b.vars u = varGet a.vars u) ∧ b.prog = a.prog ∧ b.pc = a.pc + 1 ∧
        hostStep k s = .next { t with hosts := s.hosts.set k b }) ∧
      (∀ e, hostRead s w addr = .error e → hostStep k s = .refused e)) ∧
    (∀ w addr v (n : Int), (x = .store w addr v ∨ (∃ r, x = .wr r v ∧ w = .w32 ∧ addr = s.params.base + regOffset r) ∨
        (∃ i, x = .wb i v ∧ w = .w8 ∧ addr = s.params.base + 0x20000 + i)) →
      ((∃ m : Nat, v = .imm m ∧ n = m) ∨ ∃ y, v = .var y ∧
        (varGet a.vars y = some n ∨ (varGet a.vars y = none ∧ n = Config.freeVar k y))) →
      (∀ t, hostWrite s w addr n = .ok t →
        hostStep k s = .next { t with hosts := s.hosts.set k { a with pc := a.pc + 1 } }) ∧
      (∀ e, hostWrite s w addr n = .error e → hostStep k s = .refused e))

/-- 30_encoding.md section 4 (from R88): `LOADIN`, run by an agent while no command runs, fills `IBUF` and `ILEN` and
changes nothing else of the block. -/
def Obligations.LoadinFillsTheInput : Prop :=
  ∀ (s : State) (k : Nat) (a : HostAgent) (bs : List Byte) (pre post : List HostAction), s.status.busy = false →
    s.hosts[k]? = some a → a.prog = pre ++ loadinLines bs ++ post → a.pc = pre.length → bs.length ≤ 65543 →
    ∃ t, afterHost k (bs.length + 1) s = some t ∧ t.ilen.toNat = bs.length ∧
      (∀ i, i < bs.length → t.ibufByte i = bs.getD i 0) ∧
      (∀ x, x < 0x20000 ∨ 0x20000 + bs.length ≤ x → t.readByte x = s.readByte x) ∧
      t = { s with mem := t.mem, ilen := t.ilen,
                   hosts := s.hosts.set k { a with pc := pre.length + (loadinLines bs).length } }

/-- 30_encoding.md section 4 (from R88): `POLL` goes round while `BUSY = 1` and leaves its loop when `BUSY = 0`; it
changes nothing of the block. -/
def Obligations.PollWaitsForTheBlock : Prop :=
  ∀ (s : State) (k p v : Nat) (a : HostAgent) (pre post : List HostAction), s.hosts[k]? = some a →
    a.prog = pre ++ pollLines p v ++ post → .label p ∉ pre → a.pc = pre.length →
    ∃ t b, afterHost k 3 s = some t ∧ t = { s with hosts := s.hosts.set k b } ∧ b.prog = a.prog ∧
      varGet b.vars v = some (Int.ofNat (s.readReg .status).toNat) ∧
      b.pc = if s.status.busy then pre.length else pre.length + 3

/-- 30_encoding.md section 4 (from R87): what the lines of a host program that touch no register do: the program goes
on, branches, sets a variable to its expression or ends, and the block is as before. `t & mask` of a negative `t`, and
a variable that nothing has set, are free values (log 14). -/
def Obligations.HostControlLines : Prop :=
  ∀ (s : State) (k : Nat) (a : HostAgent) (x : HostAction), s.hosts[k]? = some a → a.prog[a.pc]? = some x →
    (∀ l, x = .label l → hostStep k s = .next { s with hosts := s.hosts.set k { a with pc := a.pc + 1 } }) ∧
    (x = .halt → ∃ b : HostAgent, b.ended = true ∧ hostStep k s = .next { s with hosts := s.hosts.set k b }) ∧
    (∀ l, x = .jmp l → .label l ∈ a.prog → ∃ b : HostAgent, b.prog[b.pc]? = some (.label l) ∧ b.prog = a.prog ∧
      b.vars = a.vars ∧ hostStep k s = .next { s with hosts := s.hosts.set k b }) ∧
    (∀ v mask l n, x = .bnz v mask l → varGet a.vars v = some (Int.ofNat n) → n &&& mask = 0 →
      hostStep k s = .next { s with hosts := s.hosts.set k { a with pc := a.pc + 1 } }) ∧
    (∀ v mask l n, x = .bnz v mask l → varGet a.vars v = some (Int.ofNat n) → n &&& mask ≠ 0 → .label l ∈ a.prog →
      ∃ b : HostAgent, b.prog[b.pc]? = some (.label l) ∧ b.prog = a.prog ∧ b.vars = a.vars ∧
        hostStep k s = .next { s with hosts := s.hosts.set k b }) ∧
    (∀ v mask l z, x = .bnz v mask l → varGet a.vars v = some z → z < 0 → .label l ∈ a.prog →
      ∃ b : HostAgent, b.prog = a.prog ∧ b.vars = a.vars ∧
        (if Config.freeMasked s.draws = 0 then b.pc = a.pc + 1 else b.prog[b.pc]? = some (.label l)) ∧
        hostStep k s = .next { s with draws := s.draws + 1, hosts := s.hosts.set k b }) ∧
    (∀ v e, x = .mov v e → ∃ b : HostAgent, varGet b.vars v = some (exprValue k a e) ∧
      (∀ u, u ≠ v → varGet b.vars u = varGet a.vars u) ∧ b.prog = a.prog ∧ b.pc = a.pc + 1 ∧
      hostStep k s = .next { s with hosts := s.hosts.set k b }) ∧
    (let value := exprValue k a
     (∀ n, value (.lit n) = n) ∧ (∀ y z, varGet a.vars y = some z → value (.var y) = z) ∧
     (∀ y, varGet a.vars y = none → value (.var y) = Config.freeVar k y) ∧
     ∀ e f, value (.add e f) = value e + value f ∧ value (.sub e f) = value e - value f ∧
       value (.mul e f) = value e * value f)

/-! ## Invariants and whole-machine rules -/

/-- 10_state.md sections 2 and 3 (from R23, R33, R34, R39 and R90): every step, of the block, of a host or of reset,
keeps the invariant. -/
def Obligations.StepKeepsTheInvariant : Prop :=
  ∀ s t : State, s.Inv → step s = .next t → t.Inv

/-- The state after reset has the invariant, for either strap value and every value of the parameters. -/
def Obligations.ResetHasTheInvariant : Prop :=
  State.reset.Inv ∧ ∀ (strap : Role) (p : Params), (State.resetWith strap p).Inv

/-- 10_state.md rule R23's two whole-machine sentences: in a state with the invariant, `BUSY` and `DONE` are never both
1, and `ERR` equals (`ERRCODE` ≠ 0), read from the bits of `STATUS`. -/
def Obligations.StatusBitsAgree : Prop :=
  ∀ s : State, s.Inv →
    ¬ ((s.readReg .status).getLsbD 0 = true ∧ (s.readReg .status).getLsbD 1 = true) ∧
    ((s.readReg .status).getLsbD 2 = true ↔ (s.readReg .status).extractLsb' 8 8 ≠ 0)

/-- 20_memory.md section 1 with the model's memory form (log 3): two canonical memories with the same known bytes are
the same list. -/
def Obligations.CanonicalMemoriesAreEqual : Prop :=
  ∀ m m' : List Host.Cell, Memory.wf m = true → Memory.wf m' = true → (∀ a, memLookup m a = memLookup m' a) → m = m'

/-- 10_state.md section 2 (from R31) and 00_scope.md section 3: `CONFIG.ROLE` changes only by reset, which samples the
strap, and no step changes `TID_FIRST` or `BASE`. -/
def Obligations.RoleChangesOnlyByReset : Prop :=
  ∀ s t : State, step s = .next t → t.params = s.params ∧
    (t.role = s.role ∨ ∃ strap, s.events.head? = some (.reset strap) ∧ t.role = strap)

/-- 10_state.md section 4 and 44_tid.md section 3: an entry of `TX_LAST` changes only by `TIDNEXT` for its function
code, by `TIDCLR` or by reset, and an entry of `RX_LAST` only by `TIDOBS` for its function code, by `TIDCLR` or by
reset. -/
def Obligations.TablesChangeOnlyByTheirCommands : Prop :=
  ∀ (s t : State) (fc : Fc), step s = .next t →
    let runs (i : Instr) := ∃ w, s.BlockNext w ∧ decodeWord w = .ok i
    let resets := ∃ strap, s.events.head? = some (.reset strap)
    (tidGet t.txLast fc ≠ tidGet s.txLast fc → runs (.tidnext (fcByte fc)) ∨ runs .tidclr ∨ resets) ∧
    (tidGet t.rxLast fc ≠ tidGet s.rxLast fc → runs (.tidobs (fcByte fc)) ∨ runs .tidclr ∨ resets)

/-- 70_reset_and_hazards.md section 1 (from R230, R231): whatever the state and whatever runs, a reset event leaves the
reset values, with the role of the strap; the parameters, the host agents and the remaining events are not the
block's. -/
def Obligations.ResetEventLeavesResetValues : Prop :=
  ∀ (s : State) (strap : Role) (es : List Event), s.events = .reset strap :: es →
    ∃ t, step s = .next t ∧ t.readReg .status = 0 ∧ t.readReg .cmd = 0 ∧ t.readReg .ilen = 0 ∧ t.readReg .olen = 0 ∧
      t.readReg .htid = 0 ∧ t.readReg .hpid = 0 ∧ t.readReg .hlen = 0 ∧ t.readReg .hufc = 0 ∧
      t.readReg .result = 0 ∧ t.readReg .config = (match strap with | .server => 0 | .client => 1) ∧
      (∀ fc, tidGet t.txLast fc = none ∧ tidGet t.rxLast fc = none) ∧ t.inflight = none ∧ t.mem = [] ∧
      t.params = s.params ∧ t.hosts = s.hosts ∧ t.events = es

/-! ## Errors -/

/-- R205 and R206: the error a command reports is the first in its row's order, `E_BADCMD` before all, and it ends
without an error when no check holds. -/
def Obligations.FirstErrorOfThePrecedence : Prop :=
  ∀ (w : Word) (s : State), s.Running → ∃ t, runCommand w s = .next t ∧
    (∀ e, decodeWord w = .error e → t.status.errcode = some .badCmd) ∧
    (∀ i, decodeWord w = .ok i → t.status.errcode = firstOf (checks i s)) ∧
    t.status.err = t.status.errcode.isSome

/-- R202: error entry, for every command, every error and its cause: the command ends at once and `STATUS` takes its
five values, the code of the error as R200 gives it. There is no vector, mode, pc or stack for it to write, and no later line of the body runs: after
`E_BADCMD` and `E_ILEN` every other field is as before, after an error in a body every byte of `IBUF`, every register
that the command does not list as an output (R203), and every field of the machine that is no register. -/
def Obligations.ErrorEntryWritesStatus : Prop :=
  ∀ (w : Word) (s : State) (e : Err), s.Running →
    ((∃ d, decodeWord w = .error d) ∧ e = .badCmd ∨ ∃ i, decodeWord w = .ok i ∧ firstOf (checks i s) = some e) →
    ∃ t, runCommand w s = .next t ∧ EndsInError t e ∧
      (e, t.readReg .status) ∈ [(Err.badCmd, 0x00000106#32), (.ilen, 0x00000206), (.short, 0x00000306),
        (.fcUnknown, 0x00000406), (.length, 0x00000506), (.crc, 0x00000606), (.noDecoder, 0x00000706),
        (.tooLong, 0x00000806)] ∧
      sameIbuf s t ∧
      (e = .badCmd ∨ e = .ilen → t = { s with status := t.status, inflight := none }) ∧
      (∀ i, decodeWord w = .ok i → ∀ o, o ∉ listed i → sameOut s t o) ∧
      t = { s with status := t.status, olen := t.olen, htid := t.htid, hpid := t.hpid, hlen := t.hlen, hufc := t.hufc,
                   result := t.result, mem := t.mem, inflight := none, obufSeed := t.obufSeed, draws := t.draws }

/-- R203: the state after an error. (a) The tables, `ILEN`, `IBUF` and `CONFIG` are unchanged. (b) After `E_BADCMD` or
`E_ILEN` everything but `STATUS` is. (c) After an error in a body, everything is but what the command's rule lists. -/
def Obligations.StateAfterAnError : Prop :=
  ∀ (w : Word) (s t : State) (e : Err), s.Running → runCommand w s = .next t → t.status.errcode = some e →
    (t.txLast = s.txLast ∧ t.rxLast = s.rxLast ∧ t.ilen = s.ilen ∧ t.role = s.role ∧ sameIbuf s t) ∧
    (e = .badCmd ∨ e = .ilen → t = { s with status := t.status, inflight := none }) ∧
    (∀ i, decodeWord w = .ok i → (∀ o, o ∉ listed i → sameOut s t o) ∧
      t = { s with status := t.status, olen := t.olen, htid := t.htid, hpid := t.hpid, hlen := t.hlen, hufc := t.hufc,
                   result := t.result, mem := t.mem, inflight := none, obufSeed := t.obufSeed, draws := t.draws })

/-- 60_exceptions.md section 2 (from R203) with log 4: what a failing body leaves in the outputs its command lists is a
fresh draw of the model's free values, one for each error. -/
def Obligations.UnspecifiedOutputsAreFreshDraws : Prop :=
  ∀ (i : Instr) (s t : State) (e : Err), s.Running → exec i s = .next t → t.status.errcode = some e → e ≠ .ilen →
    (∀ o ∈ listed i, holdsDraw s.draws t o) ∧ (listed i ≠ [] → t.draws = s.draws + 1)

/-- R208: no nesting and no stuck state. While a command runs, another cannot start; every command, whatever its word
and however it ends, leaves the block idle and able to accept the next command, and no bit of the error survives the
start of that one. -/
def Obligations.BlockIsReadyAfterEveryCommand : Prop :=
  (∀ s : State, s.status.busy = true → noWrite s .w32 (s.params.base + 0x00)) ∧
  ∀ (w : Word) (s : State), ∃ t, runCommand w s = .next t ∧ t.status.busy = false ∧ t.status.done = true ∧
    t.inflight = none ∧
    ∀ w' : Word, ∃ u, hostWrite t .w32 (t.params.base + 0x00) w'.toNat = .ok u ∧ u.readReg .status = 0x00000001 ∧
      u = { t with status := u.status, inflight := some w' }

/-- R207: an error stays in `STATUS`, where reading it changes nothing, until the next `CMD` write (or reset), which
clears `ERR`, `ERRCODE`, `DONE` and `KIND` and starts a command that, whenever the block moves, runs as its word
says. -/
def Obligations.NextCmdWriteClearsTheError : Prop :=
  ∀ s : State, s.Inv → s.status.err = true →
    hostRead s .w32 (s.params.base + 0x04) = .ok ((s.readReg .status).toNat, s) ∧
    (∀ t, step s = .next t → t.status = s.status ∨
      (t.readReg .status = 0x00000001 ∧ ∃ k x v, s.takeEvent.1 = some (.host k) ∧ atLine s k x ∧
        (x = .wr .cmd v ∨ x = .store .w32 s.params.base v)) ∨
      ∃ strap, s.events.head? = some (.reset strap)) ∧
    ∀ w : Word, ∃ t, hostWrite s .w32 (s.params.base + 0x00) w.toNat = .ok t ∧ t.readReg .status = 0x00000001 ∧
      t = { s with status := t.status, inflight := some w } ∧
      ∀ es, State.BlockNext { t with events := es } w →
        step { t with events := es } = runCommand w (State.takeEvent { t with events := es }).2

/-! ## Commands -/

/-- R104: `XOR`. -/
def Obligations.XorCiphersTheInput : Prop :=
  WordsOf 0x01 (· = 0x00000001) (fun _ => exec .xor) ∧
  ∀ s : State,
    (65543 < s.ilen.toNat → exec .xor s = .next (s.endError .ilen)) ∧
    (s.ilen.toNat ≤ 65543 → ∃ t, exec .xor s = .next t ∧ EndsOk s t ∧ t.olen = s.ilen ∧
      (∀ i, i < s.ilen.toNat → t.obufByte i = s.ibufByte i ^^^ keyByte i) ∧
      (∀ a, a < obufBase ∨ obufBase + s.ilen.toNat ≤ a → t.readByte a = s.readByte a) ∧
      t = { s with mem := t.mem, olen := t.olen, status := t.status, inflight := t.inflight })

/-- R116: `CRC`. -/
def Obligations.CrcReportsValueAndTrailer : Prop :=
  WordsOf 0x02 (· = 0x00000002) (fun _ => exec .crc) ∧
  ∀ s : State,
    (65543 < s.ilen.toNat → exec .crc s = .next (s.endError .ilen)) ∧
    (s.ilen.toNat ≤ 65543 → ∃ t, exec .crc s = .next t ∧ EndsOk s t ∧
      t.result = { value := swap16 (crc16 s.inputBytes), valid := false } ∧ t.olen = 2 ∧
      t.obufByte 0 = hiByte (crc16 s.inputBytes) ∧ t.obufByte 1 = loByte (crc16 s.inputBytes) ∧
      (∀ a, a < obufBase ∨ obufBase + 2 ≤ a → t.readByte a = s.readByte a) ∧
      t = { s with mem := t.mem, olen := t.olen, result := t.result, status := t.status, inflight := t.inflight })

/-- 41_crc.md section 2 (from R117): `CRCCHK`. -/
def Obligations.CrcchkComparesTheTrailer : Prop :=
  WordsOf 0x03 (· = 0x00000003) (fun _ => exec .crcchk) ∧
  ∀ s : State,
    let n := s.ilen.toNat
    let fails (e : Err) := ∃ t, exec .crcchk s = .next t ∧ EndsInError t e ∧
      t = { s with result := t.result, draws := t.draws, status := t.status, inflight := t.inflight }
    (65543 < n → exec .crcchk s = .next (s.endError .ilen)) ∧
    (n < 2 → fails .short) ∧
    (2 ≤ n → n ≤ 65543 → trailerWrong s n → fails .crc) ∧
    (2 ≤ n → n ≤ 65543 → ¬ trailerWrong s n → ∃ t, exec .crcchk s = .next t ∧ EndsOk s t ∧
      t.result = { value := swap16 (crc16 (s.inputBytes.take (n - 2))), valid := false } ∧
      t = { s with result := t.result, status := t.status, inflight := t.inflight })

/-- R132: `HDEC`. -/
def Obligations.HdecWritesTheHeaderRegisters : Prop :=
  WordsOf 0x04 (· = 0x00000004) (fun _ => exec .hdec) ∧
  ∀ s : State,
    let n := s.ilen.toNat
    let fails (e : Err) := ∃ t, exec .hdec s = .next t ∧ EndsInError t e ∧
      t = { s with htid := t.htid, hpid := t.hpid, hlen := t.hlen, hufc := t.hufc, draws := t.draws,
                   status := t.status, inflight := t.inflight }
    (65543 < n → exec .hdec s = .next (s.endError .ilen)) ∧
    (n < 8 → fails .short) ∧
    (8 ≤ n → n ≤ 65543 → s.ibufByte 7 ∉ fcset → fails .fcUnknown) ∧
    (8 ≤ n → n ≤ 65543 → s.ibufByte 7 ∈ fcset → ∃ t, exec .hdec s = .next t ∧ EndsOk s t ∧
      t = { s with htid := s.ibufByte 0 ++ s.ibufByte 1, hpid := s.ibufByte 2 ++ s.ibufByte 3,
                   hlen := s.ibufByte 4 ++ s.ibufByte 5, hufc := { uid := s.ibufByte 6, fc := s.ibufByte 7 },
                   status := t.status, inflight := t.inflight })

/-- R133: `HENC`. -/
def Obligations.HencWritesTheHeaderBytes : Prop :=
  WordsOf 0x05 (· = 0x00000005) (fun _ => exec .henc) ∧
  ∀ s : State,
    (s.hufc.fc ∉ fcset → ∃ t, exec .henc s = .next t ∧ EndsInError t .fcUnknown ∧ sameIbuf s t ∧
      t = { s with mem := t.mem, obufSeed := t.obufSeed, olen := t.olen, draws := t.draws, status := t.status,
                   inflight := t.inflight }) ∧
    (s.hufc.fc ∈ fcset → ∃ t, exec .henc s = .next t ∧ EndsOk s t ∧ t.olen = 8 ∧
      (∀ i, i < 8 → t.obufByte i = [hiByte s.htid, loByte s.htid, hiByte s.hpid, loByte s.hpid, hiByte s.hlen,
        loByte s.hlen, s.hufc.uid, s.hufc.fc].getD i 0) ∧
      (∀ a, a < obufBase ∨ obufBase + 8 ≤ a → t.readByte a = s.readByte a) ∧
      t = { s with mem := t.mem, olen := t.olen, status := t.status, inflight := t.inflight })

/-- R134: `PLEN`. -/
def Obligations.PlenReportsTheLengthField : Prop :=
  WordsOf 0x06 (· = 0x00000006) (fun _ => exec .plen) ∧
  ∀ s : State,
    let n := s.ilen.toNat
    (65543 < n → exec .plen s = .next (s.endError .ilen)) ∧
    (n < 8 → ∃ t, exec .plen s = .next t ∧ EndsInError t .short ∧
      t = { s with result := t.result, draws := t.draws, status := t.status, inflight := t.inflight }) ∧
    (8 ≤ n → n ≤ 65543 → ∃ t, exec .plen s = .next t ∧ EndsOk s t ∧
      t = { s with result := { value := s.ibufByte 4 ++ s.ibufByte 5, valid := false }, status := t.status,
                   inflight := t.inflight })

/-- R155: `DISP`. -/
def Obligations.DispReportsTheKind : Prop :=
  WordsOf 0x07 (fun w => w &&& 0xFFFF00FF = 0x00000007) (fun w => exec (.disp (w.extractLsb' 8 8))) ∧
  ∀ s : State,
    (∀ b, b ∉ fcset → exec (.disp b) s = .next (s.endError .fcUnknown)) ∧
    (∀ fc, tableKind s.role fc = none → exec (.disp (fcByte fc)) s = .next (s.endError .noDecoder)) ∧
    (∀ fc k, tableKind s.role fc = some k → ∃ t, exec (.disp (fcByte fc)) s = .next t ∧ EndsWithKind s t k ∧
      t = { s with status := t.status, inflight := t.inflight })

/-- R157: `FENC`. -/
def Obligations.FencWritesTheFrame : Prop :=
  WordsOf 0x08 (· = 0x00000008) (fun _ => exec .fenc) ∧
  ∀ s : State,
    let n := s.ilen.toNat
    let fails (e : Err) := ∃ t, exec .fenc s = .next t ∧ EndsInError t e ∧ sameIbuf s t ∧
      t = { s with mem := t.mem, obufSeed := t.obufSeed, olen := t.olen, hlen := t.hlen, result := t.result,
                   draws := t.draws, status := t.status, inflight := t.inflight }
    (65543 < n → exec .fenc s = .next (s.endError .ilen)) ∧
    (n ≤ 65543 → s.hufc.fc ∉ fcset → fails .fcUnknown) ∧
    (65533 < n → n ≤ 65543 → s.hufc.fc ∈ fcset → fails .tooLong) ∧
    (n ≤ 65533 → s.hufc.fc ∈ fcset → ∃ t, exec .fenc s = .next t ∧ EndsOk s t ∧ t.olen.toNat = n + 10 ∧
      t.hlen.toNat = n + 2 ∧
      (∀ i, i < 8 → t.obufByte i = [hiByte s.htid, loByte s.htid, hiByte s.hpid, loByte s.hpid, hiByte t.hlen,
        loByte t.hlen, s.hufc.uid, s.hufc.fc].getD i 0) ∧
      (∀ i, i < n → t.obufByte (8 + i) = s.ibufByte i ^^^ keyByte i) ∧
      (let r := crc16 ((List.range (n + 8)).map t.obufByte)
       t.obufByte (n + 8) = hiByte r ∧ t.obufByte (n + 9) = loByte r ∧
       t.result = { value := swap16 r, valid := false }) ∧
      (∀ a, a < obufBase ∨ obufBase + (n + 10) ≤ a → t.readByte a = s.readByte a) ∧
      t = { s with mem := t.mem, olen := t.olen, hlen := t.hlen, result := t.result, status := t.status,
                   inflight := t.inflight })

/-- R159: `FDEC`. Its checks and their order are `checks .fdec` (R158, R206). -/
def Obligations.FdecDecodesTheFrame : Prop :=
  WordsOf 0x09 (· = 0x00000009) (fun _ => exec .fdec) ∧
  ∀ s : State,
    let n := s.ilen.toNat
    (65543 < n → exec .fdec s = .next (s.endError .ilen)) ∧
    (∀ e, n ≤ 65543 → firstOf (checks .fdec s) = some e → ∃ t, exec .fdec s = .next t ∧ EndsInError t e ∧
      sameIbuf s t ∧
      t = { s with htid := t.htid, hpid := t.hpid, hlen := t.hlen, hufc := t.hufc, mem := t.mem,
                   obufSeed := t.obufSeed, olen := t.olen, result := t.result, draws := t.draws, status := t.status,
                   inflight := t.inflight }) ∧
    (firstOf (checks .fdec s) = none → ∃ t fc k, exec .fdec s = .next t ∧ fcByte fc = s.ibufByte 7 ∧
      tableKind s.role fc = some k ∧ EndsWithKind s t k ∧ t.olen.toNat + 10 = n ∧
      (∀ i, i + 10 < n → t.obufByte i = s.ibufByte (8 + i) ^^^ keyByte i) ∧
      (∀ a, a < obufBase ∨ obufBase + (n - 10) ≤ a → t.readByte a = s.readByte a) ∧
      t.result = { value := swap16 (crc16 (s.inputBytes.take (n - 2))), valid := false } ∧
      t = { s with htid := s.ibufByte 0 ++ s.ibufByte 1, hpid := s.ibufByte 2 ++ s.ibufByte 3,
                   hlen := s.ibufByte 4 ++ s.ibufByte 5, hufc := { uid := s.ibufByte 6, fc := s.ibufByte 7 },
                   mem := t.mem, olen := t.olen, result := t.result, status := t.status, inflight := t.inflight })

/-- R181 and R182: `TIDNEXT`. -/
def Obligations.TidnextAssignsTheNextId : Prop :=
  State.reset.params.tidFirst = 1 ∧
  WordsOf 0x0A (fun w => w &&& 0xFFFF00FF = 0x0000000A) (fun w => exec (.tidnext (w.extractLsb' 8 8))) ∧
  ∀ s : State,
    (∀ b, b ∉ fcset → ∃ t, exec (.tidnext b) s = .next t ∧ EndsInError t .fcUnknown ∧
      t = { s with result := t.result, htid := t.htid, hufc := t.hufc, draws := t.draws, status := t.status,
                   inflight := t.inflight }) ∧
    (∀ fc v, (tidGet s.txLast fc = none ∧ v = s.params.tidFirst) ∨
        (∃ last, tidGet s.txLast fc = some last ∧ v.toNat = (last.toNat + 1) % 65536) →
      ∃ t, exec (.tidnext (fcByte fc)) s = .next t ∧ EndsOk s t ∧ tidGet t.txLast fc = some v ∧
        (∀ fc', fc' ≠ fc → tidGet t.txLast fc' = tidGet s.txLast fc') ∧
        t = { s with txLast := t.txLast, result := { value := v, valid := true }, htid := v,
                     hufc := { uid := s.hufc.uid, fc := fcByte fc }, status := t.status, inflight := t.inflight })

/-- R183: `TIDOBS`. -/
def Obligations.TidobsRecordsTheReceivedId : Prop :=
  WordsOf 0x0B (fun w => w &&& 0xFFFF00FF = 0x0000000B) (fun w => exec (.tidobs (w.extractLsb' 8 8))) ∧
  ∀ s : State,
    (∀ b, b ∉ fcset → exec (.tidobs b) s = .next (s.endError .fcUnknown)) ∧
    (∀ fc, ∃ t, exec (.tidobs (fcByte fc)) s = .next t ∧ EndsOk s t ∧ tidGet t.rxLast fc = some s.htid ∧
      (∀ fc', fc' ≠ fc → tidGet t.rxLast fc' = tidGet s.rxLast fc') ∧
      t = { s with rxLast := t.rxLast, status := t.status, inflight := t.inflight })

/-- R184: `TIDRD`. -/
def Obligations.TidrdReportsAnEntry : Prop :=
  WordsOf 0x0C (fun w => w &&& 0xFFFE00FF = 0x0000000C)
    (fun w => exec (.tidrd (w.extractLsb' 8 8) (w.extractLsb' 16 1))) ∧
  ∀ (s : State) (tsel : BitVec 1),
    (∀ b, b ∉ fcset → ∃ t, exec (.tidrd b tsel) s = .next t ∧ EndsInError t .fcUnknown ∧
      t = { s with result := t.result, draws := t.draws, status := t.status, inflight := t.inflight }) ∧
    (∀ fc, ∃ t, exec (.tidrd (fcByte fc) tsel) s = .next t ∧ EndsOk s t ∧
      (let e := if tsel = 0 then tidGet s.txLast fc else tidGet s.rxLast fc
       t.result = match e with
         | none => { value := 0, valid := false }
         | some v => { value := v, valid := true }) ∧
      t = { s with result := t.result, status := t.status, inflight := t.inflight })

/-- R185: `TIDCLR`. -/
def Obligations.TidclrEmptiesBothTables : Prop :=
  WordsOf 0x0D (· = 0x0000000D) (fun _ => exec .tidclr) ∧
  ∀ s : State, ∃ t, exec .tidclr s = .next t ∧ EndsOk s t ∧
    (∀ fc, tidGet t.txLast fc = none ∧ tidGet t.rxLast fc = none) ∧
    t = { s with txLast := t.txLast, rxLast := t.rxLast, status := t.status, inflight := t.inflight }

/-- R152: the server dispatch table. In a SERVER block each of the nine codes dispatches to the row's message kind. -/
def Obligations.ServerRowsGiveTheirKinds : Prop :=
  ∀ s : State, s.role = .server → ∀ row ∈
      [(0x03#8, 1#8), (0x04, 2), (0x50, 3), (0x16, 4), (0x19, 7), (0x18, 9), (0x05, 10), (0x06, 11), (0x10, 12)],
    ∃ t k, exec (.disp row.1) s = .next t ∧ kindCode k = row.2 ∧ EndsWithKind s t k ∧
      t = { s with status := t.status, inflight := t.inflight }

/-- R153: the client dispatch table. In a CLIENT block six codes dispatch to their kind, and three have no decoder and
fail with `E_NO_DECODER`. -/
def Obligations.ClientRowsGiveTheirKinds : Prop :=
  ∀ s : State, s.role = .client →
    (∀ row ∈ [(0x03#8, 5#8), (0x04, 5), (0x50, 5), (0x16, 4), (0x19, 6), (0x18, 8)],
      ∃ t k, exec (.disp row.1) s = .next t ∧ kindCode k = row.2 ∧ EndsWithKind s t k ∧
        t = { s with status := t.status, inflight := t.inflight }) ∧
    (∀ b ∈ [0x05#8, 0x06, 0x10], ∃ t, exec (.disp b) s = .next t ∧ EndsInError t .noDecoder ∧
      t = { s with status := t.status, inflight := t.inflight })

/-- 43_frame.md section 1 with log 10, which makes each function-code row an instruction of its own: in a block of the
row's role each of the eighteen rows completes with the row's own effect, which for three client rows is
`E_NO_DECODER`. -/
def Obligations.FunctionCodeRowsComplete : Prop :=
  (∀ s : State, s.role = .server → ∀ row ∈
      [(Instr.fcAnnounceServer, 1#8), (.fcDataServer, 2), (.fcBufferedDataServer, 3), (.fcPingServer, 4),
       (.fcGetConfigServer, 7), (.fcSetConfigServer, 9), (.fcReadRegistersServer, 10), (.fcWriteSingleServer, 11),
       (.fcWriteMultipleServer, 12)],
    ∃ t k, exec row.1 s = .next t ∧ kindCode k = row.2 ∧ EndsWithKind s t k ∧
      t = { s with status := t.status, inflight := t.inflight }) ∧
  (∀ s : State, s.role = .client → ∀ row ∈
      [(Instr.fcAnnounceClient, 5#8), (.fcDataClient, 5), (.fcBufferedDataClient, 5), (.fcPingClient, 4),
       (.fcGetConfigClient, 6), (.fcSetConfigClient, 8)],
    ∃ t k, exec row.1 s = .next t ∧ kindCode k = row.2 ∧ EndsWithKind s t k ∧
      t = { s with status := t.status, inflight := t.inflight }) ∧
  (∀ s : State, s.role = .client → ∀ i ∈
      [Instr.fcReadRegistersClient, .fcWriteSingleClient, .fcWriteMultipleClient],
    ∃ t, exec i s = .next t ∧ EndsInError t .noDecoder ∧ t = { s with status := t.status, inflight := t.inflight })

/-- 43_frame.md section 1 with log 10: in a block of either role, a function-code row does what `DISP` of its byte
does. -/
def Obligations.FunctionCodeRowRunsAsDisp : Prop :=
  ∀ (i : Instr) (r : Role) (b : Byte), encodeFrameByte i = some (r, b) → ∀ s : State, exec i s = exec (.disp b) s

/-! ## Frames -/

/-- The commands that store to `OBUF` (frames of R104, R116, R133, R157, R159): on success the stored bytes are
`OBUF[0..OLEN)` and every other byte of the window reads as before; after an error every byte outside `OBUF` does. The
tables, `ILEN`, `CONFIG`, the host agents and the events are unchanged. -/
def Obligations.OutputCommandsFrame : Prop :=
  ∀ (i : Instr) (s t : State), i ∈ [Instr.xor, .crc, .henc, .fenc, .fdec] → exec i s = .next t → s.Running →
    (t.status.err = false → ∀ a, a < obufBase ∨ obufBase + t.olen.toNat ≤ a → t.readByte a = s.readByte a) ∧
    sameIbuf s t ∧
    t = { s with mem := t.mem, obufSeed := t.obufSeed, draws := t.draws, status := t.status, inflight := t.inflight,
                 olen := t.olen, htid := t.htid, hpid := t.hpid, hlen := t.hlen, hufc := t.hufc, result := t.result }

/-- The instructions that store no byte (frames of R117, R132, R134, R155, R182 to R185 and of the function-code rows):
however they end, every byte of the window reads as before, and `ILEN`, `OLEN`, `CONFIG`, the host agents and the
events are unchanged. -/
def Obligations.RegisterCommandsStoreNothing : Prop :=
  ∀ (i : Instr) (s t : State), i ∉ [Instr.xor, .crc, .henc, .fenc, .fdec] → exec i s = .next t →
    (∀ a, t.readByte a = s.readByte a) ∧
    t = { s with draws := t.draws, status := t.status, inflight := t.inflight, htid := t.htid, hpid := t.hpid,
                 hlen := t.hlen, hufc := t.hufc, result := t.result, txLast := t.txLast, rxLast := t.rxLast }

/-! ## The functions of the codec -/

/-- R101: the keystream function, with the key's bytes written out. -/
def Obligations.KeystreamIsTheRepeatedKey : Prop :=
  ∀ b : List Byte, (xorKey b).length = b.length ∧
    ∀ i (h : i < b.length), (xorKey b)[i]? =
      some (b[i] ^^^ ([0x47, 0x72, 0x6F, 0x77, 0x61, 0x74, 0x74] : List Byte).getD (i % 7) 0)

/-- 40_cipher.md section 1 (the derived law R103): the cipher is its own inverse, and it respects concatenation after a
whole number of keys. -/
def Obligations.CipherIsAnInvolution : Prop :=
  (∀ b : List Byte, xorKey (xorKey b) = b) ∧
  (∀ b c : List Byte, b.length % 7 = 0 → xorKey (b ++ c) = xorKey b ++ xorKey c)

/-- 41_crc.md section 1 (from R110 to R113): the CRC register starts at 0xFFFF and takes one byte in eight shifts with
the polynomial 0xA001; the trailer is the register's high byte, then its low byte, which is the CRC value
little-endian, and the two bytes read back as value and register. -/
def Obligations.TrailerIsHighByteFirst : Prop :=
  (crc16 [] = 0xFFFF ∧ ∀ (p : List Byte) (b : Byte), crc16 (p ++ [b]) =
    (fun r : Half => if r.getLsbD 0 = true then (r >>> 1) ^^^ 0xA001 else r >>> 1)^[8] (crc16 p ^^^ (0#8 ++ b))) ∧
  ∀ p : List Byte, trailer p = [(crc16 p).extractLsb' 8 8, (crc16 p).extractLsb' 0 8] ∧
    crcValue p = (crc16 p).extractLsb' 0 8 ++ (crc16 p).extractLsb' 8 8 ∧ trailer p = le16 (crcValue p) ∧
    ∀ t0 t1, trailer p = [t0, t1] → crcValue p = unle16 t0 t1 ∧ crc16 p = unbe16 t0 t1

/-- 41_crc.md section 3 (the derived law R119, first sentence): any input followed by its own trailer passes
`CRCCHK`. -/
def Obligations.OwnTrailerPassesCrcchk : Prop :=
  ∀ (s : State) (b : List Byte), s.Running → s.ilen.toNat = b.length + 2 → b.length + 2 ≤ 65543 →
    s.inputBytes = b ++ trailer b → ∃ t, exec .crcchk s = .next t ∧ EndsOk s t

/-- 41_crc.md section 3 (the derived law R119, second part): flipping any one bit of an input that passes `CRCCHK`
makes it end with `E_CRC`. -/
def Obligations.SingleBitFlipFailsCrcchk : Prop :=
  ∀ (s t u : State) (j k : Nat), s.Running → exec .crcchk s = .next t → t.status.errcode = none →
    u.ilen = s.ilen → j < s.ilen.toNat → k < 8 → u.ibufByte j = s.ibufByte j ^^^ (1#8 <<< k) →
    (∀ i, i < s.ilen.toNat → i ≠ j → u.ibufByte i = s.ibufByte i) →
    ∃ v, exec .crcchk u = .next v ∧ EndsInError v .crc

/-- 42_header.md section 1 (the derived laws R136): header decoding and encoding are inverse to each other. -/
def Obligations.HeaderCodecRoundTrips : Prop :=
  (∀ h : Header, (hdrEncode h).length = 8 ∧ hdrDecode (hdrEncode h) = .ok h) ∧
  (∀ (b : List Byte) (h : Header), b.length = 8 → hdrDecode b = .ok h → hdrEncode h = b) ∧
  (∀ b : List Byte, b.length = 8 → ((∃ h, hdrDecode b = .ok h) ↔ b.getD 7 0 ∈ fcset))

/-- 43_frame.md section 4 (the derived law R160): after a successful `FDEC`, `FENC` of its output under the header it
wrote gives the frame back. -/
def Obligations.FencOfFdecGivesTheFrame : Prop :=
  ∀ s t u : State, s.Running → exec .fdec s = .next t → t.status.errcode = none →
    u.htid = t.htid → u.hpid = t.hpid → u.hufc = t.hufc → u.ilen = t.olen →
    (∀ i, i < t.olen.toNat → u.ibufByte i = t.obufByte i) →
    ∃ v, exec .fenc u = .next v ∧ EndsOk u v ∧ v.olen = s.ilen ∧ v.hlen = t.hlen ∧
      ∀ i, i < s.ilen.toNat → v.obufByte i = s.ibufByte i

/-- 43_frame.md sections 2 and 3: a frame that `FENC` wrote is decoded by `FDEC`, in a block whose table has its
function code, to the header, the payload and the table's kind. -/
def Obligations.FdecOfFencGivesThePayload : Prop :=
  ∀ (s t u : State) (fc : Fc) (k : Kind), s.Running → exec .fenc s = .next t → t.status.errcode = none →
    s.hufc.fc = fcByte fc → tableKind u.role fc = some k → u.ilen = t.olen →
    (∀ i, i < t.olen.toNat → u.ibufByte i = t.obufByte i) →
    ∃ v, exec .fdec u = .next v ∧ EndsWithKind u v k ∧ v.htid = s.htid ∧ v.hpid = s.hpid ∧ v.hlen = t.hlen ∧
      v.hufc = s.hufc ∧ v.olen = s.ilen ∧ v.result = t.result ∧ ∀ i, i < s.ilen.toNat → v.obufByte i = s.ibufByte i

/-- 44_tid.md section 3 (the derived law R186): any 65536 consecutive `TIDNEXT` commands for one function code give
pairwise distinct ids. -/
def Obligations.ConsecutiveIdsAreDistinct : Prop :=
  ∀ (s : State) (fc : Fc) (n : Nat), n ≤ 65536 → (tidIds fc n s).length = n ∧ (tidIds fc n s).Nodup
end

