-- ==== Sys2Proof/Laws/State.lean ====
section
/-! SUPPORT. One lemma per field of State for each named update of it, true by definition, so that no later proof
unfolds a record update. -/

namespace Sys2Proof.Machine

/-! ### The end of a command (30_encoding.md rule R90) -/

@[simp] theorem State.endOk_status (s : State) : (s.endOk).status = statusEnded s.status := rfl
@[simp] theorem State.endOk_ilen (s : State) : (s.endOk).ilen = s.ilen := rfl
@[simp] theorem State.endOk_olen (s : State) : (s.endOk).olen = s.olen := rfl
@[simp] theorem State.endOk_htid (s : State) : (s.endOk).htid = s.htid := rfl
@[simp] theorem State.endOk_hpid (s : State) : (s.endOk).hpid = s.hpid := rfl
@[simp] theorem State.endOk_hlen (s : State) : (s.endOk).hlen = s.hlen := rfl
@[simp] theorem State.endOk_hufc (s : State) : (s.endOk).hufc = s.hufc := rfl
@[simp] theorem State.endOk_result (s : State) : (s.endOk).result = s.result := rfl
@[simp] theorem State.endOk_role (s : State) : (s.endOk).role = s.role := rfl
@[simp] theorem State.endOk_mem (s : State) : (s.endOk).mem = s.mem := rfl
@[simp] theorem State.endOk_txLast (s : State) : (s.endOk).txLast = s.txLast := rfl
@[simp] theorem State.endOk_rxLast (s : State) : (s.endOk).rxLast = s.rxLast := rfl
@[simp] theorem State.endOk_inflight (s : State) : (s.endOk).inflight = none := rfl
@[simp] theorem State.endOk_ibufSeed (s : State) : (s.endOk).ibufSeed = s.ibufSeed := rfl
@[simp] theorem State.endOk_obufSeed (s : State) : (s.endOk).obufSeed = s.obufSeed := rfl
@[simp] theorem State.endOk_draws (s : State) : (s.endOk).draws = s.draws := rfl
@[simp] theorem State.endOk_params (s : State) : (s.endOk).params = s.params := rfl
@[simp] theorem State.endOk_hosts (s : State) : (s.endOk).hosts = s.hosts := rfl
@[simp] theorem State.endOk_events (s : State) : (s.endOk).events = s.events := rfl

/-! ### Error entry (60_exceptions.md rule R202) -/

@[simp] theorem State.endError_status (s : State) (e : Err) : (s.endError e).status = statusFailed e := rfl
@[simp] theorem State.endError_ilen (s : State) (e : Err) : (s.endError e).ilen = s.ilen := rfl
@[simp] theorem State.endError_olen (s : State) (e : Err) : (s.endError e).olen = s.olen := rfl
@[simp] theorem State.endError_htid (s : State) (e : Err) : (s.endError e).htid = s.htid := rfl
@[simp] theorem State.endError_hpid (s : State) (e : Err) : (s.endError e).hpid = s.hpid := rfl
@[simp] theorem State.endError_hlen (s : State) (e : Err) : (s.endError e).hlen = s.hlen := rfl
@[simp] theorem State.endError_hufc (s : State) (e : Err) : (s.endError e).hufc = s.hufc := rfl
@[simp] theorem State.endError_result (s : State) (e : Err) : (s.endError e).result = s.result := rfl
@[simp] theorem State.endError_role (s : State) (e : Err) : (s.endError e).role = s.role := rfl
@[simp] theorem State.endError_mem (s : State) (e : Err) : (s.endError e).mem = s.mem := rfl
@[simp] theorem State.endError_txLast (s : State) (e : Err) : (s.endError e).txLast = s.txLast := rfl
@[simp] theorem State.endError_rxLast (s : State) (e : Err) : (s.endError e).rxLast = s.rxLast := rfl
@[simp] theorem State.endError_inflight (s : State) (e : Err) : (s.endError e).inflight = none := rfl
@[simp] theorem State.endError_ibufSeed (s : State) (e : Err) : (s.endError e).ibufSeed = s.ibufSeed := rfl
@[simp] theorem State.endError_obufSeed (s : State) (e : Err) : (s.endError e).obufSeed = s.obufSeed := rfl
@[simp] theorem State.endError_draws (s : State) (e : Err) : (s.endError e).draws = s.draws := rfl
@[simp] theorem State.endError_params (s : State) (e : Err) : (s.endError e).params = s.params := rfl
@[simp] theorem State.endError_hosts (s : State) (e : Err) : (s.endError e).hosts = s.hosts := rfl
@[simp] theorem State.endError_events (s : State) (e : Err) : (s.endError e).events = s.events := rfl

/-! ### The start of a command, and the return from an error (30_encoding.md rule R90, 60_exceptions.md rule R207) -/

@[simp] theorem State.startCommand_status (s : State) (w : Word) : (s.startCommand w).status = statusStarted := rfl
@[simp] theorem State.startCommand_ilen (s : State) (w : Word) : (s.startCommand w).ilen = s.ilen := rfl
@[simp] theorem State.startCommand_olen (s : State) (w : Word) : (s.startCommand w).olen = s.olen := rfl
@[simp] theorem State.startCommand_htid (s : State) (w : Word) : (s.startCommand w).htid = s.htid := rfl
@[simp] theorem State.startCommand_hpid (s : State) (w : Word) : (s.startCommand w).hpid = s.hpid := rfl
@[simp] theorem State.startCommand_hlen (s : State) (w : Word) : (s.startCommand w).hlen = s.hlen := rfl
@[simp] theorem State.startCommand_hufc (s : State) (w : Word) : (s.startCommand w).hufc = s.hufc := rfl
@[simp] theorem State.startCommand_result (s : State) (w : Word) : (s.startCommand w).result = s.result := rfl
@[simp] theorem State.startCommand_role (s : State) (w : Word) : (s.startCommand w).role = s.role := rfl
@[simp] theorem State.startCommand_mem (s : State) (w : Word) : (s.startCommand w).mem = s.mem := rfl
@[simp] theorem State.startCommand_txLast (s : State) (w : Word) : (s.startCommand w).txLast = s.txLast := rfl
@[simp] theorem State.startCommand_rxLast (s : State) (w : Word) : (s.startCommand w).rxLast = s.rxLast := rfl
@[simp] theorem State.startCommand_inflight (s : State) (w : Word) : (s.startCommand w).inflight = some w := rfl
@[simp] theorem State.startCommand_ibufSeed (s : State) (w : Word) : (s.startCommand w).ibufSeed = s.ibufSeed := rfl
@[simp] theorem State.startCommand_obufSeed (s : State) (w : Word) : (s.startCommand w).obufSeed = s.obufSeed := rfl
@[simp] theorem State.startCommand_draws (s : State) (w : Word) : (s.startCommand w).draws = s.draws := rfl
@[simp] theorem State.startCommand_params (s : State) (w : Word) : (s.startCommand w).params = s.params := rfl
@[simp] theorem State.startCommand_hosts (s : State) (w : Word) : (s.startCommand w).hosts = s.hosts := rfl
@[simp] theorem State.startCommand_events (s : State) (w : Word) : (s.startCommand w).events = s.events := rfl

/-! ### `STATUS.KIND <- k` -/

@[simp] theorem State.setKind_status (s : State) (k : Kind) : (s.setKind k).status = { s.status with kind := k } := rfl
@[simp] theorem State.setKind_ilen (s : State) (k : Kind) : (s.setKind k).ilen = s.ilen := rfl
@[simp] theorem State.setKind_olen (s : State) (k : Kind) : (s.setKind k).olen = s.olen := rfl
@[simp] theorem State.setKind_htid (s : State) (k : Kind) : (s.setKind k).htid = s.htid := rfl
@[simp] theorem State.setKind_hpid (s : State) (k : Kind) : (s.setKind k).hpid = s.hpid := rfl
@[simp] theorem State.setKind_hlen (s : State) (k : Kind) : (s.setKind k).hlen = s.hlen := rfl
@[simp] theorem State.setKind_hufc (s : State) (k : Kind) : (s.setKind k).hufc = s.hufc := rfl
@[simp] theorem State.setKind_result (s : State) (k : Kind) : (s.setKind k).result = s.result := rfl
@[simp] theorem State.setKind_role (s : State) (k : Kind) : (s.setKind k).role = s.role := rfl
@[simp] theorem State.setKind_mem (s : State) (k : Kind) : (s.setKind k).mem = s.mem := rfl
@[simp] theorem State.setKind_txLast (s : State) (k : Kind) : (s.setKind k).txLast = s.txLast := rfl
@[simp] theorem State.setKind_rxLast (s : State) (k : Kind) : (s.setKind k).rxLast = s.rxLast := rfl
@[simp] theorem State.setKind_inflight (s : State) (k : Kind) : (s.setKind k).inflight = s.inflight := rfl
@[simp] theorem State.setKind_ibufSeed (s : State) (k : Kind) : (s.setKind k).ibufSeed = s.ibufSeed := rfl
@[simp] theorem State.setKind_obufSeed (s : State) (k : Kind) : (s.setKind k).obufSeed = s.obufSeed := rfl
@[simp] theorem State.setKind_draws (s : State) (k : Kind) : (s.setKind k).draws = s.draws := rfl
@[simp] theorem State.setKind_params (s : State) (k : Kind) : (s.setKind k).params = s.params := rfl
@[simp] theorem State.setKind_hosts (s : State) (k : Kind) : (s.setKind k).hosts = s.hosts := rfl
@[simp] theorem State.setKind_events (s : State) (k : Kind) : (s.setKind k).events = s.events := rfl

/-! ### `RESULT` (10_state.md rule R30) -/

@[simp] theorem State.setResult_status (s : State) (v : Half) (ok : Bool) : (s.setResult v ok).status = s.status := rfl
@[simp] theorem State.setResult_ilen (s : State) (v : Half) (ok : Bool) : (s.setResult v ok).ilen = s.ilen := rfl
@[simp] theorem State.setResult_olen (s : State) (v : Half) (ok : Bool) : (s.setResult v ok).olen = s.olen := rfl
@[simp] theorem State.setResult_htid (s : State) (v : Half) (ok : Bool) : (s.setResult v ok).htid = s.htid := rfl
@[simp] theorem State.setResult_hpid (s : State) (v : Half) (ok : Bool) : (s.setResult v ok).hpid = s.hpid := rfl
@[simp] theorem State.setResult_hlen (s : State) (v : Half) (ok : Bool) : (s.setResult v ok).hlen = s.hlen := rfl
@[simp] theorem State.setResult_hufc (s : State) (v : Half) (ok : Bool) : (s.setResult v ok).hufc = s.hufc := rfl
@[simp] theorem State.setResult_result (s : State) (v : Half) (ok : Bool) : (s.setResult v ok).result = { value := v, valid := ok } := rfl
@[simp] theorem State.setResult_role (s : State) (v : Half) (ok : Bool) : (s.setResult v ok).role = s.role := rfl
@[simp] theorem State.setResult_mem (s : State) (v : Half) (ok : Bool) : (s.setResult v ok).mem = s.mem := rfl
@[simp] theorem State.setResult_txLast (s : State) (v : Half) (ok : Bool) : (s.setResult v ok).txLast = s.txLast := rfl
@[simp] theorem State.setResult_rxLast (s : State) (v : Half) (ok : Bool) : (s.setResult v ok).rxLast = s.rxLast := rfl
@[simp] theorem State.setResult_inflight (s : State) (v : Half) (ok : Bool) : (s.setResult v ok).inflight = s.inflight := rfl
@[simp] theorem State.setResult_ibufSeed (s : State) (v : Half) (ok : Bool) : (s.setResult v ok).ibufSeed = s.ibufSeed := rfl
@[simp] theorem State.setResult_obufSeed (s : State) (v : Half) (ok : Bool) : (s.setResult v ok).obufSeed = s.obufSeed := rfl
@[simp] theorem State.setResult_draws (s : State) (v : Half) (ok : Bool) : (s.setResult v ok).draws = s.draws := rfl
@[simp] theorem State.setResult_params (s : State) (v : Half) (ok : Bool) : (s.setResult v ok).params = s.params := rfl
@[simp] theorem State.setResult_hosts (s : State) (v : Half) (ok : Bool) : (s.setResult v ok).hosts = s.hosts := rfl
@[simp] theorem State.setResult_events (s : State) (v : Half) (ok : Bool) : (s.setResult v ok).events = s.events := rfl

/-! ### The header registers (42_header.md rule R132) -/

@[simp] theorem State.setHeader_status (s : State) (h : Header) : (s.setHeader h).status = s.status := rfl
@[simp] theorem State.setHeader_ilen (s : State) (h : Header) : (s.setHeader h).ilen = s.ilen := rfl
@[simp] theorem State.setHeader_olen (s : State) (h : Header) : (s.setHeader h).olen = s.olen := rfl
@[simp] theorem State.setHeader_htid (s : State) (h : Header) : (s.setHeader h).htid = h.tid := rfl
@[simp] theorem State.setHeader_hpid (s : State) (h : Header) : (s.setHeader h).hpid = h.pid := rfl
@[simp] theorem State.setHeader_hlen (s : State) (h : Header) : (s.setHeader h).hlen = h.len := rfl
@[simp] theorem State.setHeader_hufc (s : State) (h : Header) : (s.setHeader h).hufc = { uid := h.uid, fc := fcByte h.fc } := rfl
@[simp] theorem State.setHeader_result (s : State) (h : Header) : (s.setHeader h).result = s.result := rfl
@[simp] theorem State.setHeader_role (s : State) (h : Header) : (s.setHeader h).role = s.role := rfl
@[simp] theorem State.setHeader_mem (s : State) (h : Header) : (s.setHeader h).mem = s.mem := rfl
@[simp] theorem State.setHeader_txLast (s : State) (h : Header) : (s.setHeader h).txLast = s.txLast := rfl
@[simp] theorem State.setHeader_rxLast (s : State) (h : Header) : (s.setHeader h).rxLast = s.rxLast := rfl
@[simp] theorem State.setHeader_inflight (s : State) (h : Header) : (s.setHeader h).inflight = s.inflight := rfl
@[simp] theorem State.setHeader_ibufSeed (s : State) (h : Header) : (s.setHeader h).ibufSeed = s.ibufSeed := rfl
@[simp] theorem State.setHeader_obufSeed (s : State) (h : Header) : (s.setHeader h).obufSeed = s.obufSeed := rfl
@[simp] theorem State.setHeader_draws (s : State) (h : Header) : (s.setHeader h).draws = s.draws := rfl
@[simp] theorem State.setHeader_params (s : State) (h : Header) : (s.setHeader h).params = s.params := rfl
@[simp] theorem State.setHeader_hosts (s : State) (h : Header) : (s.setHeader h).hosts = s.hosts := rfl
@[simp] theorem State.setHeader_events (s : State) (h : Header) : (s.setHeader h).events = s.events := rfl

/-! ### The output of a command (10_state.md rule R34) -/

@[simp] theorem State.output_status (s : State) (bs : List Byte) : (s.output bs).status = s.status := rfl
@[simp] theorem State.output_ilen (s : State) (bs : List Byte) : (s.output bs).ilen = s.ilen := rfl
@[simp] theorem State.output_olen (s : State) (bs : List Byte) : (s.output bs).olen = BitVec.ofNat 17 bs.length := rfl
@[simp] theorem State.output_htid (s : State) (bs : List Byte) : (s.output bs).htid = s.htid := rfl
@[simp] theorem State.output_hpid (s : State) (bs : List Byte) : (s.output bs).hpid = s.hpid := rfl
@[simp] theorem State.output_hlen (s : State) (bs : List Byte) : (s.output bs).hlen = s.hlen := rfl
@[simp] theorem State.output_hufc (s : State) (bs : List Byte) : (s.output bs).hufc = s.hufc := rfl
@[simp] theorem State.output_result (s : State) (bs : List Byte) : (s.output bs).result = s.result := rfl
@[simp] theorem State.output_role (s : State) (bs : List Byte) : (s.output bs).role = s.role := rfl
@[simp] theorem State.output_mem (s : State) (bs : List Byte) : (s.output bs).mem = memWrite s.mem obufBase bs := rfl
@[simp] theorem State.output_txLast (s : State) (bs : List Byte) : (s.output bs).txLast = s.txLast := rfl
@[simp] theorem State.output_rxLast (s : State) (bs : List Byte) : (s.output bs).rxLast = s.rxLast := rfl
@[simp] theorem State.output_inflight (s : State) (bs : List Byte) : (s.output bs).inflight = s.inflight := rfl
@[simp] theorem State.output_ibufSeed (s : State) (bs : List Byte) : (s.output bs).ibufSeed = s.ibufSeed := rfl
@[simp] theorem State.output_obufSeed (s : State) (bs : List Byte) : (s.output bs).obufSeed = s.obufSeed := rfl
@[simp] theorem State.output_draws (s : State) (bs : List Byte) : (s.output bs).draws = s.draws := rfl
@[simp] theorem State.output_params (s : State) (bs : List Byte) : (s.output bs).params = s.params := rfl
@[simp] theorem State.output_hosts (s : State) (bs : List Byte) : (s.output bs).hosts = s.hosts := rfl
@[simp] theorem State.output_events (s : State) (bs : List Byte) : (s.output bs).events = s.events := rfl

/-! ### Reset (70_reset_and_hazards.md rules R230, R231) -/

@[simp] theorem State.applyReset_status (s : State) (strap : Role) : (s.applyReset strap).status = Status.reset := rfl
@[simp] theorem State.applyReset_ilen (s : State) (strap : Role) : (s.applyReset strap).ilen = 0 := rfl
@[simp] theorem State.applyReset_olen (s : State) (strap : Role) : (s.applyReset strap).olen = 0 := rfl
@[simp] theorem State.applyReset_htid (s : State) (strap : Role) : (s.applyReset strap).htid = 0 := rfl
@[simp] theorem State.applyReset_hpid (s : State) (strap : Role) : (s.applyReset strap).hpid = 0 := rfl
@[simp] theorem State.applyReset_hlen (s : State) (strap : Role) : (s.applyReset strap).hlen = 0 := rfl
@[simp] theorem State.applyReset_hufc (s : State) (strap : Role) : (s.applyReset strap).hufc = { uid := 0, fc := 0 } := rfl
@[simp] theorem State.applyReset_result (s : State) (strap : Role) : (s.applyReset strap).result = { value := 0, valid := false } := rfl
@[simp] theorem State.applyReset_role (s : State) (strap : Role) : (s.applyReset strap).role = strap := rfl
@[simp] theorem State.applyReset_mem (s : State) (strap : Role) : (s.applyReset strap).mem = [] := rfl
@[simp] theorem State.applyReset_txLast (s : State) (strap : Role) : (s.applyReset strap).txLast = TidTable.empty := rfl
@[simp] theorem State.applyReset_rxLast (s : State) (strap : Role) : (s.applyReset strap).rxLast = TidTable.empty := rfl
@[simp] theorem State.applyReset_inflight (s : State) (strap : Role) : (s.applyReset strap).inflight = none := rfl
@[simp] theorem State.applyReset_ibufSeed (s : State) (strap : Role) : (s.applyReset strap).ibufSeed = s.draws := rfl
@[simp] theorem State.applyReset_obufSeed (s : State) (strap : Role) : (s.applyReset strap).obufSeed = s.draws := rfl
@[simp] theorem State.applyReset_draws (s : State) (strap : Role) : (s.applyReset strap).draws = s.draws + 1 := rfl
@[simp] theorem State.applyReset_params (s : State) (strap : Role) : (s.applyReset strap).params = s.params := rfl
@[simp] theorem State.applyReset_hosts (s : State) (strap : Role) : (s.applyReset strap).hosts = s.hosts := rfl
@[simp] theorem State.applyReset_events (s : State) (strap : Role) : (s.applyReset strap).events = s.events := rfl

end Sys2Proof.Machine
end

