-- ==== Sys2Proof/Laws/Memory.lean ====
section
/-! SUPPORT. The bytes of the window: what a lookup finds after each memory operation, and that every memory operation
keeps the canonical form (20_memory.md rule R50; 10_state.md rules R33, R34). -/

namespace Sys2Proof.Machine

theorem memLookup_append (m m' : List Host.Cell) (a : Nat) :
    memLookup (m ++ m') a = (memLookup m a).or (memLookup m' a) := by
  induction m with
  | nil => simp [memLookup]
  | cons c m ih =>
    obtain ⟨k, b⟩ := c
    by_cases h : k = a <;> simp [memLookup, h, ih]

theorem memLookup_filter (m : List Host.Cell) (p : Nat → Bool) (a : Nat) :
    memLookup (m.filter fun c => p c.1) a = if p a then memLookup m a else none := by
  induction m with
  | nil => simp [memLookup]
  | cons c m ih =>
    obtain ⟨k, b⟩ := c
    by_cases hk : k = a
    · subst hk
      by_cases hp : p k <;> simp [memLookup, hp, ih]
    · by_cases hp : p k <;> simp [memLookup, hp, hk, ih]

theorem memLookup_below (m : List Host.Cell) (a x : Nat) :
    memLookup (memBelow m a) x = if x < a then memLookup m x else none := by
  simpa [memBelow] using memLookup_filter m (fun k => decide (k < a)) x

theorem memLookup_from (m : List Host.Cell) (a x : Nat) :
    memLookup (memFrom m a) x = if a ≤ x then memLookup m x else none := by
  simpa [memFrom] using memLookup_filter m (fun k => decide (a ≤ k)) x

theorem memLookup_cells (bs : List Byte) (a x : Nat) :
    memLookup (memCells a bs) x = if a ≤ x then bs[x - a]? else none := by
  induction bs generalizing a with
  | nil => simp [memCells, memLookup]
  | cons b bs ih =>
    by_cases h : a = x
    · subst h; simp [memCells, memLookup]
    · simp only [memCells, memLookup, h, if_false, ih]
      by_cases hx : a ≤ x
      · have h1 : a + 1 ≤ x := by omega
        have h2 : x - a = (x - (a + 1)) + 1 := by omega
        simp [hx, h1, h2]
      · have h1 : ¬ a + 1 ≤ x := by omega
        simp [hx, h1]

/-- What a write leaves at each offset: the written byte, or what stood there. -/
theorem memLookup_write (m : List Host.Cell) (a : Nat) (bs : List Byte) (x : Nat) :
    memLookup (memWrite m a bs) x = if a ≤ x ∧ x < a + bs.length then bs[x - a]? else memLookup m x := by
  simp only [memWrite, memLookup_append, memLookup_below, memLookup_from, memLookup_cells]
  by_cases h1 : x < a
  · have h2 : ¬ a ≤ x := by omega
    have h3 : ¬ a + bs.length ≤ x := by omega
    simp [h1, h2, h3]
  · have h2 : a ≤ x := by omega
    by_cases h3 : x < a + bs.length
    · have h4 : x - a < bs.length := by omega
      have h5 : ¬ a + bs.length ≤ x := by omega
      simp [h1, h2, h3, h4, h5]
    · have h4 : bs.length ≤ x - a := by omega
      have h5 : a + bs.length ≤ x := by omega
      simp [h1, h2, h3, h4, h5]

theorem mem_memCells {a : Nat} {bs : List Byte} {c : Host.Cell} (h : c ∈ memCells a bs) :
    a ≤ c.1 ∧ c.1 < a + bs.length := by
  induction bs generalizing a with
  | nil => simp [memCells] at h
  | cons b bs ih =>
    simp only [memCells, List.mem_cons] at h
    rcases h with rfl | h
    · simp
    · have := ih h; simp only [List.length_cons]; omega

theorem memCells_sorted (a : Nat) (bs : List Byte) :
    (memCells a bs).Pairwise fun c d => c.1 < d.1 := by
  induction bs generalizing a with
  | nil => simp [memCells]
  | cons b bs ih =>
    refine List.Pairwise.cons (fun c hc => ?_) (ih (a + 1))
    have := (mem_memCells hc).1
    simp only; omega

theorem memWf_iff (m : List Host.Cell) :
    Memory.wf m = true ↔ m.Pairwise (fun c d => c.1 < d.1) ∧ ∀ c ∈ m, (inIbuf c.1 || inObuf c.1) = true := by
  simp [Memory.wf]

/-- The canonical form survives a write whose bytes all lie in the buffers. -/
theorem memWf_write {m : List Host.Cell} {a : Nat} {bs : List Byte} (hm : Memory.wf m = true)
    (hin : ∀ x, a ≤ x → x < a + bs.length → (inIbuf x || inObuf x) = true) : Memory.wf (memWrite m a bs) = true := by
  rw [memWf_iff] at hm ⊢
  obtain ⟨hs, hb⟩ := hm
  constructor
  · simp only [memWrite, List.append_assoc]
    rw [List.pairwise_append, List.pairwise_append]
    refine ⟨hs.filter _, ⟨memCells_sorted a bs, hs.filter _, fun c hc d hd => ?_⟩, fun c hc d hd => ?_⟩
    · have h1 := (mem_memCells hc).2
      have h2 : a + bs.length ≤ d.1 := by simpa [memFrom] using (List.mem_filter.1 hd).2
      omega
    · have h1 : c.1 < a := by simpa [memBelow] using (List.mem_filter.1 hc).2
      rcases List.mem_append.1 hd with hd | hd
      · have := (mem_memCells hd).1; omega
      · have h2 : a + bs.length ≤ d.1 := by simpa [memFrom] using (List.mem_filter.1 hd).2
        omega
  · intro c hc
    simp only [memWrite, List.mem_append] at hc
    rcases hc with (hc | hc) | hc
    · exact hb c (List.mem_filter.1 hc).1
    · have := mem_memCells hc; exact hin _ this.1 this.2
    · exact hb c (List.mem_filter.1 hc).1

/-- The canonical form survives the loss of the cells from an offset on. -/
theorem memWf_below {m : List Host.Cell} (a : Nat) (hm : Memory.wf m = true) : Memory.wf (memBelow m a) = true := by
  rw [memWf_iff] at hm ⊢
  exact ⟨hm.1.filter _, fun c hc => hm.2 c (List.mem_filter.1 hc).1⟩

/-- An output that fits `OBUF` keeps the canonical form. -/
theorem memWf_output {m : List Host.Cell} {bs : List Byte} (hm : Memory.wf m = true) (hb : bs.length ≤ bufBytes) :
    Memory.wf (memWrite m obufBase bs) = true := by
  refine memWf_write hm fun x h1 h2 => ?_
  have : inObuf x = true := by
    rw [inObuf, Bool.and_eq_true, decide_eq_true_iff, decide_eq_true_iff]
    omega
  rw [this, Bool.or_true]

/-! ## Bytes as a state reads them -/

theorem State.readByte_congr {s t : State} {a : Nat} (hm : memLookup t.mem a = memLookup s.mem a)
    (hi : t.ibufSeed = s.ibufSeed) (ho : t.obufSeed = s.obufSeed) : t.readByte a = s.readByte a := by
  simp [State.readByte, State.freeByteAt, hm, hi, ho]

/-- What a byte of the window reads as after an output: the output's byte, or what stood there. -/
theorem State.readByte_output (s : State) (bs : List Byte) (a : Nat) :
    (s.output bs).readByte a =
      if obufBase ≤ a ∧ a < obufBase + bs.length then bs.getD (a - obufBase) 0 else s.readByte a := by
  simp only [State.readByte, State.output_mem, memLookup_write, State.freeByteAt, State.output_ibufSeed,
    State.output_obufSeed]
  split
  · rename_i h
    have : a - obufBase < bs.length := by omega
    simp [this, List.getD_eq_getElem?_getD]
  · rfl

@[simp] theorem State.readBytes_length (s : State) (a n : Nat) : (s.readBytes a n).length = n := by
  induction n generalizing a with
  | zero => rfl
  | succ n ih => simp [State.readBytes, ih]

theorem State.readBytes_eq_map (s : State) (a n : Nat) :
    s.readBytes a n = (List.range n).map fun i => s.readByte (a + i) := by
  induction n generalizing a with
  | zero => rfl
  | succ n ih =>
    rw [List.range_succ_eq_map, State.readBytes, ih]
    simp [List.map_map, Function.comp_def, Nat.add_assoc, Nat.add_comm 1]

/-- The command input is the bytes of `IBUF` below `ILEN` (10_state.md rule R33). -/
theorem State.input_eq (s : State) : s.input = s.inputBytes := by
  simp [State.input, State.inputBytes, State.readBytes_eq_map, State.ibufByte]

@[simp] theorem State.input_length (s : State) : s.input.length = s.ilen.toNat := by simp [State.input]

end Sys2Proof.Machine
end

