-- ==== Sys2Proof/Laws/Ops.lean ====
section
/-! SUPPORT. What each shared operation can do, once: an error in a body (60_exceptions.md rules R202, R203), the
execution frame's `ILEN` check (30_encoding.md rule R90), the function codes (R74) and the entries of a table (44_tid.md
rule R180). -/

namespace Sys2Proof.Machine

/-! ## Errors in a body -/

/-- One clobbered output leaves every field it does not name. -/
theorem State.clobberOne_frame (d : Nat) (s : State) (o : Out) :
    s.clobberOne d o = { s with olen := (s.clobberOne d o).olen, htid := (s.clobberOne d o).htid,
                                hpid := (s.clobberOne d o).hpid, hlen := (s.clobberOne d o).hlen,
                                hufc := (s.clobberOne d o).hufc, result := (s.clobberOne d o).result,
                                mem := (s.clobberOne d o).mem, obufSeed := (s.clobberOne d o).obufSeed } := by
  cases o <;> rfl

/-- The memory after clobbered outputs is the old one, or the old one without `OBUF`. -/
theorem State.clobberFold_mem (d : Nat) (outs : List Out) (s : State) :
    (outs.foldl (State.clobberOne d) s).mem = s.mem ∨
      (outs.foldl (State.clobberOne d) s).mem = memBelow s.mem obufBase := by
  induction outs generalizing s with
  | nil => exact .inl rfl
  | cons o os ih =>
    have hb : memBelow (memBelow s.mem obufBase) obufBase = memBelow s.mem obufBase := by
      simp [memBelow, List.filter_filter]
    rcases ih (s.clobberOne d o) with h | h <;> cases o <;>
      simp_all [State.clobberOne]

/-- Clobbered outputs leave every other field of the state. -/
theorem State.clobberFold_frame (d : Nat) (outs : List Out) (s : State) :
    let t := outs.foldl (State.clobberOne d) s
    t = { s with olen := t.olen, htid := t.htid, hpid := t.hpid, hlen := t.hlen, hufc := t.hufc, result := t.result,
                 mem := t.mem, obufSeed := t.obufSeed } := by
  induction outs generalizing s with
  | nil => rfl
  | cons o os ih =>
    have h1 := ih (s.clobberOne d o)
    have h2 := State.clobberOne_frame d s o
    simp only [List.foldl_cons] at h1 ⊢
    rw [h1]
    rw [h2]

/-- `raise` in a body (R202, R203): `STATUS` says the error, nothing is in flight, one draw is used, and only listed
kinds of output can differ. -/
theorem State.raise_frame (s : State) (outs : List Out) (e : Err) :
    let t := s.raise outs e
    t = { s with status := statusFailed e, inflight := none, draws := s.draws + 1, olen := t.olen, htid := t.htid,
                 hpid := t.hpid, hlen := t.hlen, hufc := t.hufc, result := t.result, mem := t.mem,
                 obufSeed := t.obufSeed } := by
  have h := State.clobberFold_frame s.draws outs s
  simp only [State.raise, State.endError, State.clobber] at h ⊢
  rw [h]

@[simp] theorem State.raise_status (s : State) (outs : List Out) (e : Err) :
    (s.raise outs e).status = statusFailed e := rfl

@[simp] theorem State.raise_inflight (s : State) (outs : List Out) (e : Err) : (s.raise outs e).inflight = none := rfl

@[simp] theorem State.raise_draws (s : State) (outs : List Out) (e : Err) : (s.raise outs e).draws = s.draws + 1 := rfl

@[simp] theorem State.raise_txLast (s : State) (outs : List Out) (e : Err) : (s.raise outs e).txLast = s.txLast := by
  rw [State.raise_frame]

@[simp] theorem State.raise_rxLast (s : State) (outs : List Out) (e : Err) : (s.raise outs e).rxLast = s.rxLast := by
  rw [State.raise_frame]

@[simp] theorem State.raise_ilen (s : State) (outs : List Out) (e : Err) : (s.raise outs e).ilen = s.ilen := by
  rw [State.raise_frame]

@[simp] theorem State.raise_role (s : State) (outs : List Out) (e : Err) : (s.raise outs e).role = s.role := by
  rw [State.raise_frame]

@[simp] theorem State.raise_ibufSeed (s : State) (outs : List Out) (e : Err) :
    (s.raise outs e).ibufSeed = s.ibufSeed := by
  rw [State.raise_frame]

@[simp] theorem State.raise_params (s : State) (outs : List Out) (e : Err) : (s.raise outs e).params = s.params := by
  rw [State.raise_frame]

@[simp] theorem State.raise_hosts (s : State) (outs : List Out) (e : Err) : (s.raise outs e).hosts = s.hosts := by
  rw [State.raise_frame]

@[simp] theorem State.raise_events (s : State) (outs : List Out) (e : Err) : (s.raise outs e).events = s.events := by
  rw [State.raise_frame]

theorem State.raise_mem (s : State) (outs : List Out) (e : Err) :
    (s.raise outs e).mem = s.mem ∨ (s.raise outs e).mem = memBelow s.mem obufBase :=
  State.clobberFold_mem s.draws outs s

/-- An error keeps the canonical form of memory. -/
theorem State.raise_memWf {s : State} (outs : List Out) (e : Err) (h : Memory.wf s.mem = true) :
    Memory.wf (s.raise outs e).mem = true := by
  rcases s.raise_mem outs e with h' | h' <;> rw [h']
  · exact h
  · exact memWf_below _ h

/-- An error leaves every byte of `IBUF` (R203 (a)). -/
theorem State.raise_readByte_ibuf (s : State) (outs : List Out) (e : Err) {a : Nat} (ha : a < obufBase) :
    (s.raise outs e).readByte a = s.readByte a := by
  have h : memLookup (s.raise outs e).mem a = memLookup s.mem a := by
    rcases s.raise_mem outs e with h' | h' <;> rw [h']
    simp [memLookup_below, ha]
  simp [State.readByte, State.freeByteAt, h, ha]

/-! ## The execution frame -/

/-- What the execution frame does: `E_ILEN`, or the body (R90). -/
theorem withInput_cases (s : State) (body : State → State) :
    (bufBytes < s.ilen.toNat ∧ withInput s body = .next (s.endError .ilen)) ∨
      (s.ilen.toNat ≤ bufBytes ∧ withInput s body = .next (body s)) := by
  unfold withInput
  split
  · exact .inl ⟨‹_›, rfl⟩
  · exact .inr ⟨by omega, rfl⟩

theorem withInput_big {s : State} {body : State → State} (h : bufBytes < s.ilen.toNat) :
    withInput s body = .next (s.endError .ilen) := by simp [withInput, h]

theorem withInput_fits {s : State} {body : State → State} (h : s.ilen.toNat ≤ bufBytes) :
    withInput s body = .next (body s) := by simp [withInput, Nat.not_lt.2 h]

/-! ## Function codes and tables -/

@[simp] theorem fcOfByte_fcByte (fc : Fc) : fcOfByte (fcByte fc) = some fc := by cases fc <;> rfl

theorem fcByte_of_fcOfByte {b : Byte} {fc : Fc} (h : fcOfByte b = some fc) : fcByte fc = b := by
  revert b; cases fc <;> decide

theorem fcOfByte_eq_none {b : Byte} : fcOfByte b = none ↔ b ∉ fcset := by
  revert b; decide

theorem fcByte_mem (fc : Fc) : fcByte fc ∈ fcset := by cases fc <;> decide

@[simp] theorem tidGet_tidSet_same (t : TidTable) (fc : Fc) (e : Option Half) : tidGet (tidSet t fc e) fc = e := by
  cases fc <;> rfl

theorem tidGet_tidSet_other (t : TidTable) {fc fc' : Fc} (e : Option Half) (h : fc' ≠ fc) :
    tidGet (tidSet t fc e) fc' = tidGet t fc' := by
  cases fc <;> cases fc' <;> first | rfl | exact absurd rfl h

@[simp] theorem tidGet_empty (fc : Fc) : tidGet TidTable.empty fc = none := by cases fc <;> rfl

/-- A row of the two tables is what `disp` answers for its byte (43_frame.md rule R154). -/
theorem disp_fcByte (role : Role) (fc : Fc) : disp role (fcByte fc) = dispFc role fc := by simp [disp]

theorem dispatchRow_eq {role : Role} {b : Byte} {d : Except Err Kind} (h : disp role b = d) (s : State) :
    dispatchRow role b d s = execDisp b s := by
  unfold dispatchRow execDisp
  split
  · rename_i hr; rw [hr, h]
  · rfl

end Sys2Proof.Machine
end

