-- ==== Sys2Proof/Laws/Codec.lean ====
section
/-! SUPPORT. The lengths of what the codec's functions give (40_cipher.md rule R101, 41_crc.md rule R113, 42_header.md
rule R131, 43_frame.md rule R156), what header decoding answers for short and long inputs (42_header.md rule R130), and
the input and output of a command, byte by byte (10_state.md rules R33, R34). -/

namespace Sys2Proof.Machine

@[simp] theorem xorFrom_length (i : Nat) (b : List Byte) : (xorFrom i b).length = b.length := by
  induction b generalizing i with
  | nil => rfl
  | cons a b ih => simp [xorFrom, ih]

@[simp] theorem xorKey_length (b : List Byte) : (xorKey b).length = b.length := xorFrom_length 0 b

@[simp] theorem trailer_length (p : List Byte) : (trailer p).length = 2 := rfl

@[simp] theorem hdrEncode_length (h : Header) : (hdrEncode h).length = 8 := rfl

@[simp] theorem frameEncode_length (tid pid : Half) (uid : Byte) (fc : Fc) (p : List Byte) :
    (frameEncode tid pid uid fc p).length = p.length + 10 := by
  simp [frameEncode]; omega

theorem hdrDecode_short {l : List Byte} (h : l.length < 8) : hdrDecode l = .error .short := by
  unfold hdrDecode
  split
  · simp at h; omega
  · rfl

theorem hdrDecode_long {l : List Byte} (h : 8 ≤ l.length) :
    hdrDecode l = match fcOfByte (l.getD 7 0) with
      | none => .error .fcUnknown
      | some fc => .ok { tid := l.getD 0 0 ++ l.getD 1 0, pid := l.getD 2 0 ++ l.getD 3 0,
                         len := l.getD 4 0 ++ l.getD 5 0, uid := l.getD 6 0, fc := fc } := by
  match l, h with
  | _ :: _ :: _ :: _ :: _ :: _ :: _ :: _ :: _, _ => rfl

/-! ## Input and output, byte by byte -/

theorem State.input_getElem? (s : State) {i : Nat} (h : i < s.ilen.toNat) : s.input[i]? = some (s.ibufByte i) := by
  rw [State.input_eq, State.inputBytes]; simp [h]

theorem State.input_getD (s : State) {i : Nat} (h : i < s.ilen.toNat) : s.input.getD i 0 = s.ibufByte i := by
  rw [List.getD_eq_getElem?_getD, State.input_getElem? s h]; rfl

theorem State.readByte_output_in (s : State) (bs : List Byte) {i : Nat} (h : i < bs.length) :
    (s.output bs).readByte (obufBase + i) = bs.getD i 0 := by
  rw [State.readByte_output, if_pos (by omega)]; simp

theorem State.readByte_output_out (s : State) (bs : List Byte) {a : Nat} (h : a < obufBase ∨ obufBase + bs.length ≤ a) :
    (s.output bs).readByte a = s.readByte a := by
  rw [State.readByte_output, if_neg (by omega)]

end Sys2Proof.Machine
end

