-- ==== Sys2Proof/Laws/Exec.lean ====
section
/-! SUPPORT. What executing a command can do, once: the commands behind the execution frame (30_encoding.md rule R90),
how a command ends (30_encoding.md rule R90, 60_exceptions.md rule R202), and one lemma that says of every instruction
which fields it can write and how. -/

namespace Sys2Proof.Machine

/-! ## The commands that read `IBUF` -/

theorem exec_xor (s : State) : exec .xor s = withInput s fun s => (s.output (xorKey s.input)).endOk := rfl

theorem exec_crc (s : State) :
    exec .crc s = withInput s fun s => ((s.setResult (crcValue s.input) false).output (trailer s.input)).endOk := rfl

theorem exec_crcchk (s : State) : exec .crcchk s = withInput s fun s => crcchkBody s s.input := rfl

theorem exec_hdec (s : State) : exec .hdec s = withInput s fun s => hdecBody s s.input := rfl

theorem exec_plen (s : State) : exec .plen s = withInput s fun s => plenBody s s.input := rfl

theorem exec_fenc (s : State) : exec .fenc s = withInput s fun s => fencBody s s.input := rfl

theorem exec_fdec (s : State) : exec .fdec s = withInput s fun s => fdecBody s s.input := rfl

/-! ## How a command ends -/

theorem statusWord_failed (e : Err) : statusWord (statusFailed e) = 0#16 ++ tableCode e ++ 0x06#8 := by
  cases e <;> decide

theorem statusWord_ended (k : Kind) :
    statusWord { statusEnded statusStarted with kind := k } = 0#8 ++ kindCode k ++ 0x0002#16 := by
  cases k <;> decide

theorem endsInError_of {t : State} {e : Err} (h : t.status = statusFailed e) (hi : t.inflight = none) :
    EndsInError t e :=
  ⟨h, hi, by show statusWord t.status = _; rw [h, statusWord_failed]⟩

theorem endsInError_endError (s : State) (e : Err) : EndsInError (s.endError e) e := endsInError_of rfl rfl

theorem endsInError_raise (s : State) (outs : List Out) (e : Err) : EndsInError (s.raise outs e) e :=
  endsInError_of rfl rfl

theorem endsOk_of {s t : State} (h : t.status = statusEnded s.status) (hi : t.inflight = none) : EndsOk s t :=
  ⟨h, hi, fun hr => by
    have hr : s.status = statusStarted := hr
    show statusWord t.status = _
    rw [h, hr]; exact statusWord_ended .none⟩

theorem endsWithKind_of {s t : State} {k : Kind} (h : t.status = { statusEnded s.status with kind := k })
    (hi : t.inflight = none) : EndsWithKind s t k :=
  ⟨h, hi, fun hr => by
    have hr : s.status = statusStarted := hr
    show statusWord t.status = _
    rw [h, hr]; exact statusWord_ended k⟩

/-- The frame of an error in a body, with every field that can differ named. -/
theorem State.raise_frame_all (s : State) (outs : List Out) (e : Err) :
    let t := s.raise outs e
    t = { s with htid := t.htid, hpid := t.hpid, hlen := t.hlen, hufc := t.hufc, mem := t.mem, obufSeed := t.obufSeed,
                 olen := t.olen, result := t.result, draws := t.draws, status := t.status, inflight := t.inflight } := by
  have h := State.raise_frame s outs e
  simp only [] at h ⊢
  rw [State.raise_status, State.raise_inflight, State.raise_draws]
  exact h

/-! ## What an instruction can do -/

/-- How a command ends: with an error, or without one and with a kind. -/
def EndStatus (s t : State) : Prop :=
  (∃ e, t.status = statusFailed e) ∨ (∃ k, t.status = { statusEnded s.status with kind := k }) ∨
    t.status = statusEnded s.status

/-- What a command can do to the known bytes of the window: nothing, forget `OBUF`, or write a fitting output. -/
def EndMem (s t : State) : Prop :=
  t.mem = s.mem ∨ t.mem = memBelow s.mem obufBase ∨
    ∃ bs : List Byte, bs.length ≤ bufBytes ∧ t.mem = memWrite s.mem obufBase bs

/-- What `t` can be after executing `i` in `s`. -/
structure Ends (i : Instr) (s t : State) : Prop where
  status : EndStatus s t
  inflight : t.inflight = none
  mem : EndMem s t
  frame : t = { s with mem := t.mem, obufSeed := t.obufSeed, draws := t.draws, status := t.status,
                       inflight := t.inflight, olen := t.olen, htid := t.htid, hpid := t.hpid, hlen := t.hlen,
                       hufc := t.hufc, result := t.result, txLast := t.txLast, rxLast := t.rxLast }
  tx : t.txLast = s.txLast ∨ i = .tidclr ∨
    ∃ fc v, i = .tidnext (fcByte fc) ∧ t.txLast = tidSet s.txLast fc (some v)
  rx : t.rxLast = s.rxLast ∨ i = .tidclr ∨
    ∃ fc, i = .tidobs (fcByte fc) ∧ t.rxLast = tidSet s.rxLast fc (some s.htid)

theorem ends_endError (i : Instr) (s : State) (e : Err) : Ends i s (s.endError e) :=
  ⟨.inl ⟨e, rfl⟩, rfl, .inl rfl, rfl, .inl rfl, .inl rfl⟩

theorem ends_raise (i : Instr) (s : State) (outs : List Out) (e : Err) : Ends i s (s.raise outs e) := by
  refine ⟨.inl ⟨e, rfl⟩, rfl, ?_, ?_, .inl (by simp), .inl (by simp)⟩
  · rcases s.raise_mem outs e with h | h
    · exact .inl h
    · exact .inr (.inl h)
  · have h := State.raise_frame_all s outs e
    simp only [State.raise_txLast, State.raise_rxLast] at h ⊢
    exact h

theorem ends_dispatch (i : Instr) (s : State) (d : Except Err Kind) : Ends i s (s.endDispatch d) := by
  cases d with
  | error e => exact ends_endError i s e
  | ok k => exact ⟨.inr (.inl ⟨k, rfl⟩), rfl, .inl rfl, rfl, .inl rfl, .inl rfl⟩

theorem exec_withInput {i : Instr} {s : State} {body : State → State} (h : exec i s = withInput s body)
    (hb : s.ilen.toNat ≤ bufBytes → Ends i s (body s)) : ∃ t, exec i s = .next t ∧ Ends i s t := by
  rcases withInput_cases s body with ⟨_, h'⟩ | ⟨hn, h'⟩
  · exact ⟨_, h.trans h', ends_endError i s .ilen⟩
  · exact ⟨_, h.trans h', hb hn⟩

theorem exec_row {i : Instr} {s : State} {r : Role} {b : Byte} {d : Except Err Kind}
    (h : exec i s = dispatchRow r b d s) : ∃ t, exec i s = .next t ∧ Ends i s t := by
  rw [h]; unfold dispatchRow
  split
  · exact ⟨_, rfl, ends_dispatch i s _⟩
  · exact ⟨_, rfl, ends_dispatch i s _⟩

/-- Every instruction answers a next state, and this is all it can be. -/
theorem exec_ends (i : Instr) (s : State) : ∃ t, exec i s = .next t ∧ Ends i s t := by
  cases i with
  | xor =>
    refine exec_withInput (exec_xor s) fun hn => ⟨.inr (.inr rfl), rfl, .inr (.inr ⟨xorKey s.input, ?_, rfl⟩), rfl,
      .inl rfl, .inl rfl⟩
    simpa using hn
  | crc =>
    refine exec_withInput (exec_crc s) fun hn => ⟨.inr (.inr rfl), rfl, .inr (.inr ⟨trailer s.input, ?_, rfl⟩), rfl,
      .inl rfl, .inl rfl⟩
    simp [bufBytes]
  | crcchk =>
    refine exec_withInput (exec_crcchk s) fun _ => ?_
    unfold crcchkBody
    split
    · exact ends_raise _ _ _ _
    split
    · exact ends_raise _ _ _ _
    · exact ⟨.inr (.inr rfl), rfl, .inl rfl, rfl, .inl rfl, .inl rfl⟩
  | hdec =>
    refine exec_withInput (exec_hdec s) fun _ => ?_
    unfold hdecBody
    split
    · exact ends_raise _ _ _ _
    · exact ⟨.inr (.inr rfl), rfl, .inl rfl, rfl, .inl rfl, .inl rfl⟩
  | henc =>
    show ∃ t, execHenc s = .next t ∧ _
    unfold execHenc
    split
    · exact ⟨_, rfl, ends_raise _ _ _ _⟩
    · exact ⟨_, rfl, .inr (.inr rfl), rfl, .inr (.inr ⟨_, by simp [bufBytes], rfl⟩), rfl, .inl rfl, .inl rfl⟩
  | plen =>
    refine exec_withInput (exec_plen s) fun _ => ?_
    unfold plenBody
    split
    · exact ends_raise _ _ _ _
    · exact ⟨.inr (.inr rfl), rfl, .inl rfl, rfl, .inl rfl, .inl rfl⟩
  | disp b => exact ⟨_, rfl, ends_dispatch _ s _⟩
  | fenc =>
    refine exec_withInput (exec_fenc s) fun _ => ?_
    unfold fencBody
    split
    · exact ends_raise _ _ _ _
    split
    · exact ends_raise _ _ _ _
    · rename_i hn
      refine ⟨.inr (.inr rfl), rfl, .inr (.inr ⟨_, ?_, rfl⟩), rfl, .inl rfl, .inl rfl⟩
      simp only [frameEncode_length, maxPayload, bufBytes] at hn ⊢
      omega
  | fdec =>
    refine exec_withInput (exec_fdec s) fun hn => ?_
    unfold fdecBody
    split
    · exact ends_raise _ _ _ _
    · rename_i d hd
      refine ⟨.inr (.inl ⟨d.kind, rfl⟩), rfl, .inr (.inr ⟨d.payload, ?_, rfl⟩), rfl, .inl rfl, .inl rfl⟩
      have hp : d.payload.length ≤ s.input.length := by
        unfold frameDecode at hd
        repeat' split at hd
        all_goals cases hd
        simp; omega
      simp only [State.input_length] at hp
      omega
  | tidnext b =>
    show ∃ t, execTidnext b s = .next t ∧ _
    unfold execTidnext
    split
    · exact ⟨_, rfl, ends_raise _ _ _ _⟩
    · rename_i fc hfc
      exact ⟨_, rfl, .inr (.inr rfl), rfl, .inl rfl, rfl, .inr (.inr ⟨fc, _, by rw [fcByte_of_fcOfByte hfc], rfl⟩),
        .inl rfl⟩
  | tidobs b =>
    show ∃ t, execTidobs b s = .next t ∧ _
    unfold execTidobs
    split
    · exact ⟨_, rfl, ends_endError _ _ _⟩
    · rename_i fc hfc
      exact ⟨_, rfl, .inr (.inr rfl), rfl, .inl rfl, rfl, .inl rfl,
        .inr (.inr ⟨fc, by rw [fcByte_of_fcOfByte hfc], rfl⟩)⟩
  | tidrd b tsel =>
    show ∃ t, execTidrd b tsel s = .next t ∧ _
    unfold execTidrd
    split
    · exact ⟨_, rfl, ends_raise _ _ _ _⟩
    · refine ⟨_, rfl, ?_⟩
      unfold tidReport
      split <;> exact ⟨.inr (.inr rfl), rfl, .inl rfl, rfl, .inl rfl, .inl rfl⟩
  | tidclr => exact ⟨_, rfl, .inr (.inr rfl), rfl, .inl rfl, rfl, .inr (.inl rfl), .inr (.inl rfl)⟩
  | _ => exact exec_row rfl

/-- Step 2 of a command on any word: it ends, and it ends as `E_BADCMD` or as its instruction does. -/
theorem runCommand_cases (w : Word) (s : State) :
    (∃ e, decodeWord w = .error e ∧ runCommand w s = .next (s.endError .badCmd)) ∨
      ∃ i t, decodeWord w = .ok i ∧ runCommand w s = exec i s ∧ exec i s = .next t ∧ Ends i s t := by
  unfold runCommand
  cases decodeWord w with
  | error e => exact .inl ⟨e, rfl, rfl⟩
  | ok i =>
    obtain ⟨t, h, he⟩ := exec_ends i s
    exact .inr ⟨i, t, rfl, rfl, h, he⟩

end Sys2Proof.Machine
end

