-- ==== Sys2Proof/Laws/Host.lean ====
section
/-! SUPPORT. What a host access, a line of a host program and a step can do, once (20_memory.md rules R50 to R55, R60,
R61; 30_encoding.md rule R87; 70_reset_and_hazards.md rule R244). -/

namespace Sys2Proof.Machine

theorem State.windowOffset_base (s : State) (off : Nat) (h : off < 0x80000) : s.windowOffset (s.params.base + off) = .ok off := by
  simp [State.windowOffset, windowBytes]; omega

theorem State.windowOffset_reg (s : State) (r : Reg) : s.windowOffset (s.params.base + regOffset r) = .ok (regOffset r) := State.windowOffset_base _ _ (by cases r <;> decide)

theorem inIbuf_iff (a : Nat) : inIbuf a = true ↔ 0x20000 ≤ a ∧ a < 0x20000 + 65543 := by
  rw [inIbuf, Bool.and_eq_true, decide_eq_true_iff, decide_eq_true_iff]; exact Iff.rfl

theorem inObuf_iff (a : Nat) : inObuf a = true ↔ 0x40000 ≤ a ∧ a < 0x40000 + 65543 := by
  rw [inObuf, Bool.and_eq_true, decide_eq_true_iff, decide_eq_true_iff]; exact Iff.rfl

theorem inIbuf_add {i : Nat} (h : i < 65543) : inIbuf (0x20000 + i) = true := by rw [inIbuf_iff]; omega

theorem not_inIbuf_add {i : Nat} : inIbuf (0x40000 + i) = false := by rw [← Bool.not_eq_true, inIbuf_iff]; omega

theorem inObuf_add {i : Nat} (h : i < 65543) : inObuf (0x40000 + i) = true := by rw [inObuf_iff]; omega

theorem targetAt_reg (r : Reg) : targetAt .w32 (regOffset r) = .ok (.reg r) := by cases r <;> rfl

theorem targetAt_ibuf {i} (h : i < 65543) : targetAt .w8 (0x20000 + i) = .ok .ibuf := by
  unfold targetAt
  rw [if_neg (by simp [regWindowBytes]; omega), if_pos (inIbuf_add h)]; rfl

theorem targetAt_obuf {i} (h : i < 65543) : targetAt .w8 (0x40000 + i) = .ok .obuf := by
  unfold targetAt
  rw [if_neg (by simp [regWindowBytes]; omega), if_neg (by rw [not_inIbuf_add]; simp), if_pos (inObuf_add h)]; rfl

/-- What the bytes of the window read as after one byte is written. -/
theorem State.readByte_write (s : State) (a : Nat) (b : Byte) : ({ s with mem := memWrite s.mem a [b] } : State).readByte a = b ∧
   ∀ x, x ≠ a → ({ s with mem := memWrite s.mem a [b] } : State).readByte x = s.readByte x := by
  constructor
  · simp [State.readByte, memLookup_write]
  · intro x hx
    simp only [State.readByte, memLookup_write, State.freeByteAt]
    rw [if_neg (by simp; omega)]

/-- A host write of one byte of `IBUF` keeps the canonical form. -/
theorem memWf_ibufWrite {m : List Host.Cell} {off : Nat} {b : Byte} (h : Memory.wf m = true) (hi : inIbuf off = true) : Memory.wf (memWrite m off [b]) = true := by
  refine memWf_write h fun x h1 h2 => ?_
  obtain rfl : x = off := by simp at h2; omega
  rw [hi]; rfl

/-! ### Unspecified words -/

@[simp] theorem State.drawWord_fst (s : State) (off : Nat) : (s.drawWord off).1 = Config.freeWord s.draws off := rfl
@[simp] theorem State.drawWord_snd (s : State) (off : Nat) : (s.drawWord off).2 = { s with draws := s.draws + 1 } := rfl

/-- A value that fits is written as it stands. -/
theorem State.wordToWrite_fits (s : State) {w off v} (h : fits w v = true) :
    s.wordToWrite w off v = (BitVec.ofInt 32 v, s) := if_pos h

/-- A value that does not fit is written as a fresh unspecified word (R87; log 14). -/
theorem State.wordToWrite_misfit (s : State) {w off v} (h : fits w v = false) :
    s.wordToWrite w off v = (Config.freeWord s.draws off, { s with draws := s.draws + 1 }) :=
  if_neg (by simp [h])

/-- Choosing the word takes at most a draw. -/
theorem State.wordToWrite_state (s : State) (w : Width) (off : Nat) (v : Int) :
    (s.wordToWrite w off v).2 = { s with draws := (s.wordToWrite w off v).2.draws } := by
  unfold State.wordToWrite; split <;> rfl

theorem fits_iff (w : Width) (v : Int) : fits w v = true ↔ 0 ≤ v ∧ v < 2 ^ widthBits w := by simp [fits]

/-- A write to a register as the word and the draw counter it ends with. -/
theorem State.writeReg_draws (s : State) (d : Nat) (r : Reg) (x : Word) :
    ({ s with draws := d } : State).writeReg r x = { s.writeReg r x with draws := d } := by cases r <;> rfl

/-! ### Host writes -/

/-- What a host write to a register does while no command runs (R51, R54). -/
theorem hostWrite_reg {s : State} (hb : s.status.busy = false) (r : Reg) (v : Int) :
    hostWrite s .w32 (s.params.base + regOffset r) v =
      .ok { s.writeReg r (s.wordToWrite .w32 (regOffset r) v).1 with
            draws := (s.wordToWrite .w32 (regOffset r) v).2.draws } := by
  simp only [hostWrite, State.windowOffset_reg, targetAt_reg, State.writeTarget]
  rw [State.wordToWrite_state]
  simp [hb, State.writeReg_draws]

/-- What a host write to `IBUF` does while no command runs (R52, R54). -/
theorem hostWrite_ibuf {s : State} (hb : s.status.busy = false) {i : Nat} (hi : i < 65543) (v : Int) :
    hostWrite s .w8 (s.params.base + 0x20000 + i) v =
      .ok { s with mem := memWrite s.mem (0x20000 + i) [(s.wordToWrite .w8 (0x20000 + i) v).1.extractLsb' 0 8],
                   draws := (s.wordToWrite .w8 (0x20000 + i) v).2.draws } := by
  have ho : s.windowOffset (s.params.base + 0x20000 + i) = .ok (0x20000 + i) := by
    rw [Nat.add_assoc]; exact State.windowOffset_base _ _ (by omega)
  simp only [hostWrite, ho, targetAt_ibuf hi, State.writeTarget]
  rw [State.wordToWrite_state]
  simp [hb]

/-- A host write to a register of a value that fits (R51, R54). -/
theorem hostWrite_reg_fits {s : State} (hb : s.status.busy = false) (r : Reg) {n : Nat} (hn : n < 2 ^ 32) :
    hostWrite s .w32 (s.params.base + regOffset r) n = .ok (s.writeReg r (BitVec.ofNat 32 n)) := by
  rw [hostWrite_reg hb, State.wordToWrite_fits s ((fits_iff _ _).2 ⟨by omega, by simp only [widthBits]; omega⟩)]
  cases r <;> simp [State.writeReg, State.startCommand]

/-- A host write to `IBUF` of a value that fits (R52, R54). -/
theorem hostWrite_ibuf_fits {s : State} (hb : s.status.busy = false) {i : Nat} (hi : i < 65543) {n : Nat}
    (hn : n < 2 ^ 8) : hostWrite s .w8 (s.params.base + 0x20000 + i) n =
      .ok { s with mem := memWrite s.mem (0x20000 + i) [BitVec.ofNat 8 n] } := by
  rw [hostWrite_ibuf hb hi, State.wordToWrite_fits s ((fits_iff _ _).2 ⟨by omega, by simp only [widthBits]; omega⟩)]
  simp only [BitVec.ofInt_natCast]
  congr 4
  apply BitVec.eq_of_toNat_eq
  simp [BitVec.extractLsb']

/-- Every host write is refused while a command runs (R60). -/
theorem hostWrite_busy {s : State} (hb : s.status.busy = true) (w : Width) (a : Nat) (v : Int) :
    ∃ e, hostWrite s w a v = .error e := by
  unfold hostWrite
  split
  · exact ⟨_, rfl⟩
  split
  · exact ⟨_, rfl⟩
  rw [State.wordToWrite_state]
  unfold State.writeTarget
  split <;> simp [hb]

/-- What a width and an offset must be for each target (R51, R52). -/
theorem targetAt_cases {w off tg} (h : targetAt w off = .ok tg) :
    (∃ r, w = .w32 ∧ off = regOffset r ∧ tg = .reg r) ∨ (w = .w8 ∧ inIbuf off = true ∧ tg = .ibuf) ∨
      (w = .w8 ∧ inObuf off = true ∧ tg = .obuf) := by
  unfold targetAt at h
  split at h
  · split at h
    · cases h
    rename_i hw
    split at h
    · rename_i r hr
      cases h
      refine .inl ⟨r, by simpa using hw, ?_, rfl⟩
      unfold regAt at hr
      split at hr <;> cases hr <;> rfl
    · cases h
  split at h
  · rename_i hi
    split at h
    · cases h
    · rename_i hw; cases h; exact .inr (.inl ⟨by simpa using hw, hi, rfl⟩)
  split at h
  · rename_i hi
    split at h
    · cases h
    · rename_i hw; cases h; exact .inr (.inr ⟨by simpa using hw, hi, rfl⟩)
  · cases h

/-- A host address of the window is `BASE` and the offset. -/
theorem State.windowOffset_inv {s : State} {a off : Nat} (h : s.windowOffset a = .ok off) :
    a = s.params.base + off := by
  unfold State.windowOffset at h
  split at h
  · cases h
  · cases h; omega

/-- What a host write that is not refused is: no command runs, and a register or a byte of `IBUF` takes a word, which is
the value itself where it fits (R51, R52, R54, R60, R87). -/
theorem hostWrite_cases {s t : State} {w a v} (h : hostWrite s w a v = .ok t) : s.status.busy = false ∧
    ∃ (x : Word) (d : Nat), (fits w v = true → x = BitVec.ofInt 32 v ∧ d = s.draws) ∧
      ((∃ r, w = .w32 ∧ a = s.params.base + regOffset r ∧ t = { s.writeReg r x with draws := d }) ∨
       ∃ j, j < 65543 ∧ w = .w8 ∧ a = s.params.base + 0x20000 + j ∧
         t = { s with mem := memWrite s.mem (0x20000 + j) [x.extractLsb' 0 8], draws := d }) := by
  have hb : s.status.busy = false := by
    cases hb : s.status.busy
    · rfl
    · obtain ⟨e, he⟩ := hostWrite_busy hb w a v; rw [he] at h; cases h
  refine ⟨hb, ?_⟩
  have h0 := h
  unfold hostWrite at h
  split at h
  · cases h
  rename_i off ho
  have ha := State.windowOffset_inv ho
  split at h
  · cases h
  rename_i tg htg
  refine ⟨(s.wordToWrite w off v).1, (s.wordToWrite w off v).2.draws,
    fun hf => by rw [State.wordToWrite_fits s hf]; exact ⟨rfl, rfl⟩, ?_⟩
  obtain ⟨r, rfl, rfl, rfl⟩ | ⟨rfl, hi, rfl⟩ | ⟨rfl, hi, rfl⟩ := targetAt_cases htg
  · rw [ha, hostWrite_reg hb] at h0
    cases h0
    exact .inl ⟨r, rfl, ha, rfl⟩
  · obtain ⟨j, rfl⟩ : ∃ j, off = 0x20000 + j := ⟨off - 0x20000, by have := (inIbuf_iff off).1 hi; omega⟩
    have hj : j < 65543 := by have := (inIbuf_iff _).1 hi; omega
    rw [ha, ← Nat.add_assoc, hostWrite_ibuf hb hj] at h0
    cases h0
    exact .inr ⟨j, hj, rfl, by omega, rfl⟩
  · cases h

/-! ### Host reads -/

/-- What a host read of a register gives while no command runs (R54). -/
theorem hostRead_reg {s : State} (hb : s.status.busy = false) (r : Reg) :
    hostRead s .w32 (s.params.base + regOffset r) = .ok ((s.readReg r).toNat, s) := by
  simp only [hostRead, State.windowOffset_reg, targetAt_reg]
  cases r <;> simp [State.readTarget, hb]

/-- What a host read of `IBUF` gives (R54, R61). -/
theorem hostRead_ibuf (s : State) {i : Nat} (hi : i < 65543) :
    hostRead s .w8 (s.params.base + 0x20000 + i) = .ok ((s.readByte (0x20000 + i)).toNat, s) := by
  rw [Nat.add_assoc, hostRead, State.windowOffset_base _ _ (by omega)]
  simp only [targetAt_ibuf hi, State.readTarget]

/-- What a host read of `OBUF` gives while no command runs (R54). -/
theorem hostRead_obuf {s : State} (hb : s.status.busy = false) {i : Nat} (hi : i < 65543) :
    hostRead s .w8 (s.params.base + 0x40000 + i) = .ok ((s.readByte (0x40000 + i)).toNat, s) := by
  rw [Nat.add_assoc, hostRead, State.windowOffset_base _ _ (by omega)]
  simp [targetAt_obuf hi, State.readTarget, hb]

/-- A host read changes nothing but the draw counter, and that only while a command runs (R55, R61). -/
theorem hostRead_frame {s t : State} {w a v} (h : hostRead s w a = .ok (v, t)) : t = s ∨ (t = { s with draws := s.draws + 1 } ∧ s.status.busy = true) := by
  unfold hostRead at h
  split at h
  · cases h
  split at h
  · cases h
  injection h with h
  unfold State.readTarget at h
  split at h
  · cases h; exact .inl rfl
  · split at h
    · rename_i hb; cases h; exact .inr ⟨rfl, hb⟩
    · cases h; exact .inl rfl
  · cases h; exact .inl rfl
  · split at h
    · rename_i hb; cases h; exact .inr ⟨rfl, hb⟩
    · cases h; exact .inl rfl

/-- What a host agent can do to the block: nothing, a write to a register or a byte of `IBUF` while no command runs, and
in either case draws (R54, R60, R61, R87). -/
def HostMoves (s t : State) : Prop :=
  ∃ u, t = { u with draws := t.draws, hosts := t.hosts } ∧
    (u = s ∨ (s.status.busy = false ∧
      ((∃ r v, u = s.writeReg r v) ∨ ∃ off b, inIbuf off = true ∧ u = { s with mem := memWrite s.mem off [b] })))

/-- A change of the draw counter and the host agents alone. -/
theorem HostMoves.still {s t : State} (h : t = { s with draws := t.draws, hosts := t.hosts }) : HostMoves s t :=
  ⟨s, h, .inl rfl⟩

theorem State.masked_state (s : State) (v : Int) (mask : Nat) :
    (s.masked v mask).2 = { s with draws := (s.masked v mask).2.draws } := by
  unfold State.masked; split <;> rfl

/-- What one line of a host program can do to the block (R87). -/
theorem hostAct_frame {k} {s t : State} {a b : HostAgent} {x} (h : hostAct k s a x = .ok (b, t)) : HostMoves s t := by
  have R : ∀ w addr x, readAction s a w addr x = .ok (b, t) → HostMoves s t := by
    intro w addr x h
    unfold readAction at h
    split at h
    · cases h
    · rename_i v s' h'
      cases h
      rcases hostRead_frame h' with h | ⟨h, -⟩ <;> exact .still (by rw [h])
  have W : ∀ w addr v, writeAction s a w addr v = .ok (b, t) → HostMoves s t := by
    intro w addr v h
    unfold writeAction at h
    split at h
    · cases h
    · rename_i s' h'
      cases h
      obtain ⟨hb, x, d, -, ⟨r, -, -, rfl⟩ | ⟨j, hj, -, -, rfl⟩⟩ := hostWrite_cases h'
      · exact ⟨s.writeReg r x, rfl, .inr ⟨hb, .inl ⟨r, x, rfl⟩⟩⟩
      · exact ⟨_, rfl, .inr ⟨hb, .inr ⟨_, _, inIbuf_add hj, rfl⟩⟩⟩
  have B : ∀ u l, branchAction u a l = .ok (b, t) → t = u := by
    intro u l h
    unfold branchAction at h
    cases hb : a.branch l <;> rw [hb] at h <;> cases h
    rfl
  cases x <;> simp only [hostAct] at h
  case wr => exact W _ _ _ h
  case rd => exact R _ _ _ h
  case wb => exact W _ _ _ h
  case rb => exact R _ _ _ h
  case load => exact R _ _ _ h
  case store => exact W _ _ _ h
  case bnz =>
    unfold bnzAction at h
    split at h
    · rw [B _ _ h]; exact .still (by rw [State.masked_state])
    · cases h; exact .still (by rw [State.masked_state])
  case jmp => rw [B _ _ h]; exact .still rfl
  all_goals cases h; exact .still rfl

/-- What a host step can do to the block. -/
theorem hostStep_frame {s t : State} {k} (h : hostStep k s = .next t) : HostMoves s t := by
  unfold hostStep at h
  split at h
  · cases h; exact .still rfl
  split at h
  · cases h; exact .still rfl
  split at h
  · cases h
  · rename_i a' s' h'
    cases h
    obtain ⟨u, hu, hc⟩ := hostAct_frame h'
    exact ⟨u, by rw [hu], hc⟩

/-! ### Host variables and labels -/

theorem varGet_append (xs ys : List (Nat × Int)) (u : Nat) : varGet (xs ++ ys) u = (varGet xs u).or (varGet ys u) := by
  induction xs with
  | nil => simp [varGet]
  | cons c xs ih => obtain ⟨k, w⟩ := c; by_cases h : k = u <;> simp [varGet, h, ih]

theorem varGet_filter (p : Nat → Bool) (xs : List (Nat × Int)) (u : Nat) :
    varGet (xs.filter fun c => p c.1) u = if p u then varGet xs u else none := by
  induction xs with
  | nil => simp [varGet]
  | cons c xs ih =>
    obtain ⟨k, w⟩ := c
    by_cases hk : k = u
    · subst hk; by_cases hp : p k <;> simp [varGet, hp, ih]
    · by_cases hp : p k <;> simp [varGet, hp, hk, ih]

@[simp] theorem varGet_varSet_self (vs : List (Nat × Int)) (x : Nat) (v : Int) : varGet (varSet vs x v) x = some v := by
  simp [varSet, varGet_append, varGet_filter (fun k => decide (k < x)), varGet]

theorem varGet_varSet_other (vs : List (Nat × Int)) {x u : Nat} (v : Int) (h : u ≠ x) :
    varGet (varSet vs x v) u = varGet vs u := by
  simp only [varSet, varGet_append, varGet_filter (fun k => decide (k < x)), varGet,
    varGet_filter (fun k => decide (x < k)), if_neg (Ne.symm h)]
  rcases Nat.lt_or_gt_of_ne h with h | h
  · simp [h, Nat.lt_asymm h]
  · simp [h, Nat.lt_asymm h]

theorem HostAgent.value_set {k : Nat} {a : HostAgent} {x : Nat} {z : Int} (h : varGet a.vars x = some z) :
    a.value k x = z := by simp [HostAgent.value, h]

theorem HostAgent.value_unset {k : Nat} {a : HostAgent} {x : Nat} (h : varGet a.vars x = none) :
    a.value k x = Config.freeVar k x := by simp [HostAgent.value, h]

/-- A branch to a label of the program goes to a line that bears it. -/
theorem HostAgent.branch_ok {a : HostAgent} {l : Nat} (h : .label l ∈ a.prog) :
    ∃ i, a.branch l = .ok { a with pc := i } ∧ a.prog[i]? = some (.label l) := by
  unfold HostAgent.branch
  cases hi : a.prog.findIdx? (fun x => decide (x = .label l)) with
  | none => rw [List.findIdx?_eq_none_iff] at hi; have := hi _ h; simp at this
  | some i =>
    rw [List.findIdx?_eq_some_iff_getElem] at hi
    obtain ⟨hlt, h1, _⟩ := hi
    exact ⟨i, rfl, by rw [List.getElem?_eq_getElem hlt]; simpa using h1⟩

/-! ### Steps -/

/-- A host step at a known line. -/
theorem hostStep_of {s k a x} (ha : s.hosts[k]? = some a) (hx : a.prog[a.pc]? = some x) : hostStep k s = match hostAct k s a x with
      | .error e => .refused e
      | .ok (a', s') => .next { s' with hosts := s'.hosts.set k a' } := by
  simp only [hostStep, ha, hx] <;> rfl

/-- Taking the event changes nothing but the list of events. -/
theorem State.takeEvent_state (s : State) : s.takeEvent.2 = { s with events := s.events.tail } := by
  obtain ⟨es, h⟩ : ∃ es, s.events = es := ⟨_, rfl⟩
  cases es <;> simp [State.takeEvent, h]
  cases s; simp_all

theorem State.takeEvent_cons {s : State} {e : Event} {es : List Event} (h : s.events = e :: es) :
    s.takeEvent = (some e, { s with events := es }) := by simp [State.takeEvent, h]

theorem State.takeEvent_nil {s : State} (h : s.events = []) : s.takeEvent = (s.defaultEvent, s) := by
  simp [State.takeEvent, h]

/-- What a step is, by the event it takes. -/
theorem step_eq (s : State) : step s = match s.takeEvent.1 with
    | some .block => blockStep s.takeEvent.2
    | some (.host k) => hostStep k s.takeEvent.2
    | some (.reset strap) => .next (s.takeEvent.2.applyReset strap)
    | none => .next s.takeEvent.2 := by
  unfold step
  split <;> simp_all

/-- What a step is: an event is taken, and the block, an agent or reset moves, or nothing does. -/
theorem step_cases {s t : State} (h : step s = .next t) : ∃ u, s.takeEvent.2 = u ∧ u = { s with events := u.events } ∧
   ((s.takeEvent.1 = some .block ∧ blockStep u = .next t) ∨ (∃ k, s.takeEvent.1 = some (.host k) ∧ hostStep k u = .next t) ∨ (∃ r, s.events.head? = some (.reset r) ∧ t = u.applyReset r) ∨ t = u) := by
  refine ⟨_, rfl, ?_, ?_⟩
  · unfold State.takeEvent; split <;> rfl
  · unfold step at h
    generalize hp : s.takeEvent = p at *
    obtain ⟨e, u⟩ := p
    split at h
    · rename_i he; cases he; exact .inl ⟨rfl, h⟩
    · rename_i he; cases he; exact .inr (.inl ⟨_, rfl, h⟩)
    · rename_i r t' he; cases he; cases h
      refine .inr (.inr (.inl ⟨r, ?_, rfl⟩))
      unfold State.takeEvent at hp
      split at hp
      · rename_i he; cases hp; rw [he]; rfl
      · unfold State.defaultEvent at hp; split at hp
        · cases hp
        · cases hq : List.findIdx? (fun a => !HostAgent.ended a) s.hosts <;> rw [hq] at hp <;> cases hp
    · rename_i he; cases he; cases h; exact .inr (.inr (.inr rfl))

end Sys2Proof.Machine
end

