-- ==== Sys2Proof/Laws/PerInstr.lean ====
section
/-! SUPPORT. One fact about every instruction's encoding: the bits it encodes to lie in its row of
spec/opcode_table.json, under the row's match and mask (30_encoding.md rule R84; 43_frame.md rules R152, R153). -/

namespace Sys2Proof.Laws.RowPattern

/-- The match column of spec/opcode_table.json. -/
def rowMatch : Instr → Nat
  | .xor => 0x00000001
  | .crc => 0x00000002
  | .crcchk => 0x00000003
  | .hdec => 0x00000004
  | .henc => 0x00000005
  | .plen => 0x00000006
  | .disp _ => 0x00000007
  | .fenc => 0x00000008
  | .fdec => 0x00000009
  | .tidnext _ => 0x0000000A
  | .tidobs _ => 0x0000000B
  | .tidrd _ _ => 0x0000000C
  | .tidclr => 0x0000000D
  | .fcAnnounceServer => 0x03
  | .fcDataServer => 0x04
  | .fcReadRegistersServer => 0x05
  | .fcWriteSingleServer => 0x06
  | .fcWriteMultipleServer => 0x10
  | .fcPingServer => 0x16
  | .fcSetConfigServer => 0x18
  | .fcGetConfigServer => 0x19
  | .fcBufferedDataServer => 0x50
  | .fcAnnounceClient => 0x03
  | .fcDataClient => 0x04
  | .fcReadRegistersClient => 0x05
  | .fcWriteSingleClient => 0x06
  | .fcWriteMultipleClient => 0x10
  | .fcPingClient => 0x16
  | .fcSetConfigClient => 0x18
  | .fcGetConfigClient => 0x19
  | .fcBufferedDataClient => 0x50

/-- The mask column of spec/opcode_table.json. -/
def rowMask : Instr → Nat
  | .xor => 0xFFFFFFFF
  | .crc => 0xFFFFFFFF
  | .crcchk => 0xFFFFFFFF
  | .hdec => 0xFFFFFFFF
  | .henc => 0xFFFFFFFF
  | .plen => 0xFFFFFFFF
  | .disp _ => 0xFFFF00FF
  | .fenc => 0xFFFFFFFF
  | .fdec => 0xFFFFFFFF
  | .tidnext _ => 0xFFFF00FF
  | .tidobs _ => 0xFFFF00FF
  | .tidrd _ _ => 0xFFFE00FF
  | .tidclr => 0xFFFFFFFF
  | .fcAnnounceServer => 0xFF
  | .fcDataServer => 0xFF
  | .fcReadRegistersServer => 0xFF
  | .fcWriteSingleServer => 0xFF
  | .fcWriteMultipleServer => 0xFF
  | .fcPingServer => 0xFF
  | .fcSetConfigServer => 0xFF
  | .fcGetConfigServer => 0xFF
  | .fcBufferedDataServer => 0xFF
  | .fcAnnounceClient => 0xFF
  | .fcDataClient => 0xFF
  | .fcReadRegistersClient => 0xFF
  | .fcWriteSingleClient => 0xFF
  | .fcWriteMultipleClient => 0xFF
  | .fcPingClient => 0xFF
  | .fcSetConfigClient => 0xFF
  | .fcGetConfigClient => 0xFF
  | .fcBufferedDataClient => 0xFF

/-- The bits an instruction encodes to: a command word, or a function-code byte. -/
def rowBits (i : Instr) : Word :=
  match encodeWord i, encodeFrameByte i with
  | some w, _ => w
  | none, some (_, b) => b.zeroExtend 32
  | none, none => 0

/-- An instruction's bits, under its row's mask, are its row's match. -/
def Statement (i : Instr) : Prop := rowBits i &&& BitVec.ofNat 32 (rowMask i) = BitVec.ofNat 32 (rowMatch i)

theorem assembleWord_mask_fcsel (op fcsel : Byte) :
    assembleWord op fcsel 0 &&& 0xFFFF00FF#32 = op.zeroExtend 32 := by
  ext k hk
  simp only [assembleWord, BitVec.getElem_and, BitVec.getElem_append]
  interval_cases k <;> simp

theorem assembleWord_mask_tsel (op fcsel : Byte) (tsel : BitVec 1) :
    assembleWord op fcsel tsel &&& 0xFFFE00FF#32 = op.zeroExtend 32 := by
  ext k hk
  simp only [assembleWord, BitVec.getElem_and, BitVec.getElem_append]
  interval_cases k <;> simp

theorem xor : Statement .xor := by unfold Statement; decide
theorem crc : Statement .crc := by unfold Statement; decide
theorem crcchk : Statement .crcchk := by unfold Statement; decide
theorem hdec : Statement .hdec := by unfold Statement; decide
theorem henc : Statement .henc := by unfold Statement; decide
theorem plen : Statement .plen := by unfold Statement; decide
theorem disp (fcsel : Byte) : Statement (.disp fcsel) := assembleWord_mask_fcsel _ _
theorem fenc : Statement .fenc := by unfold Statement; decide
theorem fdec : Statement .fdec := by unfold Statement; decide
theorem tidnext (fcsel : Byte) : Statement (.tidnext fcsel) := assembleWord_mask_fcsel _ _
theorem tidobs (fcsel : Byte) : Statement (.tidobs fcsel) := assembleWord_mask_fcsel _ _
theorem tidrd (fcsel : Byte) (tsel : BitVec 1) : Statement (.tidrd fcsel tsel) := assembleWord_mask_tsel _ _ _
theorem tidclr : Statement .tidclr := by unfold Statement; decide
theorem fcAnnounceServer : Statement .fcAnnounceServer := by unfold Statement; decide
theorem fcDataServer : Statement .fcDataServer := by unfold Statement; decide
theorem fcReadRegistersServer : Statement .fcReadRegistersServer := by unfold Statement; decide
theorem fcWriteSingleServer : Statement .fcWriteSingleServer := by unfold Statement; decide
theorem fcWriteMultipleServer : Statement .fcWriteMultipleServer := by unfold Statement; decide
theorem fcPingServer : Statement .fcPingServer := by unfold Statement; decide
theorem fcSetConfigServer : Statement .fcSetConfigServer := by unfold Statement; decide
theorem fcGetConfigServer : Statement .fcGetConfigServer := by unfold Statement; decide
theorem fcBufferedDataServer : Statement .fcBufferedDataServer := by unfold Statement; decide
theorem fcAnnounceClient : Statement .fcAnnounceClient := by unfold Statement; decide
theorem fcDataClient : Statement .fcDataClient := by unfold Statement; decide
theorem fcReadRegistersClient : Statement .fcReadRegistersClient := by unfold Statement; decide
theorem fcWriteSingleClient : Statement .fcWriteSingleClient := by unfold Statement; decide
theorem fcWriteMultipleClient : Statement .fcWriteMultipleClient := by unfold Statement; decide
theorem fcPingClient : Statement .fcPingClient := by unfold Statement; decide
theorem fcSetConfigClient : Statement .fcSetConfigClient := by unfold Statement; decide
theorem fcGetConfigClient : Statement .fcGetConfigClient := by unfold Statement; decide
theorem fcBufferedDataClient : Statement .fcBufferedDataClient := by unfold Statement; decide

end Sys2Proof.Laws.RowPattern
end

