-- ==== Sys2Proof/Tests/Slice0.lean ====
section
/-! SUPPORT. Tests of the model: ill-formed words, decoding, one step of each instruction, and a state that meets the
hypotheses of each statement. Expected values come from spec/30_encoding.md and the vectors of
spec/95_test_vectors.md, whose ids stand in the comments; none comes from the model. -/

open Sys2Proof Sys2Proof.Machine Sys2Proof.Claims

namespace Sys2Proof.Tests

set_option Elab.async false

/-! ## Ill-formed words: each of the four checks of R83 refuses one -/

theorem test_illformed_reserved_op :
    ({ op := 0x0E, fcsel := 0, tsel := 0, reserved := 0 } : CmdFields).wellFormed = false := by decide +kernel

theorem test_illformed_reserved_bits :
    ({ op := 0x0C, fcsel := 0x16, tsel := 1, reserved := 1 } : CmdFields).wellFormed = false := by decide +kernel

theorem test_illformed_unused_fcsel :
    ({ op := 0x01, fcsel := 0x16, tsel := 0, reserved := 0 } : CmdFields).wellFormed = false := by decide +kernel

theorem test_illformed_unused_tsel :
    ({ op := 0x0A, fcsel := 0, tsel := 1, reserved := 0 } : CmdFields).wellFormed = false := by decide +kernel

theorem test_wellformed_tidrd :
    ({ op := 0x0C, fcsel := 0xFF, tsel := 1, reserved := 0 } : CmdFields).wellFormed = true := by decide +kernel

/-! ## Decoding: words written out from R79, R82 and R84, field by field -/

/-- Reserved 15 bits, `TSEL` 1, `FCSEL` 8, `OP` 8. -/
theorem test_decode_plain_commands :
    decodeWord 0b000000000000000_0_00000000_00000001 = .ok .xor ∧
    decodeWord 0b000000000000000_0_00000000_00000010 = .ok .crc ∧
    decodeWord 0b000000000000000_0_00000000_00000011 = .ok .crcchk ∧
    decodeWord 0b000000000000000_0_00000000_00000100 = .ok .hdec ∧
    decodeWord 0b000000000000000_0_00000000_00000101 = .ok .henc ∧
    decodeWord 0b000000000000000_0_00000000_00000110 = .ok .plen ∧
    decodeWord 0b000000000000000_0_00000000_00001000 = .ok .fenc ∧
    decodeWord 0b000000000000000_0_00000000_00001001 = .ok .fdec ∧
    decodeWord 0b000000000000000_0_00000000_00001101 = .ok .tidclr := by decide +kernel

theorem test_decode_operand_commands :
    decodeWord 0b000000000000000_0_01010000_00000111 = .ok (.disp 0x50) ∧
    decodeWord 0b000000000000000_0_00010110_00001010 = .ok (.tidnext 0x16) ∧
    decodeWord 0b000000000000000_0_00000011_00001011 = .ok (.tidobs 0x03) ∧
    decodeWord 0b000000000000000_1_00011001_00001100 = .ok (.tidrd 0x19 1) ∧
    decodeWord 0b000000000000000_0_11111111_00001100 = .ok (.tidrd 0xFF 0) := by decide +kernel

/-- W-1 to W-10: illegal words. -/
theorem test_decode_illegal :
    ([0x00000000, 0x0000000E, 0x000000FF, 0x00020001, 0x80000009, 0x00001601, 0x00010001, 0x0001000A, 0x0000010D,
      0x00021909].all fun w => (decodeWord w).toOption.isNone) = true := by decide +kernel

/-- The function-code bytes of R74 under each role (R76, R152, R153). -/
theorem test_decode_server_bytes :
    decodeFrameByte .server 0x03 = .ok .fcAnnounceServer ∧ decodeFrameByte .server 0x04 = .ok .fcDataServer ∧
    decodeFrameByte .server 0x05 = .ok .fcReadRegistersServer ∧
    decodeFrameByte .server 0x06 = .ok .fcWriteSingleServer ∧
    decodeFrameByte .server 0x10 = .ok .fcWriteMultipleServer ∧ decodeFrameByte .server 0x16 = .ok .fcPingServer ∧
    decodeFrameByte .server 0x18 = .ok .fcSetConfigServer ∧ decodeFrameByte .server 0x19 = .ok .fcGetConfigServer ∧
    decodeFrameByte .server 0x50 = .ok .fcBufferedDataServer ∧
    decodeFrameByte .server 0x17 = .error .unknownFunctionCode := by decide +kernel

theorem test_decode_client_bytes :
    decodeFrameByte .client 0x03 = .ok .fcAnnounceClient ∧ decodeFrameByte .client 0x04 = .ok .fcDataClient ∧
    decodeFrameByte .client 0x05 = .ok .fcReadRegistersClient ∧
    decodeFrameByte .client 0x06 = .ok .fcWriteSingleClient ∧
    decodeFrameByte .client 0x10 = .ok .fcWriteMultipleClient ∧ decodeFrameByte .client 0x16 = .ok .fcPingClient ∧
    decodeFrameByte .client 0x18 = .ok .fcSetConfigClient ∧ decodeFrameByte .client 0x19 = .ok .fcGetConfigClient ∧
    decodeFrameByte .client 0x50 = .ok .fcBufferedDataClient ∧
    decodeFrameByte .client 0xFF = .error .unknownFunctionCode := by decide +kernel

/-! ## States -/

/-- After reset, with a base that is not 0. -/
def idle (role : Role) : State := State.resetWith role { tidFirst := 1, base := 0x1000 }

/-- A command has been started on the given input. -/
def started (role : Role) (bs : List Byte) : State :=
  { idle role with
    mem := memCells ibufBase bs, ilen := BitVec.ofNat 17 bs.length, status := statusStarted, inflight := some 0x09 }

/-- As `started`, with header registers. -/
def header (bs : List Byte) (tid pid : Half) (uid fc : Byte) : State :=
  { started .server bs with htid := tid, hpid := pid, hufc := { uid := uid, fc := fc } }

/-- A command has been started and `ILEN` holds a length. -/
def ofLength (n : BitVec 17) : State := { started .server [] with ilen := n }

theorem next_of {o : Host.Outcome State Fault Refusal} {P : State → Prop} [DecidablePred P]
    (h : (match o with | .next t => decide (P t) | _ => false) = true) : ∃ t, o = .next t ∧ P t := by
  match o, h with
  | .next t, h => exact ⟨t, rfl, of_decide_eq_true h⟩

theorem ok_of {α : Type} {o : Except Refusal α} (h : (match o with | .ok _ => true | .error _ => false) = true) :
    ∃ t, o = .ok t := by
  match o, h with
  | .ok t, _ => exact ⟨t, rfl⟩

/-- What can be seen of the state an instruction leads to. -/
def seen {α : Type} (i : Instr) (s : State) (f : State → α) : Option α :=
  match exec i s with
  | .next t => some (f t)
  | _ => none

/-- `STATUS` after an instruction. -/
def statusAfter (i : Instr) (s : State) : Option Word := seen i s fun t => t.readReg .status

/-- The plaintext of vector X-6 and the frame of section 1.1. -/
def serial : List Byte := [0x58, 0x47, 0x44, 0x34, 0x41, 0x34, 0x39, 0x41, 0x47, 0x43]

def ping : List Byte :=
  [0x00, 0x02, 0x00, 0x06, 0x00, 0x0C, 0x01, 0x16, 0x1F, 0x35, 0x2B, 0x43, 0x20, 0x40, 0x4D, 0x06, 0x35, 0x2C,
   0x15, 0x7C]

/-! ## One step of each instruction -/

/-- X-7. -/
theorem test_xor_phase_wraps :
    seen .xor (started .server (List.replicate 15 0x01))
      (fun t => (t.readReg .status, t.readReg .olen, t.readBytes obufBase 15)) =
    some (0x00000002, 15, [0x46, 0x73, 0x6E, 0x76, 0x60, 0x75, 0x75, 0x46, 0x73, 0x6E, 0x76, 0x60, 0x75, 0x75, 0x46]) := by
  decide +kernel

/-- C-4. -/
theorem test_crc_of_digits :
    seen .crc (started .server [0x31, 0x32, 0x33, 0x34, 0x35, 0x36, 0x37, 0x38, 0x39])
      (fun t => (t.readReg .status, t.readReg .olen, t.readReg .result, t.readBytes obufBase 2)) =
    some (0x00000002, 2, 0x0000374B, [0x4B, 0x37]) := by
  decide +kernel

/-- CK-7. -/
theorem test_crcchk_passes :
    seen .crcchk (started .server ping) (fun t => (t.readReg .status, t.readReg .result)) =
    some (0x00000002, 0x00007C15) := by
  decide +kernel

/-- CK-6: the trailer low byte first. -/
theorem test_crcchk_wrong_order : statusAfter .crcchk (started .server [0x00, 0xBF, 0x40]) = some 0x00000606 := by
  decide +kernel

/-- H-7: a header and two more bytes. -/
theorem test_hdec :
    seen .hdec (started .server [0x00, 0x02, 0x00, 0x06, 0x00, 0x0C, 0x01, 0x16, 0xAA, 0xBB])
      (fun t => [t.readReg .status, t.readReg .htid, t.readReg .hpid, t.readReg .hlen, t.readReg .hufc]) =
    some [0x00000002, 0x0002, 0x0006, 0x000C, 0x00001601] := by
  decide +kernel

/-- H-5. -/
theorem test_hdec_unknown :
    statusAfter .hdec (started .server [0x00, 0x02, 0x00, 0x06, 0x00, 0x0C, 0x01, 0x17]) = some 0x00000406 := by
  decide +kernel

/-- E-1. -/
theorem test_henc :
    seen .henc { header [] 2 6 1 0x16 with hlen := 12 }
      (fun t => (t.readReg .status, t.readReg .olen, t.readBytes obufBase 8)) =
    some (0x00000002, 8, [0x00, 0x02, 0x00, 0x06, 0x00, 0x0C, 0x01, 0x16]) := by
  decide +kernel

/-- RS-7, and W-17: `HENC` does not check `ILEN`. -/
theorem test_henc_after_reset : statusAfter .henc (ofLength 131071) = some 0x00000406 := by decide +kernel

/-- L-3. -/
theorem test_plen :
    seen .plen (started .server [0, 0, 0, 0, 0xFF, 0xFF, 0, 0x03]) (fun t => (t.readReg .status, t.readReg .result)) =
    some (0x00000002, 0x0000FFFF) := by
  decide +kernel

/-- D-3: one code, both roles. -/
theorem test_disp_by_role :
    statusAfter (.disp 0x05) (started .server []) = some 0x000A0002 ∧
    statusAfter (.disp 0x05) (started .client []) = some 0x00000706 := by
  decide +kernel

/-- FE-1. -/
theorem test_fenc_ping :
    seen .fenc (header serial 2 6 1 0x16)
      (fun t => ([t.readReg .status, t.readReg .olen, t.readReg .hlen, t.readReg .result], t.readBytes obufBase 20)) =
    some ([0x00000002, 20, 0x000C, 0x00007C15], ping) := by
  decide +kernel

/-- FR-1. -/
theorem test_fdec_ping :
    seen .fdec (started .server ping)
      (fun t => ([t.readReg .status, t.readReg .htid, t.readReg .hpid, t.readReg .hlen, t.readReg .hufc,
        t.readReg .olen, t.readReg .result], t.readBytes obufBase 10)) =
    some ([0x00040002, 0x0002, 0x0006, 0x000C, 0x00001601, 10, 0x00007C15], serial) := by
  decide +kernel

/-- FR-13: the function code is checked before the length. -/
theorem test_fdec_precedence :
    statusAfter .fdec (started .client [0x00, 0x02, 0x00, 0x06, 0x00, 0x0C, 0x01, 0x17, 0x00]) = some 0x00000406 := by
  decide +kernel

/-- T-1. -/
theorem test_tidnext_first :
    seen (.tidnext 0x16) (started .server [])
      (fun t => ([t.readReg .status, t.readReg .result, t.readReg .htid, t.readReg .hufc], tidGet t.txLast .ping)) =
    some ([0x00000002, 0x00010001, 0x0001, 0x00001600], some 1) := by
  decide +kernel

/-- T-19: after 0xFFFF comes 0. -/
theorem test_tidnext_wraps :
    seen (.tidnext 0x19) { started .server [] with txLast := tidSet TidTable.empty .getConfig (some 0xFFFF) }
      (fun t => (t.readReg .result, tidGet t.txLast .getConfig)) = some (0x00010000, some 0) := by
  decide +kernel

/-- T-6. -/
theorem test_tidobs :
    seen (.tidobs 0x03) { started .server [] with htid := 5 }
      (fun t => (t.readReg .status, t.readReg .result, tidGet t.rxLast .announce, tidGet t.txLast .announce)) =
    some (0x00000002, 0, some 5, none) := by
  decide +kernel

/-- T-10: an entry that holds 0 is not empty. -/
theorem test_tidrd_zero :
    seen (.tidrd 0x04 1) { started .server [] with rxLast := tidSet TidTable.empty .data (some 0) }
      (fun t => t.readReg .result) = some 0x00010000 := by
  decide +kernel

/-- T-8: the other table's entry is empty. -/
theorem test_tidrd_other_table :
    seen (.tidrd 0x03 0) { started .server [] with rxLast := tidSet TidTable.empty .announce (some 5) }
      (fun t => t.readReg .result) = some 0x00000000 := by
  decide +kernel

/-- T-11. -/
theorem test_tidclr :
    seen .tidclr { started .server [] with rxLast := tidSet TidTable.empty .announce (some 5) }
      (fun t => (t.readReg .status, t.txLast, t.rxLast)) = some (0x00000002, TidTable.empty, TidTable.empty) := by
  decide +kernel

/-- D-1 to D-9, ROLE = SERVER. -/
theorem test_server_rows :
    [Instr.fcAnnounceServer, .fcDataServer, .fcReadRegistersServer, .fcWriteSingleServer, .fcWriteMultipleServer,
     .fcPingServer, .fcSetConfigServer, .fcGetConfigServer, .fcBufferedDataServer].map
       (fun i => statusAfter i (started .server [])) =
    [some 0x00010002, some 0x00020002, some 0x000A0002, some 0x000B0002, some 0x000C0002, some 0x00040002,
     some 0x00090002, some 0x00070002, some 0x00030002] := by
  decide +kernel

/-- D-1 to D-9, ROLE = CLIENT. -/
theorem test_client_rows :
    [Instr.fcAnnounceClient, .fcDataClient, .fcReadRegistersClient, .fcWriteSingleClient, .fcWriteMultipleClient,
     .fcPingClient, .fcSetConfigClient, .fcGetConfigClient, .fcBufferedDataClient].map
       (fun i => statusAfter i (started .client [])) =
    [some 0x00050002, some 0x00050002, some 0x00000706, some 0x00000706, some 0x00000706, some 0x00040002,
     some 0x00080002, some 0x00060002, some 0x00050002] := by
  decide +kernel

/-- W-1: an illegal word. -/
theorem test_bad_command : (match runCommand 0 (started .server []) with
    | .next t => some (t.readReg .status) | _ => none) = some 0x00000106 := by
  decide +kernel

/-- The codes of R200 that no other test reads from `STATUS`: L-4 (E_SHORT), FR-16 (E_LENGTH), and R157's corner case
`n = 65534` (E_TOO_LONG). -/
theorem test_other_error_codes :
    statusAfter .plen (ofLength 7) = some 0x00000306 ∧
    statusAfter .fdec (started .server [0, 0, 0, 0, 0, 1, 0, 3, 0xFF]) = some 0x00000506 ∧
    statusAfter .fenc { header [] 1 6 1 0x03 with ilen := 65534 } = some 0x00000806 := by
  decide +kernel

/-- W-15: `ILEN` above `BUF_BYTES`. -/
theorem test_ilen : statusAfter .fenc (ofLength 65544) = some 0x00000206 := by decide +kernel

/-- `step` runs what `withFetchWord` puts in place: T-1's word right after reset. -/
theorem test_step_after_reset : (match step (State.reset.withFetchWord 32 0x0000160A) with
    | .next t => some (t.readReg .status, t.readReg .result, t.events) | _ => none) =
      some (0x00000002, 0x00010001, []) := by
  decide +kernel

/-- P4's `mov n, 8 + L` with `L = 12`. -/
theorem test_mov : exprValue 0 { prog := [], pc := 0, vars := [(1, 12)] } (.add (.lit 8) (.var 1)) = 20 := by decide

/-- RS-1 to RS-4. -/
theorem test_reset_values :
    [Reg.cmd, .status, .ilen, .olen, .htid, .hpid, .hlen, .hufc, .result, .config].map (idle .client).readReg =
      [0, 0, 0, 0, 0, 0, 0, 0, 0, 1] := by
  decide +kernel

/-! ## States that meet the hypotheses of the statements -/

/-- `started` with a command word and a host agent at the first line of a program, the host moving next. -/
def withHost (s : State) (prog : List HostAction) : State :=
  { s with hosts := [{ prog := prog, pc := 0, vars := [(0, 6), (1, 7), (3, -1), (4, 0x100000000)] }], events := [.host 0] }

/-- A command runs, whose word is `FDEC`. -/
def busy : State := started .server ping

/-- R87 states no result for a value that does not fit: the write takes place, and the agent goes on. -/
theorem test_misfit_values_run :
    [HostAction.wr .ilen (.var 3), .wr .htid (.var 4), .wr .cmd (.var 3), .wb 0 (.var 3)].map (fun x =>
      match step (withHost (idle .server) [x]) with
      | .next t => some (t.status.busy, t.hosts.map (·.pc)) | _ => none) =
    [some (false, [1]), some (false, [1]), some (true, [1]), some (false, [1])] := by
  decide +kernel

theorem busy_inv : busy.Inv := ⟨by decide +kernel, by decide, by decide, by decide, by decide⟩

/-- The block has ended a command with `E_CRC`. -/
def failed : State := busy.endError .crc

theorem failed_inv : failed.Inv := ⟨by decide +kernel, by decide, by decide, by decide, by decide⟩

theorem test_witness_DecodeOfEncodeIsTheInstruction :
    (Instr.tidrd 0xFF 1).wellFormed = true ∧ encodeWord (.tidrd 0xFF 1) = some 0x0001FF0C ∧
    Instr.fcBufferedDataClient.wellFormed = true ∧ encodeFrameByte .fcBufferedDataClient = some (.client, 0x50) := by
  decide +kernel

theorem test_witness_DecodedWordEncodesBack : decodeWord 0x0001FF0C = .ok (.tidrd 0xFF 1) := by decide +kernel

/-- The words of R83. -/
def illegalWord (w : Word) : Prop :=
  let op := w.extractLsb' 0 8
  (op = 0x00 ∨ (0x0E ≤ op.toNat ∧ op.toNat ≤ 0xFF)) ∨ (∃ k, 17 ≤ k ∧ k ≤ 31 ∧ w.getLsbD k = true) ∨
    (op ∉ [0x07#8, 0x0A#8, 0x0B#8, 0x0C#8] ∧ w.extractLsb' 8 8 ≠ 0) ∨ (op ≠ 0x0C ∧ w.getLsbD 16 = true)

theorem test_witness_IllegalWordsEndWithBadCommand :
    illegalWord 0x00000000 ∧ illegalWord 0x0000000E ∧ illegalWord 0x000000FF ∧ illegalWord 0x0002000C ∧
    illegalWord 0x8000000C ∧ illegalWord 0x00000101 ∧ illegalWord 0x0001000A ∧ ¬ illegalWord 0x00000001 ∧
    ¬ illegalWord 0x0000000D ∧ ¬ illegalWord 0x0000FF07 ∧ ¬ illegalWord 0x0001FF0C := by
  have h (w : Word) (h1 : w.extractLsb' 17 15 = 0) (h2 : ¬ ((w.extractLsb' 0 8).toNat = 0 ∨
      0x0E ≤ (w.extractLsb' 0 8).toNat)) (h3 : w.extractLsb' 0 8 ∈ [0x07#8, 0x0A#8, 0x0B#8, 0x0C#8] ∨
      w.extractLsb' 8 8 = 0) (h4 : w.extractLsb' 0 8 = 0x0C ∨ w.getLsbD 16 = false) : ¬ illegalWord w := by
    rintro ((h | h) | ⟨k, hk, hk', h⟩ | ⟨h, h'⟩ | ⟨h, h'⟩)
    · simp [h] at h2
    · exact h2 (.inr h.1)
    · have := congrArg (·.getLsbD (k - 17)) h1
      simp [BitVec.getLsbD_extractLsb', show 17 + (k - 17) = k by omega, h] at this
      omega
    · exact h3.elim h (h' ·)
    · exact h4.elim (h ·) (by simp [h'])
  exact ⟨.inl (.inl (by decide)), .inl (.inr (by decide)), .inl (.inr (by decide)),
    .inr (.inl ⟨17, by decide, by decide, by decide⟩), .inr (.inl ⟨31, by decide, by decide, by decide⟩),
    .inr (.inr (.inl (by decide))), .inr (.inr (.inr (by decide))), h _ (by decide) (by decide) (by decide) (by decide),
    h _ (by decide) (by decide) (by decide) (by decide), h _ (by decide) (by decide) (by decide) (by decide),
    h _ (by decide) (by decide) (by decide) (by decide)⟩

theorem test_witness_StepRunsTheCommandInFlight :
    busy.BlockNext 0x09 ∧ decodeWord 0x09 = .ok .fdec ∧
    State.BlockNext { busy with events := [.block, .reset .client] } 0x09 ∧
    State.BlockNext { busy with inflight := some 0 } 0 ∧ decodeWord 0 = .error .reservedOp ∧
    (withHost busy [.halt]).takeEvent.1 = some (.host 0) ∧
    State.events { idle .server with events := [.block, .reset .client] } = .block :: [.reset .client] ∧
    (idle .server).inflight = none ∧ (idle .server).events = [] ∧ busy.events = [] ∧ busy.inflight = some 0x09 :=
  ⟨⟨rfl, rfl⟩, by decide, ⟨rfl, rfl⟩, ⟨rfl, rfl⟩, by decide, rfl, rfl, rfl, rfl, rfl, rfl⟩

/-- With no event and no command: the second of two agents moves where the first has ended, and with no agent left the
machine is idle. -/
theorem test_witness_StepWithoutEvents :
    let done : HostAgent := { prog := [.halt], pc := 1, vars := [] }
    let s := { idle .server with hosts := [done, { prog := [.halt], pc := 0, vars := [] }] }
    s.events = [] ∧ s.inflight = none ∧ (∃ a, s.hosts[1]? = some a ∧ a.pc < a.prog.length) ∧
    (∀ j b, j < 1 → s.hosts[j]? = some b → b.prog.length ≤ b.pc) ∧
    ∀ a ∈ State.hosts { s with hosts := [done] }, a.prog.length ≤ a.pc := by
  refine ⟨rfl, rfl, ⟨_, rfl, by decide⟩, fun j b hj hb => ?_, by simp⟩
  obtain rfl : j = 0 := by omega
  cases hb
  decide

theorem test_witness_CommandsRunInTwoSteps :
    busy.status.busy = true ∧ (idle .client).status.busy = false ∧ busy.inflight = some 0x09 ∧
    decodeWord 0x09 = .ok .fdec ∧ Instr.fdec ∈ [.xor, .crc, .crcchk, .hdec, .plen, .fenc, .fdec] ∧
    (ofLength 65544).inflight = some 0x09 ∧ 65543 < (ofLength 65544).ilen.toNat ∧
    State.inflight { busy with inflight := some 0x0E } = some 0x0E ∧ decodeWord 0x0E = .error .reservedOp := by
  decide +kernel

/-- Two listed events are used up: a host's read of `STATUS`, and the turn of an agent that is not there. -/
theorem test_witness_BlockMovesWhenEventsAreUsedUp :
    let s := { withHost busy [.rd .status 2, .halt] with events := [.host 0, .host 7] }
    s.Inv ∧ s.inflight = some 0x09 ∧ (∀ e ∈ s.events, ∃ k, e = .host k) ∧
      ∃ t, after s.events.length s = some t :=
  ⟨⟨by decide +kernel, by decide, by decide, by decide, by decide⟩, rfl, by simp, _, rfl⟩

theorem test_witness_RegisterAccessesAreAlignedWords :
    (∀ off ∈ [0x00, 0x24], off < 0x28 ∧ off % 4 = 0) ∧ (idle .server).status.busy = false ∧ 2 ^ 32 - 1 < 2 ^ 32 ∧
    (∀ c ∈ [(Width.w8, 0x00), (.w16, 0x24), (.w64, 0x00), (.w32, 0x22), (.w32, 0x27)],
      c.2 < 0x28 ∧ ¬ (c.1 = Width.w32 ∧ c.2 % 4 = 0)) := by
  decide +kernel

theorem test_witness_BufferAccessesAreBytes :
    (0 < 65543 ∧ 65542 < 65543 ∧ 65543 < 0x20000 ∧ 65543 ≤ 65543 ∧ 0x1FFFF < 0x20000 ∧ 65543 ≤ 0x1FFFF) ∧
    Width.w32 ≠ .w8 ∧ (idle .server).status.busy = false ∧ 2 ^ 8 - 1 < 2 ^ 8 := by
  decide +kernel

theorem test_witness_UnmappedOffsetsAreRefused :
    ∀ off ∈ [0x28, 0x1FFFF, 0x30007, 0x3FFFF, 0x50007, 0x7FFFF], 0x28 ≤ off ∧ off < 0x80000 ∧
      ¬ (0x20000 ≤ off ∧ off < 0x20000 + 65543) ∧ ¬ (0x40000 ≤ off ∧ off < 0x40000 + 65543) := by
  decide +kernel

/-- The last byte of `IBUF` changes by a host's `wb`; byte 0 changes by reset, whatever value reset leaves there. -/
theorem test_witness_HostAccessRights :
    (idle .server).status.busy = false ∧ memLookup (idle .server).mem (0x20000 + 65542) = none ∧
    (∃ t, hostWrite (idle .server) .w8 ((idle .server).params.base + 0x20000 + 65542) 0xFF = .ok t) ∧
    2 ^ 32 - 1 < 2 ^ 32 ∧ 65542 < 65543 ∧ (-1 : Int) < 0 ∧ (2 : Int) ^ 32 ≤ 2 ^ 32 ∧ (2 : Int) ^ 8 ≤ 2 ^ 8 ∧
    (let s := withHost { idle .server with mem := [(0x20000 + 65542, 0)] } [.wb 65542 (.imm 1)]
     ∃ t, step s = .next t ∧ t.ibufByte 65542 ≠ s.ibufByte 65542) ∧
    (let s := { idle .server with mem := [(0x20000, Config.freeByte 1 0x20000 + 1)], events := [.reset .client] }
     ∃ t, step s = .next t ∧ t.ibufByte 0 ≠ s.ibufByte 0) :=
  ⟨by decide, by decide, ok_of (by decide +kernel), by decide, by decide, by decide, by decide, by decide, next_of (by decide +kernel),
    ⟨_, rfl, by simp [State.ibufByte, State.readByte, State.applyReset, memLookup, State.freeByteAt, ibufBase, obufBase,
      State.resetWith, idle]⟩⟩

theorem test_witness_OnlyACmdWriteHasASideEffect :
    (∃ p, hostRead failed .w32 (0x1000 + 0x24) = .ok p) ∧ failed.status.busy = false ∧
    (∃ p, hostRead busy .w32 (0x1000 + 0x24) = .ok p) ∧
    (∃ s, hostWrite failed .w32 (0x1000 + 0x1C) 0xFFFFFFFF = .ok s) ∧ 0x1000 + 0x1C ≠ failed.params.base ∧
    2 ^ 32 - 1 < 2 ^ 32 :=
  ⟨⟨_, rfl⟩, rfl, ⟨_, rfl⟩, ⟨_, rfl⟩, by decide, by decide⟩

theorem test_witness_WritesWhileBusyAreRefused : busy.status.busy = true ∧
    atLine (withHost busy [.store .w32 0x1000 (.imm 9)]) 0 (.store .w32 (busy.params.base + regOffset .cmd) (.imm 9)) ∧
    atLine (withHost busy [.store .w8 0x21000 (.var 0)]) 0 (.store .w8 (busy.params.base + 0x20000 + 0) (.var 0)) :=
  ⟨rfl, ⟨_, rfl, rfl⟩, ⟨_, rfl, rfl⟩⟩

theorem test_witness_ReadsWhileBusy : busy.Inv ∧ busy.status.busy = true ∧ Reg.config ≠ .status :=
  ⟨busy_inv, rfl, by decide⟩

theorem test_witness_HostStepsWhileBusyLeaveTheBlockAlone :
    ∃ t, (withHost busy [.rd .olen 2]).status.busy = true ∧ hostStep 0 (withHost busy [.rd .olen 2]) = .next t :=
  ⟨_, rfl, rfl⟩

/-- An agent of `withHost` stands at the first line of its program. -/
theorem withHost_at (s : State) (x : HostAction) (xs : List HostAction) :
    (withHost s (x :: xs)).hosts[0]? = some { prog := x :: xs, pc := 0, vars := [(0, 6), (1, 7), (3, -1), (4, 0x100000000)] } := rfl

theorem test_witness_HostLinesPerformTheirAccess :
    (∀ x ∈ [HostAction.rd .status 2, .rb 65542 2, .load .w32 0x1024 2, .load .w16 0x1024 2, .wr .ilen (.imm 3),
        .wb 65542 (.var 0), .store .w32 0x1000 (.var 1), .store .w8 0x41000 (.imm 0), .wr .htid (.var 9)],
      ∃ a : HostAgent, (withHost (idle .server) [x]).hosts[0]? = some a ∧ a.prog[a.pc]? = some x ∧
        varGet a.vars 0 = some (Int.ofNat 6) ∧ varGet a.vars 9 = none) ∧
    (∃ p, hostRead (idle .server) .w32 (0x1000 + 0x04) = .ok p) ∧
    (∃ p, hostRead (idle .server) .w8 (0x1000 + 0x40000 + 65542) = .ok p) ∧
    (∃ e, hostRead (idle .server) .w16 0x1024 = .error e) ∧
    (∃ t, hostWrite (idle .server) .w8 (0x1000 + 0x20000 + 65542) 6 = .ok t) ∧
    (∃ e, hostWrite (idle .server) .w8 0x41000 0 = .error e) :=
  ⟨fun x _ => ⟨_, withHost_at _ x [], rfl, rfl, rfl⟩, ⟨_, rfl⟩, ⟨_, rfl⟩, ⟨_, rfl⟩, ⟨_, rfl⟩, ⟨_, rfl⟩⟩

/-- No byte and `BUF_BYTES` bytes. -/
theorem test_witness_LoadinFillsTheInput :
    ∀ bs ∈ [[], List.replicate 65543 (0xFF : Byte)], ∃ a : HostAgent, (idle .server).status.busy = false ∧
      (withHost (idle .server) (loadinLines bs)).hosts[0]? = some a ∧ a.prog = [] ++ loadinLines bs ++ [] ∧
      a.pc = ([] : List HostAction).length ∧ bs.length ≤ 65543 := by
  intro bs hbs
  refine ⟨_, rfl, rfl, by simp, rfl, ?_⟩
  simp only [List.mem_cons, List.not_mem_nil, or_false] at hbs
  rcases hbs with rfl | rfl
  · exact Nat.zero_le _
  · exact List.length_replicate.le

theorem test_witness_PollWaitsForTheBlock :
    ∀ s ∈ [busy, idle .client], ∃ a : HostAgent, (withHost s (pollLines 0 2)).hosts[0]? = some a ∧
      a.prog = [] ++ pollLines 0 2 ++ [] ∧ HostAction.label 0 ∉ ([] : List HostAction) ∧
      a.pc = ([] : List HostAction).length :=
  fun _ _ => ⟨_, rfl, rfl, by simp, rfl⟩

theorem test_witness_HostControlLines :
    (∀ x ∈ [HostAction.label 3, .halt, .jmp 3, .bnz 0 1 3, .bnz 1 1 3, .bnz 3 1 3, .mov 2 (.add (.lit 8) (.var 0))],
      ∃ a : HostAgent, (withHost busy [x, .label 3]).hosts[0]? = some a ∧ a.prog[a.pc]? = some x ∧
        HostAction.label 3 ∈ a.prog ∧ varGet a.vars 0 = some (Int.ofNat 6) ∧ varGet a.vars 1 = some (Int.ofNat 7) ∧
        varGet a.vars 3 = some (-1) ∧ varGet a.vars 9 = none) ∧ 6 &&& 1 = 0 ∧ 7 &&& 1 ≠ 0 :=
  ⟨fun x _ => ⟨_, withHost_at _ x _, rfl, by simp, rfl, rfl, rfl, rfl⟩, by decide, by decide⟩

theorem test_witness_StepKeepsTheInvariant : busy.Inv ∧ ∃ t, step busy = .next t := ⟨busy_inv, _, rfl⟩

theorem test_witness_StatusBitsAgree : busy.Inv ∧ failed.Inv := ⟨busy_inv, failed_inv⟩

theorem test_witness_CanonicalMemoriesAreEqual :
    Memory.wf [(0x20000, 1), (0x50006, 0)] = true ∧ Memory.wf (memWrite [(0x20000, 1)] 0x50006 [0]) = true ∧
    ∀ a, memLookup [(0x20000, 1), (0x50006, 0)] a = memLookup (memWrite [(0x20000, 1)] 0x50006 [0]) a :=
  ⟨by decide +kernel, by decide +kernel, fun _ => rfl⟩

theorem test_witness_RoleChangesOnlyByReset :
    ∃ t, step { busy with events := [.reset .client] } = .next t ∧ t.role ≠ busy.role := next_of (by decide +kernel)

/-- Each of the ways an entry of a table changes. -/
theorem test_witness_TablesChangeOnlyByTheirCommands :
    (∃ t, step { busy with inflight := some 0x0000160A } = .next t ∧ tidGet t.txLast .ping ≠ tidGet busy.txLast .ping) ∧
    (∃ t, step { busy with inflight := some 0x0000160B } = .next t ∧ tidGet t.rxLast .ping ≠ tidGet busy.rxLast .ping) ∧
    (let s := { busy with rxLast := tidSet TidTable.empty .ping (some 5), inflight := some 0x0D }
     ∃ t, step s = .next t ∧ tidGet t.rxLast .ping ≠ tidGet s.rxLast .ping) ∧
    (let s := { busy with rxLast := tidSet TidTable.empty .ping (some 5), events := [.reset .server] }
     ∃ t, step s = .next t ∧ tidGet t.rxLast .ping ≠ tidGet s.rxLast .ping) :=
  ⟨next_of (by decide +kernel), next_of (by decide +kernel), next_of (by decide +kernel), next_of (by decide +kernel)⟩

theorem test_witness_ResetEventLeavesResetValues :
    State.events { busy with events := [.reset .client, .host 0] } = .reset .client :: [.host 0] := rfl

/-- `FDEC` on §8's frame with one byte changed. -/
def pingWith (k : Nat) (b : Byte) : List Byte := ping.set k b

/-- Every error, as the first of its command's checks that holds; the lengths are the least or the greatest that the
check takes. -/
theorem test_witness_ErrorEntryWritesStatus :
    (∃ d, decodeWord 0x0E = .error d) ∧
    decodeWord 0x09 = .ok .fdec ∧ firstOf (checks .fdec (ofLength 65544)) = some .ilen ∧
    firstOf (checks .fdec (ofLength 7)) = some .short ∧
    firstOf (checks .fdec (started .server (pingWith 7 0x17))) = some .fcUnknown ∧
    firstOf (checks .fdec (started .server (ping ++ [0]))) = some .length ∧
    firstOf (checks .fdec (started .client (pingWith 8 0x1E))) = some .crc ∧
    firstOf (checks .fdec (started .client [0x00, 0x07, 0x00, 0x06, 0x00, 0x0C, 0x01, 0x05, 0x1F, 0x35, 0x2B, 0x43, 0x20, 0x40,
      0x4D, 0x06, 0x35, 0x2C, 0xC0, 0x34])) = some .noDecoder ∧
    decodeWord 0x08 = .ok .fenc ∧
    ([65534#17, 65543].map fun n => firstOf (checks .fenc { header [] 0 0 0 0x03 with ilen := n })) =
      [some .tooLong, some .tooLong] ∧
    firstOf (checks .fdec (started .server ping)) = none :=
  ⟨⟨_, rfl⟩, by decide +kernel⟩

theorem test_witness_FirstErrorOfThePrecedence :
    busy.Running ∧ decodeWord 0x0E = .error .reservedOp ∧ decodeWord 0x09 = .ok .fdec :=
  ⟨rfl, by decide +kernel⟩

/-- `E_BADCMD`, `E_ILEN` and an error of a body. -/
theorem test_witness_StateAfterAnError :
    busy.Running ∧ (∃ t, runCommand 0x0E busy = .next t ∧ t.status.errcode = some .badCmd) ∧
    (∃ t, runCommand 0x09 (ofLength 65544) = .next t ∧ t.status.errcode = some .ilen) ∧
    (∃ t, runCommand 0x09 (ofLength 7) = .next t ∧ t.status.errcode = some .short) ∧ Out.obuf ∉ listed .hdec :=
  ⟨rfl, ⟨_, rfl, rfl⟩, ⟨_, rfl, rfl⟩, next_of (by decide +kernel), by decide⟩

theorem test_witness_UnspecifiedOutputsAreFreshDraws :
    (ofLength 7).Running ∧ (∃ t, exec .fdec (ofLength 7) = .next t ∧ t.status.errcode = some .short) ∧
    Err.short ≠ .ilen ∧ Out.obuf ∈ listed .fdec :=
  ⟨rfl, next_of (by decide +kernel), by decide, by decide⟩

theorem test_witness_BlockIsReadyAfterEveryCommand : busy.status.busy = true := rfl

theorem test_witness_NextCmdWriteClearsTheError :
    failed.Inv ∧ failed.status.err = true ∧
    (∃ t, step (withHost failed [.wr .cmd (.imm 0x09)]) = .next t ∧ t.readReg .status = 0x00000001) ∧
    (failed.startCommand 0x09).BlockNext 0x09 ∧
    State.BlockNext { failed.startCommand 0x09 with events := [.block, .host 0] } 0x09 :=
  ⟨failed_inv, rfl, next_of (by decide +kernel), ⟨rfl, rfl⟩, ⟨rfl, rfl⟩⟩

/-- The words of `WordsOf`, for the commands with and without operand fields: a legal one and one that is not. -/
theorem test_witness_WordsOf :
    ([0x01#32, 0x02, 0x03, 0x04, 0x05, 0x06, 0x08, 0x09, 0x0D].all fun op =>
      (op ||| 0xFF00).extractLsb' 0 8 == op.extractLsb' 0 8 && op ||| 0xFF00 != op) = true ∧
    ([0x07#32, 0x0A, 0x0B].all fun op => (op ||| 0xFF00) &&& 0xFFFF00FF == op && (op ||| 0x10000) &&& 0xFFFF00FF != op) =
      true ∧
    (0x0001FF0C#32 &&& 0xFFFE00FF = 0x0000000C ∧ ¬ 0x0002000C#32 &&& 0xFFFE00FF = 0x0000000C) := by
  decide +kernel

theorem test_witness_XorCiphersTheInput :
    65543 < (ofLength 65544).ilen.toNat ∧ (ofLength 65543).ilen.toNat ≤ 65543 ∧ 65542 < (ofLength 65543).ilen.toNat ∧
    0x3FFFF < obufBase ∧ obufBase + (ofLength 65543).ilen.toNat ≤ 0x50007 := by
  decide +kernel

theorem test_witness_CrcReportsValueAndTrailer :
    65543 < (ofLength 65544).ilen.toNat ∧ (ofLength 65543).ilen.toNat ≤ 65543 ∧ (ofLength 0).ilen.toNat ≤ 65543 := by
  decide +kernel

/-- CK-3, CK-4 and CK-2. -/
theorem test_witness_CrcchkComparesTheTrailer :
    65543 < (ofLength 65544).ilen.toNat ∧ (ofLength 1).ilen.toNat < 2 ∧ 2 ≤ (started .server [0xFF, 0xFF]).ilen.toNat ∧
    (started .server [0xFF, 0xFF]).ilen.toNat ≤ 65543 ∧ ¬ trailerWrong (started .server [0xFF, 0xFF]) 2 ∧
    trailerWrong (started .server [0xFF, 0xFF, 0x00]) 3 := by
  unfold trailerWrong
  decide +kernel

/-- H-1 and H-5 hold 8 bytes, the least number; `BUF_BYTES` is the greatest. -/
theorem test_witness_HdecWritesTheHeaderRegisters :
    let s := started .server (ping.take 8)
    let u := started .server ((pingWith 7 0x17).take 8)
    65543 < (ofLength 65544).ilen.toNat ∧ (ofLength 7).ilen.toNat < 8 ∧ 8 ≤ s.ilen.toNat ∧ s.ilen.toNat ≤ 65543 ∧
    s.ibufByte 7 ∈ fcset ∧ 8 ≤ u.ilen.toNat ∧ u.ibufByte 7 ∉ fcset ∧
    State.ibufByte { s with ilen := 65543 } 7 ∈ fcset ∧ 65543 ≤ (ofLength 65543).ilen.toNat := by
  decide +kernel

theorem test_witness_HencWritesTheHeaderBytes :
    (header [] 0 0 0 0x50).hufc.fc ∈ fcset ∧ (header [] 0 0 0 0x51).hufc.fc ∉ fcset := by decide +kernel

theorem test_witness_PlenReportsTheLengthField :
    65543 < (ofLength 65544).ilen.toNat ∧ (ofLength 7).ilen.toNat < 8 ∧
    ([8#17, 65543].all fun n => 8 ≤ (ofLength n).ilen.toNat && (ofLength n).ilen.toNat ≤ 65543) = true := by
  decide +kernel

theorem test_witness_DispReportsTheKind :
    0x17#8 ∉ fcset ∧ tableKind (started .client []).role .writeMultiple = none ∧
    tableKind (started .client []).role .setConfig = some .setConfigRequest ∧
    tableKind (started .server []).role .writeMultiple = some .writeMultipleRegistersResponse := by
  decide +kernel

theorem test_witness_FencWritesTheFrame :
    65543 < (ofLength 65544).ilen.toNat ∧
    ([65534#17, 65543].all fun n => 65533 < (ofLength n).ilen.toNat && (ofLength n).ilen.toNat ≤ 65543) = true ∧
    ([0#17, 65533].all fun n => (ofLength n).ilen.toNat ≤ 65533) = true ∧ (header [] 0 0 0 0x03).hufc.fc ∈ fcset ∧
    (header [] 0 0 0 0x02).hufc.fc ∉ fcset := by
  decide +kernel

/-- FR-1, FR-3 (the shortest frame), FR-8 and the two ends of `E_ILEN`. -/
theorem test_witness_FdecDecodesTheFrame :
    firstOf (checks .fdec (started .server ping)) = none ∧
    firstOf (checks .fdec (started .client [0, 0, 0, 0, 0, 2, 0, 3, 0xCA, 0xA1])) = none ∧
    firstOf (checks .fdec (started .server (ping ++ [0]))) = some .length ∧
    (started .server (ping ++ [0])).ilen.toNat ≤ 65543 ∧ 65543 < (ofLength 65544).ilen.toNat := by
  decide +kernel

/-- T-1, T-14 and T-19. -/
theorem test_witness_TidnextAssignsTheNextId :
    0x17#8 ∉ fcset ∧ tidGet (started .server []).txLast .ping = none ∧
    tidGet (tidSet TidTable.empty .getConfig (some 0xFFFF)) .getConfig = some 0xFFFF ∧
    (0x0000 : Half).toNat = ((0xFFFF : Half).toNat + 1) % 65536 := by
  decide +kernel

theorem test_witness_TidobsRecordsTheReceivedId : 0xFF#8 ∉ fcset ∧ Fc.ping ≠ .data := by decide +kernel

theorem test_witness_TidrdReportsAnEntry : 0x17#8 ∉ fcset := by decide +kernel

theorem test_witness_ServerRowsGiveTheirKinds : (started .server []).role = .server := rfl

theorem test_witness_ClientRowsGiveTheirKinds : (started .client []).role = .client := rfl

theorem test_witness_FunctionCodeRowsComplete :
    (started .server []).role = .server ∧ (started .client []).role = .client := ⟨rfl, rfl⟩

theorem test_witness_FunctionCodeRowRunsAsDisp :
    encodeFrameByte .fcWriteMultipleClient = some (.client, 0x10) ∧
    encodeFrameByte .fcAnnounceServer = some (.server, 0x03) := by decide +kernel

/-- A command that succeeds and one that fails. -/
theorem test_witness_OutputCommandsFrame :
    (∃ t, exec .fenc (header serial 2 6 1 0x16) = .next t ∧ t.status.err = false) ∧
    (∃ t, exec .fdec (ofLength 7) = .next t ∧ t.status.err = true) ∧ (header serial 2 6 1 0x16).Running :=
  ⟨next_of (by decide +kernel), next_of (by decide +kernel), rfl⟩

theorem test_witness_RegisterCommandsStoreNothing :
    ∀ i ∈ [Instr.crcchk, .tidrd 0x16 1, .fcPingClient], i ∉ [Instr.xor, .crc, .henc, .fenc, .fdec] ∧
      ∃ t, exec i (started .server ping) = .next t := by
  intro i hi
  simp only [List.mem_cons, List.not_mem_nil, or_false] at hi
  rcases hi with rfl | rfl | rfl <;> exact ⟨by decide, _, rfl⟩

theorem test_witness_KeystreamIsTheRepeatedKey : 14 < (List.replicate 15 (0x01 : Byte)).length := by decide +kernel

theorem test_witness_CipherIsAnInvolution : (List.replicate 7 (0x01 : Byte)).length % 7 = 0 := by decide +kernel

/-- C-2. -/
theorem test_witness_TrailerIsHighByteFirst : trailer [0x00] = [0x40, 0xBF] := by decide +kernel

/-- CK-3 (the empty input) and CK-5. -/
theorem test_witness_OwnTrailerPassesCrcchk :
    ∀ b ∈ [[], [0x00#8]], (started .server (b ++ trailer b)).Running ∧
      (started .server (b ++ trailer b)).ilen.toNat = b.length + 2 ∧ b.length + 2 ≤ 65543 ∧
      (started .server (b ++ trailer b)).inputBytes = b ++ trailer b := by
  intro b hb
  refine ⟨rfl, ?_⟩
  revert b
  decide +kernel

/-- CK-7 and CK-10: bit 0 of the last byte is flipped. -/
theorem test_witness_SingleBitFlipFailsCrcchk :
    let s := started .server ping
    let u := started .server (pingWith 19 0x7D)
    s.Running ∧ (∃ t, exec .crcchk s = .next t ∧ t.status.errcode = none) ∧ u.ilen = s.ilen ∧ 19 < s.ilen.toNat ∧
    u.ibufByte 19 = s.ibufByte 19 ^^^ (1#8 <<< 0) ∧ ∀ i < s.ilen.toNat, i ≠ 19 → u.ibufByte i = s.ibufByte i :=
  ⟨rfl, next_of (by decide +kernel), by decide, by decide, by decide +kernel, by decide +kernel⟩

/-- H-1. -/
theorem test_witness_HeaderCodecRoundTrips :
    (ping.take 8).length = 8 ∧ hdrDecode (ping.take 8) = .ok { tid := 2, pid := 6, len := 12, uid := 1, fc := .ping } := by
  decide +kernel

/-- FR-1 and FR-12. -/
theorem test_witness_FencOfFdecGivesTheFrame :
    let s := started .server ping
    let u := header serial 2 6 1 0x16
    ∃ t, s.Running ∧ exec .fdec s = .next t ∧ t.status.errcode = none ∧ u.htid = t.htid ∧ u.hpid = t.hpid ∧
      u.hufc = t.hufc ∧ u.ilen = t.olen ∧ ∀ i < t.olen.toNat, u.ibufByte i = t.obufByte i :=
  ⟨_, rfl, rfl, by decide +kernel, by decide +kernel, by decide +kernel, by decide +kernel, by decide +kernel,
    by decide +kernel⟩

/-- FE-1 and FR-2. -/
theorem test_witness_FdecOfFencGivesThePayload :
    let s := header serial 2 6 1 0x16
    let u := started .client ping
    ∃ t, s.Running ∧ exec .fenc s = .next t ∧ t.status.errcode = none ∧ s.hufc.fc = fcByte .ping ∧
      tableKind u.role .ping = some .ping ∧ u.ilen = t.olen ∧ ∀ i < t.olen.toNat, u.ibufByte i = t.obufByte i :=
  ⟨_, rfl, rfl, by decide +kernel, by decide, by decide, by decide +kernel, by decide +kernel⟩

theorem test_witness_ConsecutiveIdsAreDistinct : 65536 ≤ 65536 ∧ (0 : Nat) ≤ 65536 := by decide +kernel

end Sys2Proof.Tests
end

/-! PROOFS. The accesses of the host window that have a meaning and those that have none (20_memory.md rules R50 to R53
and R60). An access is refused where it has no target; `targetAt_cases` says which accesses have one. -/

namespace Sys2Proof.Machine
section
open Sys2Proof.Claims

/-! ### Refused accesses leave the agent stuck (R210) -/

/-- An agent that stands at a line without a meaning has no step. -/
theorem hostStep_refused {s : State} {k : Nat} {a : HostAgent} {x : HostAction} {e : Refusal}
    (ha : s.hosts[k]? = some a) (hx : a.prog[a.pc]? = some x) (h : hostAct k s a x = .error e) :
    hostStep k s = .refused e := by
  rw [hostStep_of ha hx, h]

/-- A refused read has no meaning to an agent either. -/
theorem noRead_of_refused {s : State} {w : Width} {addr : Nat} (h : ∃ e, hostRead s w addr = .error e) :
    noRead s w addr := by
  refine ⟨h, fun k x ⟨a, ha, hx⟩ => ?_⟩
  obtain ⟨e, he⟩ := h
  exact ⟨e, hostStep_refused ha hx (by simp only [hostAct, readAction, he])⟩

/-- A write that is refused whatever its value has no meaning to an agent either. -/
theorem noWrite_of_refused {s : State} {w : Width} {addr : Nat}
    (h : ∀ v : Int, ∃ e, hostWrite s w addr v = .error e) : noWrite s w addr := by
  refine ⟨h, fun k v ⟨a, ha, hx⟩ => ?_⟩
  obtain ⟨e, he⟩ := h (srcValue k a v)
  exact ⟨e, hostStep_refused ha hx (by simp only [hostAct, writeAction, he])⟩

/-! ### Accesses with and without a target -/

/-- A read at an offset with a target has a meaning, also while a command runs. -/
theorem hostRead_of_target (s : State) {w : Width} {off : Nat} {t : Target} (hoff : off < 0x80000)
    (h : targetAt w off = .ok t) : hostRead s w (s.params.base + off) = .ok (s.readTarget t off) := by
  simp only [hostRead, State.windowOffset_base s off hoff, h]

/-- An access at an offset of the window without a target is refused, for reads and writes. -/
theorem noAccess_of_no_target (s : State) {w : Width} {off : Nat} (hoff : off < 0x80000)
    (h : ∀ t, targetAt w off ≠ .ok t) : noRead s w (s.params.base + off) ∧ noWrite s w (s.params.base + off) := by
  have ho := State.windowOffset_base s off hoff
  cases ht : targetAt w off with
  | ok t => exact absurd ht (h t)
  | error e =>
    exact ⟨noRead_of_refused ⟨e, by simp only [hostRead, ho, ht]⟩,
      noWrite_of_refused fun v => ⟨e, by simp only [hostWrite, ho, ht]⟩⟩

/-- The registers stand at the multiples of 4 of the register window, and nowhere else (R51). -/
theorem exists_regOffset_iff (off : Nat) : (∃ r, off = regOffset r) ↔ off < 0x28 ∧ off % 4 = 0 := by
  constructor
  · rintro ⟨r, rfl⟩
    cases r <;> decide
  · rintro ⟨hlt, hmod⟩
    obtain ⟨n, rfl⟩ := Nat.dvd_of_mod_eq_zero hmod
    have hn : n < 10 := by omega
    interval_cases n
    exacts [⟨.cmd, rfl⟩, ⟨.status, rfl⟩, ⟨.ilen, rfl⟩, ⟨.olen, rfl⟩, ⟨.htid, rfl⟩, ⟨.hpid, rfl⟩, ⟨.hlen, rfl⟩,
      ⟨.hufc, rfl⟩, ⟨.result, rfl⟩, ⟨.config, rfl⟩]

/-- An access that has a target is an aligned 32-bit access to the register window or an 8-bit one to a buffer
(R51, R52). -/
theorem target_width_and_offset {w : Width} {off : Nat} {t : Target} (h : targetAt w off = .ok t) :
    (w = .w32 ∧ off < 0x28 ∧ off % 4 = 0) ∨
      (w = .w8 ∧ ((0x20000 ≤ off ∧ off < 0x20000 + 65543) ∨ (0x40000 ≤ off ∧ off < 0x40000 + 65543))) := by
  obtain ⟨r, hw, hr, -⟩ | ⟨hw, hi, -⟩ | ⟨hw, ho, -⟩ := targetAt_cases h
  · exact .inl ⟨hw, (exists_regOffset_iff off).1 ⟨r, hr⟩⟩
  · exact .inr ⟨hw, .inl ((inIbuf_iff off).1 hi)⟩
  · exact .inr ⟨hw, .inr ((inObuf_iff off).1 ho)⟩

/-! ### The obligations -/

/-- Settles O8: the aligned 32-bit accesses are those with a register as their target. -/
theorem registerAccessesAreAlignedWords : Obligations.RegisterAccessesAreAlignedWords := by
  intro s w off hoff
  constructor
  · rintro ⟨rfl, hal⟩
    obtain ⟨r, rfl⟩ := (exists_regOffset_iff off).2 ⟨hoff, hal⟩
    exact ⟨⟨_, hostRead_of_target s (by omega) (targetAt_reg r)⟩, fun hb v hv => ⟨_, hostWrite_reg_fits hb r hv⟩⟩
  · intro hbad
    refine noAccess_of_no_target s (by omega) fun t ht => ?_
    obtain ⟨hw, -, hal⟩ | ⟨-, hbuf⟩ := target_width_and_offset ht
    · exact hbad ⟨hw, hal⟩
    · omega

/-- Settles O9: an 8-bit access below `BUF_BYTES` has its buffer as target, and a write of it is `hostWrite_ibuf_fits`;
no other access to a buffer region has a target. -/
theorem bufferAccessesAreBytes : Obligations.BufferAccessesAreBytes := by
  intro s w region i hregion hi
  constructor
  · rintro hlt rfl
    constructor
    · rw [Nat.add_assoc]
      obtain rfl | rfl := hregion
      · exact ⟨_, hostRead_of_target s (by omega) (targetAt_ibuf hlt)⟩
      · exact ⟨_, hostRead_of_target s (by omega) (targetAt_obuf hlt)⟩
    · rintro rfl hb v hv
      obtain ⟨hsame, hother⟩ := s.readByte_write (0x20000 + i) (BitVec.ofNat 8 v)
      exact ⟨_, hostWrite_ibuf_fits hb hlt hv, hsame, hother, rfl⟩
  · intro hbad
    rw [Nat.add_assoc]
    refine noAccess_of_no_target s (by omega) fun t ht => ?_
    obtain ⟨-, hreg, -⟩ | ⟨hw, hbuf⟩ := target_width_and_offset ht
    · omega
    · obtain ⟨-, hne⟩ | hge := hbad
      · exact hne hw
      · omega

/-- Settles O10: an offset outside the register window and both buffers has no target at any width. -/
theorem unmappedOffsetsAreRefused : Obligations.UnmappedOffsetsAreRefused := by
  intro s w off hreg hwin hibuf hobuf
  refine noAccess_of_no_target s hwin fun t ht => ?_
  obtain ⟨-, hlt, -⟩ | ⟨-, hi | ho⟩ := target_width_and_offset ht
  · omega
  · exact hibuf hi
  · exact hobuf ho

/-- Settles O13: every host write is refused while a command runs, whatever it would write to (`hostWrite_busy`). -/
theorem writesWhileBusyAreRefused : Obligations.WritesWhileBusyAreRefused := by
  intro s hb
  exact ⟨fun r => noWrite_of_refused (hostWrite_busy hb _ _), fun i => noWrite_of_refused (hostWrite_busy hb _ _)⟩

end
end Sys2Proof.Machine

/-! PROOFS. The command words that are illegal and the two steps of a command (30_encoding.md rules R83 and R90). The
decoder's rows (R84) accept a word exactly where the four checks of R83 pass, so `runCommand` follows R83's wording. -/

namespace Sys2Proof

/-! ### The fields of a command word, bit by bit (R79) -/

/-- The reserved field is not 0 exactly where one of bits 17 to 31 is 1. -/
theorem reservedField_ne_zero_iff (w : Word) :
    reservedField w ≠ 0 ↔ ∃ k, 17 ≤ k ∧ k ≤ 31 ∧ w.getLsbD k = true := by
  constructor
  · intro hne
    by_contra hnone
    refine hne (BitVec.eq_of_getLsbD_eq fun j hj => ?_)
    have hbit : w.getLsbD (17 + j) = false := by
      by_contra hset
      exact hnone ⟨17 + j, by omega, by omega, by simpa using hset⟩
    simp [reservedField, BitVec.getLsbD_extractLsb', hbit]
  · rintro ⟨k, hlo, hhi, hk⟩ hzero
    have hbit := congrArg (BitVec.getLsbD · (k - 17)) hzero
    simp [reservedField, BitVec.getLsbD_extractLsb', show 17 + (k - 17) = k by omega, hk] at hbit
    omega

/-- `TSEL` is not 0 exactly where bit 16 is 1. -/
theorem tselField_ne_zero_iff (w : Word) : tselField w ≠ 0 ↔ w.getLsbD 16 = true := by
  have hbit : (tselField w).getLsbD 0 = w.getLsbD 16 := by simp [tselField]
  rw [← hbit]
  generalize tselField w = t
  revert t
  decide

/-! ### The rows of the decoder (R84) and the checks of R83 -/

theorem decodePlain_ok_iff (fcsel : Byte) (tsel : BitVec 1) (i : Instr) :
    (∃ j, decodePlain fcsel tsel i = .ok j) ↔ fcsel = 0 ∧ tsel = 0 := by
  unfold decodePlain
  split
  · simp_all
  · split <;> simp_all

theorem decodeFcsel_ok_iff (tsel : BitVec 1) (i : Instr) : (∃ j, decodeFcsel tsel i = .ok j) ↔ tsel = 0 := by
  unfold decodeFcsel
  split <;> simp_all

/-- The checks of R83, without Booleans. -/
theorem CmdFields.wellFormed_iff (f : CmdFields) : f.wellFormed = true ↔
    (f.op ≠ 0x00 ∧ f.op.toNat < 0x0E) ∧ f.reserved = 0 ∧ (f.op ∈ [0x07#8, 0x0A#8, 0x0B#8, 0x0C#8] ∨ f.fcsel = 0) ∧
      (f.op = 0x0C ∨ f.tsel = 0) := by
  simp [wellFormed, reservedOp, reservedBits, unusedFcsel, unusedTsel, and_assoc, or_iff_not_imp_left]

/-- The decoder accepts a word exactly where its fields pass the checks of R83. -/
theorem decodeWord_ok_iff (w : Word) : (∃ i, decodeWord w = .ok i) ↔ (fieldsOfWord w).wellFormed = true := by
  rw [CmdFields.wellFormed_iff]
  simp only [decodeWord, fieldsOfWord]
  by_cases hr : reservedField w = 0
  case neg =>
    rw [if_pos hr]
    exact ⟨fun ⟨_, herr⟩ => absurd herr (by simp), fun ⟨_, hz, _⟩ => absurd hz hr⟩
  rw [if_neg (not_not.2 hr)]
  by_cases hop : (opField w).toNat < 0x0E
  · obtain ⟨n, hn⟩ : ∃ n, (opField w).toNat = n := ⟨_, rfl⟩
    have hw : opField w = BitVec.ofNat 8 n := BitVec.eq_of_toNat_eq (by simp; omega)
    rw [hn] at hop
    interval_cases n <;> simp [hw, hr, decodePlain_ok_iff, decodeFcsel_ok_iff]
  · split
    case h_14 => simp [hop]
    all_goals omega

end Sys2Proof

namespace Sys2Proof.Machine

/-! ### Illegal words (R83) -/

/-- R83 in its own wording: what the failure of the four checks says of the bits of the word. -/
theorem fieldsOfWord_illFormed_iff (w : Word) : (fieldsOfWord w).wellFormed = false ↔
    (w.extractLsb' 0 8 = 0x00 ∨ (0x0E ≤ (w.extractLsb' 0 8).toNat ∧ (w.extractLsb' 0 8).toNat ≤ 0xFF)) ∨
      (∃ k, 17 ≤ k ∧ k ≤ 31 ∧ w.getLsbD k = true) ∨
      (w.extractLsb' 0 8 ∉ [0x07#8, 0x0A#8, 0x0B#8, 0x0C#8] ∧ w.extractLsb' 8 8 ≠ 0) ∨
      (w.extractLsb' 0 8 ≠ 0x0C ∧ w.getLsbD 16 = true) := by
  have hop : (w.extractLsb' 0 8).toNat ≤ 0xFF := Nat.le_of_lt_succ (w.extractLsb' 0 8).isLt
  rw [← Bool.not_eq_true, CmdFields.wellFormed_iff, ← reservedField_ne_zero_iff, ← tselField_ne_zero_iff]
  simp only [fieldsOfWord, opField, fcselField, hop, and_true, not_and_or, not_or, not_not, not_lt, ne_eq]

theorem runCommand_of_decodeWord_ok {w : Word} {i : Instr} (h : decodeWord w = .ok i) (s : State) :
    runCommand w s = exec i s := by simp only [runCommand, h]

theorem runCommand_of_decodeWord_error {w : Word} {e : DecodeError} (h : decodeWord w = .error e) (s : State) :
    runCommand w s = .next (s.endError .badCmd) := by simp only [runCommand, h]

/-- Settles O3: the decoder accepts exactly the well-formed words, and the words that are not are those R83 lists. -/
theorem illegalWordsEndWithBadCommand : Obligations.IllegalWordsEndWithBadCommand := by
  intro w op illegal
  have hillegal : illegal ↔ ¬ ∃ i, decodeWord w = .ok i := by
    rw [decodeWord_ok_iff, Bool.not_eq_true]
    exact (fieldsOfWord_illFormed_iff w).symm
  constructor
  · intro hbad s
    cases hd : decodeWord w with
    | ok i => exact absurd ⟨i, hd⟩ (hillegal.1 hbad)
    | error e => exact ⟨_, runCommand_of_decodeWord_error hd s, endsInError_endError s .badCmd, rfl⟩
  · intro hgood
    obtain ⟨i, hi⟩ := not_not.1 (mt hillegal.2 hgood)
    exact ⟨i, hi, runCommand_of_decodeWord_ok hi⟩

/-! ### The two steps of a command (R90) -/

/-- Step 1: the write of a word to `CMD` while no command runs. -/
theorem hostWrite_cmd {s : State} (hb : s.status.busy = false) (w : Word) :
    hostWrite s .w32 (s.params.base + 0x00) w.toNat = .ok (s.startCommand w) := by
  have h := hostWrite_reg_fits hb .cmd w.isLt
  rwa [BitVec.ofNat_toNat, BitVec.setWidth_eq] at h

/-- The seven commands that read `IBUF` run their body behind the `ILEN` check of the execution frame. -/
theorem exec_eq_withInput {i : Instr} (h : i ∈ [.xor, .crc, .crcchk, .hdec, .plen, .fenc, .fdec]) (s : State) :
    ∃ body, exec i s = withInput s body := by
  simp only [List.mem_cons, List.not_mem_nil, or_false] at h
  obtain rfl | rfl | rfl | rfl | rfl | rfl | rfl := h
  exacts [⟨_, exec_xor s⟩, ⟨_, exec_crc s⟩, ⟨_, exec_crcchk s⟩, ⟨_, exec_hdec s⟩, ⟨_, exec_plen s⟩, ⟨_, exec_fenc s⟩,
    ⟨_, exec_fdec s⟩]

/-- A command that reads `IBUF` ends with `E_ILEN` where `ILEN` exceeds `BUF_BYTES`. -/
theorem exec_ilen {i : Instr} {s : State} (h : i ∈ [.xor, .crc, .crcchk, .hdec, .plen, .fenc, .fdec])
    (hn : bufBytes < s.ilen.toNat) : exec i s = .next (s.endError .ilen) := by
  obtain ⟨body, hbody⟩ := exec_eq_withInput h s
  rw [hbody, withInput_big hn]

/-- However a command ends, `BUSY` is 0 and `DONE` 1. -/
theorem EndStatus.not_busy_done {s t : State} (h : EndStatus s t) : t.status.busy = false ∧ t.status.done = true := by
  obtain ⟨e, h⟩ | ⟨k, h⟩ | h := h <;> rw [h] <;> exact ⟨rfl, rfl⟩

/-- Step 2: what the block's step leaves of the word in flight. -/
theorem blockStep_ends {s : State} {w : Word} (hw : s.inflight = some w) :
    ∃ t, blockStep s = .next t ∧ t.status.busy = false ∧ t.status.done = true ∧ t.inflight = none ∧
      (∀ e, decodeWord w = .error e → EndsInError t .badCmd) ∧ (∀ i, decodeWord w = .ok i → exec i s = .next t) := by
  have hstep : blockStep s = runCommand w s := by simp only [blockStep, hw]
  rw [hstep]
  obtain ⟨e, hd, hrun⟩ | ⟨i, t, hd, hrun, hexec, hends⟩ := runCommand_cases w s
  · exact ⟨_, hrun, rfl, rfl, rfl, fun _ _ => endsInError_endError s .badCmd, fun j hj => by simp [hd] at hj⟩
  · obtain ⟨hbusy, hdone⟩ := hends.status.not_busy_done
    refine ⟨t, hrun.trans hexec, hbusy, hdone, hends.inflight, fun e he => by simp [hd] at he, fun j hj => ?_⟩
    obtain rfl : i = j := by simpa [hd] using hj
    exact hexec

/-- Settles O6: step 1 is `hostWrite_cmd`, refused while `BUSY` is 1 (`hostWrite_busy`); step 2 is `blockStep_ends`, and
`exec_ilen` says what it is for a too long input. -/
theorem commandsRunInTwoSteps : Obligations.CommandsRunInTwoSteps := by
  intro s w
  refine ⟨fun hb => noWrite_of_refused (hostWrite_busy hb _ _), fun hb => ⟨_, hostWrite_cmd hb w, rfl, rfl⟩,
    fun hw => ?_⟩
  obtain ⟨t, hstep, hbusy, hdone, hidle, hbad, hgood⟩ := blockStep_ends hw
  refine ⟨t, hstep, hbusy, hdone, hidle, hbad, fun i hi => ⟨fun hmem hlong => ?_, hgood i hi⟩⟩
  obtain rfl : s.endError .ilen = t := by simpa [exec_ilen hmem hlong] using hgood i hi
  exact endsInError_endError s .ilen

end Sys2Proof.Machine

/-! PROOFS. The cipher (40_cipher.md rules R101 and R104): the keystream byte by byte, and the command `XOR`. The
section on words serves every command whose row leaves both operand fields unused (30_encoding.md rules R83 and
R84). -/

namespace Sys2Proof

/-! ### Words with both operand fields unused -/

/-- A word is its four fields, bit 31 to bit 0 (R79). -/
theorem fields_append (w : Word) : reservedField w ++ tselField w ++ fcselField w ++ opField w = w := by
  ext k hk
  simp only [reservedField, tselField, fcselField, opField, BitVec.getElem_append, BitVec.getElem_extractLsb']
  split_ifs <;> rw [← BitVec.getLsbD_eq_getElem] <;> congr 1 <;> omega

/-- A word whose bits above `OP` are 0 is the one with every other field 0. -/
theorem eq_setWidth_opField_iff (w : Word) : w = (opField w).setWidth 32 ↔
    reservedField w = 0 ∧ fcselField w = 0 ∧ tselField w = 0 := by
  constructor
  · intro hw
    have hzero (lo len : Nat) (hlo : 8 ≤ lo) : w.extractLsb' lo len = 0#len := by
      ext k hk
      rw [BitVec.getElem_extractLsb', hw, BitVec.getLsbD_setWidth, BitVec.getLsbD_of_ge _ _ (by omega), Bool.and_false,
        BitVec.getElem_zero]
    exact ⟨hzero 17 15 (by decide), hzero 8 8 (by decide), hzero 16 1 (by decide)⟩
  · rintro ⟨hres, hfc, ht⟩
    calc w = reservedField w ++ tselField w ++ fcselField w ++ opField w := (fields_append w).symm
      _ = 0#15 ++ 0#1 ++ 0#8 ++ opField w := by rw [hres, hfc, ht]; rfl
      _ = (opField w).setWidth 32 := by rw [BitVec.setWidth_eq_append (by decide)]; rfl

/-- What a row of R84 with mask 0xFFFFFFFF decodes to, reserved bits included. -/
def decodePlainRow (w : Word) (i : Instr) : Except DecodeError Instr :=
  if reservedField w ≠ 0 then .error .reservedBits else decodePlain (fcselField w) (tselField w) i

/-- Such a row accepts the word whose other fields are 0. -/
theorem decodePlainRow_of_eq {w : Word} (hw : w = (opField w).setWidth 32) (i : Instr) :
    decodePlainRow w i = .ok i := by
  obtain ⟨hres, hfc, ht⟩ := (eq_setWidth_opField_iff w).1 hw
  simp [decodePlainRow, decodePlain, hres, hfc, ht]

/-- Such a row rejects every other word. -/
theorem decodePlainRow_of_ne {w : Word} (hw : w ≠ (opField w).setWidth 32) (i : Instr) :
    ∃ e, decodePlainRow w i = .error e := by
  rw [ne_eq, eq_setWidth_opField_iff] at hw
  unfold decodePlainRow decodePlain
  split_ifs with hres hfc ht
  · exact ⟨_, rfl⟩
  · exact ⟨_, rfl⟩
  · exact ⟨_, rfl⟩
  · exact absurd ⟨not_not.1 hres, not_not.1 hfc, not_not.1 ht⟩ hw

end Sys2Proof

namespace Sys2Proof.Machine
section
open Sys2Proof.Claims

/-- Of the words with the `OP` of a command without operands, one runs it and the others end with `E_BADCMD`. -/
theorem wordsOf_plain {op : Byte} {i : Instr} (hrow : ∀ w, opField w = op → decodeWord w = decodePlainRow w i) :
    WordsOf op (· = op.setWidth 32) fun _ => exec i := by
  rintro w rfl s
  constructor
  · intro hw
    exact runCommand_of_decodeWord_ok ((hrow w rfl).trans (decodePlainRow_of_eq hw i)) s
  · intro hw
    obtain ⟨e, he⟩ := decodePlainRow_of_ne hw i
    exact runCommand_of_decodeWord_error ((hrow w rfl).trans he) s

/-! ### The keystream (R101) -/

/-- Byte `i` of the keystream's output from a phase on. -/
theorem xorFrom_getElem? (p : Nat) (b : List Byte) (i : Nat) :
    (xorFrom p b)[i]? = b[i]?.map (· ^^^ keyByte (p + i)) := by
  induction b generalizing p i with
  | nil => rfl
  | cons a b ih =>
    cases i with
    | zero => rfl
    | succ i =>
      simp only [xorFrom, List.getElem?_cons_succ, ih]
      rw [Nat.add_right_comm, Nat.add_assoc]

/-- Byte `i` of `xor_key`, whose phase is 0 at byte 0. -/
theorem xorKey_getElem? (b : List Byte) (i : Nat) : (xorKey b)[i]? = b[i]?.map (· ^^^ keyByte i) := by
  rw [xorKey, xorFrom_getElem?, Nat.zero_add]

/-- Settles O52: `xorKey_length`, and byte by byte `xorKey_getElem?`. -/
theorem keystreamIsTheRepeatedKey : Obligations.KeystreamIsTheRepeatedKey := by
  refine fun b => ⟨xorKey_length b, fun i h => ?_⟩
  rw [xorKey_getElem?, List.getElem?_eq_getElem h]
  rfl

/-! ### The command `XOR` (R104) -/

@[simp] theorem State.endOk_readByte (s : State) (a : Nat) : (s.endOk).readByte a = s.readByte a := rfl

@[simp] theorem State.endOk_obufByte (s : State) (i : Nat) : (s.endOk).obufByte i = s.obufByte i := rfl

/-- A byte of an output, read back from `OBUF`. -/
theorem State.obufByte_output {s : State} {bs : List Byte} {i : Nat} {b : Byte} (h : bs[i]? = some b) :
    (s.output bs).obufByte i = b := by
  obtain ⟨hlt, -⟩ := List.getElem?_eq_some_iff.1 h
  rw [State.obufByte, State.readByte_output_in s bs hlt, List.getD_eq_getElem?_getD, h, Option.getD_some]

/-- The ciphered input of a command, byte by byte. -/
theorem State.xorKey_input_getElem? (s : State) {i : Nat} (h : i < s.ilen.toNat) :
    (xorKey s.input)[i]? = some (s.ibufByte i ^^^ keyByte i) := by
  rw [xorKey_getElem?, State.input_getElem? s h, Option.map_some]

/-- `XOR` on an input that fits `IBUF`. -/
theorem exec_xor_fits {s : State} (h : s.ilen.toNat ≤ bufBytes) :
    exec .xor s = .next (s.output (xorKey s.input)).endOk := by
  rw [exec_xor, withInput_fits h]

/-- Settles O33: `XOR` outputs `xor_key` of its input (`exec_xor_fits`), and `exec_ilen` is its error. -/
theorem xorCiphersTheInput : Obligations.XorCiphersTheInput := by
  refine ⟨wordsOf_plain fun w hop => ?_, fun s => ⟨fun hlong => ?_, fun hfits => ?_⟩⟩
  · rw [decodeWord, hop]
    rfl
  · exact exec_ilen (by decide) hlong
  · have hlen : (xorKey s.input).length = s.ilen.toNat := by rw [xorKey_length, State.input_length]
    refine ⟨_, exec_xor_fits hfits, endsOk_of rfl rfl, ?_, fun i hi => ?_, fun a ha => ?_, rfl⟩
    · rw [State.endOk_olen, State.output_olen, hlen, BitVec.ofNat_toNat, BitVec.setWidth_eq]
    · rw [State.endOk_obufByte, State.obufByte_output (s.xorKey_input_getElem? hi)]
    · rw [State.endOk_readByte, State.readByte_output_out _ _ (hlen ▸ ha)]

end
end Sys2Proof.Machine

/-! PROOFS. The CRC (41_crc.md rules R112, R113 and R116): the two bytes of the trailer, and the command `CRC`. -/

namespace Sys2Proof.Machine
section
open Sys2Proof.Claims

/-! ### The trailer (R113) -/

@[simp] theorem hiByte_append (a b : Byte) : hiByte (a ++ b) = a := BitVec.extractLsb'_append_eq_left

@[simp] theorem loByte_append (a b : Byte) : loByte (a ++ b) = b := BitVec.extractLsb'_append_eq_right

/-- The CRC value is the register swapped and the trailer is that value low byte first, so the two swaps cancel. -/
theorem trailer_eq (p : List Byte) : trailer p = [hiByte (crc16 p), loByte (crc16 p)] := by
  simp only [trailer, le16, crcValue, swap16, loByte_append, hiByte_append]

/-! ### The command `CRC` (R116) -/

/-- `CRC` on an input that fits `IBUF`, with the trailer's two bytes. -/
theorem exec_crc_fits {s : State} (h : s.ilen.toNat ≤ bufBytes) :
    exec .crc s = .next ((s.setResult (crcValue s.inputBytes) false).output
      [hiByte (crc16 s.inputBytes), loByte (crc16 s.inputBytes)]).endOk := by
  rw [exec_crc, withInput_fits h, State.input_eq, trailer_eq]

/-- Settles O34: `CRC` reports the CRC value of its input and outputs the trailer (`exec_crc_fits`), and `exec_ilen` is
its error. -/
theorem crcReportsValueAndTrailer : Obligations.CrcReportsValueAndTrailer := by
  refine ⟨wordsOf_plain fun w hop => ?_, fun s => ⟨fun hlong => ?_, fun hfits => ?_⟩⟩
  · rw [decodeWord, hop]
    rfl
  · exact exec_ilen (by decide) hlong
  · refine ⟨_, exec_crc_fits hfits, endsOk_of rfl rfl, rfl, rfl, ?_, ?_, fun a ha => ?_, rfl⟩
    · exact State.obufByte_output rfl
    · exact State.obufByte_output rfl
    · rw [State.endOk_readByte, State.readByte_output_out _ _ ha]
      rfl

end
end Sys2Proof.Machine

/-! PROOFS. The header codec (42_header.md rules R130 and R131) on the input of a command, and the commands `HDEC`
(R132), `HENC` (R133) and `PLEN` (R134). -/

namespace Sys2Proof.Machine
section
open Sys2Proof.Claims

/-! ### Header decoding of a command's input (R130) -/

/-- Each byte of `FCSET` is the byte of a function code (R74). -/
theorem exists_fcOfByte {b : Byte} (h : b ∈ fcset) : ∃ fc, fcOfByte b = some fc :=
  Option.ne_none_iff_exists'.1 fun hnone => fcOfByte_eq_none.1 hnone h

/-- An input of fewer than 8 bytes has no header. -/
theorem hdrDecode_input_short {s : State} (h : s.ilen.toNat < 8) : hdrDecode s.input = .error .short :=
  hdrDecode_short (s.input_length.trans_lt h)

/-- An input whose byte 7 is outside `FCSET` has no header. -/
theorem hdrDecode_input_unknown {s : State} (h : 8 ≤ s.ilen.toNat) (hfc : s.ibufByte 7 ∉ fcset) :
    hdrDecode s.input = .error .fcUnknown := by
  rw [hdrDecode_long (by rwa [State.input_length]), s.input_getD (by omega), fcOfByte_eq_none.2 hfc]

/-- Every other input has the header its first 8 bytes spell. -/
theorem hdrDecode_input_known {s : State} (h : 8 ≤ s.ilen.toNat) (hfc : s.ibufByte 7 ∈ fcset) :
    ∃ fc, fcByte fc = s.ibufByte 7 ∧ hdrDecode s.input = .ok
      { tid := s.ibufByte 0 ++ s.ibufByte 1, pid := s.ibufByte 2 ++ s.ibufByte 3,
        len := s.ibufByte 4 ++ s.ibufByte 5, uid := s.ibufByte 6, fc := fc } := by
  obtain ⟨fc, hsome⟩ := exists_fcOfByte hfc
  have hbyte (i : Nat) (hi : i < 8) : s.input.getD i 0 = s.ibufByte i := s.input_getD (by omega)
  refine ⟨fc, fcByte_of_fcOfByte hsome, ?_⟩
  rw [hdrDecode_long (by rwa [State.input_length]), hbyte 7 (by decide), hsome]
  simp only [hbyte, Nat.reduceLT]

/-! ### The command `HDEC` (R132) -/

/-- `HDEC` on an input without a header. -/
theorem exec_hdec_error {s : State} {e : Err} (hfits : s.ilen.toNat ≤ bufBytes) (h : hdrDecode s.input = .error e) :
    exec .hdec s = .next (s.raise [.htid, .hpid, .hlen, .hufc] e) := by
  rw [exec_hdec, withInput_fits hfits, hdecBody, h]

/-- `HDEC` on an input with a header. -/
theorem exec_hdec_ok {s : State} {h : Header} (hfits : s.ilen.toNat ≤ bufBytes) (hdec : hdrDecode s.input = .ok h) :
    exec .hdec s = .next (s.setHeader h).endOk := by
  rw [exec_hdec, withInput_fits hfits, hdecBody, hdec]

/-- Settles O36: after `exec_ilen`, the three outcomes are those of decoding the input's header. -/
theorem hdecWritesTheHeaderRegisters : Obligations.HdecWritesTheHeaderRegisters := by
  refine ⟨wordsOf_plain fun w hop => by rw [decodeWord, hop]; rfl, fun s => ⟨fun hlong => ?_, fun hshort => ?_,
    fun h8 hfits hfc => ?_, fun h8 hfits hfc => ?_⟩⟩
  · exact exec_ilen (by decide) hlong
  · exact ⟨_, exec_hdec_error (hshort.le.trans (by decide)) (hdrDecode_input_short hshort), endsInError_raise _ _ _,
      rfl⟩
  · exact ⟨_, exec_hdec_error hfits (hdrDecode_input_unknown h8 hfc), endsInError_raise _ _ _, rfl⟩
  · obtain ⟨fc, hbyte, hdec⟩ := hdrDecode_input_known h8 hfc
    exact ⟨_, exec_hdec_ok hfits hdec, endsOk_of rfl rfl, by rw [← hbyte]; rfl⟩

/-! ### The command `HENC` (R133) -/

/-- `HENC` on a function code outside `FCSET`. -/
theorem exec_henc_unknown {s : State} (h : s.hufc.fc ∉ fcset) :
    exec .henc s = .next (s.raise [.obuf, .olen] .fcUnknown) := by
  rw [exec, execHenc, fcOfByte_eq_none.2 h]

/-- `HENC` on a function code of `FCSET`, with the eight bytes of R131. -/
theorem exec_henc_known {s : State} (h : s.hufc.fc ∈ fcset) :
    exec .henc s = .next (s.output [hiByte s.htid, loByte s.htid, hiByte s.hpid, loByte s.hpid, hiByte s.hlen,
      loByte s.hlen, s.hufc.uid, s.hufc.fc]).endOk := by
  obtain ⟨fc, hfc⟩ := exists_fcOfByte h
  rw [exec, execHenc, hfc, ← fcByte_of_fcOfByte hfc]
  rfl

/-- Settles O37: `HENC` outputs the eight header bytes (`exec_henc_known`), and `exec_henc_unknown` is its error. -/
theorem hencWritesTheHeaderBytes : Obligations.HencWritesTheHeaderBytes := by
  refine ⟨wordsOf_plain fun w hop => by rw [decodeWord, hop]; rfl, fun s => ⟨fun hfc => ?_, fun hfc => ?_⟩⟩
  · exact ⟨_, exec_henc_unknown hfc, endsInError_raise _ _ _, fun _ => s.raise_readByte_ibuf _ _, rfl⟩
  · refine ⟨_, exec_henc_known hfc, endsOk_of rfl rfl, rfl, fun i hi => ?_, fun a ha => ?_, rfl⟩
    · exact State.readByte_output_in _ _ hi
    · exact State.readByte_output_out _ _ ha

/-! ### The command `PLEN` (R134) -/

/-- `PLEN` on an input of fewer than 8 bytes. -/
theorem exec_plen_short {s : State} (h : s.ilen.toNat < 8) : exec .plen s = .next (s.raise [.result] .short) := by
  rw [exec_plen, withInput_fits (h.le.trans (by decide)), plenBody, if_pos (by rwa [State.input_length])]

/-- `PLEN` on every other input that fits `IBUF`. -/
theorem exec_plen_fits {s : State} (h8 : 8 ≤ s.ilen.toNat) (hfits : s.ilen.toNat ≤ bufBytes) :
    exec .plen s = .next (s.setResult (s.ibufByte 4 ++ s.ibufByte 5) false).endOk := by
  rw [exec_plen, withInput_fits hfits, plenBody, if_neg (by rwa [State.input_length, not_lt]), unbe16,
    s.input_getD (by omega), s.input_getD (by omega)]

/-- Settles O38: `PLEN` reports bytes 4 and 5 (`exec_plen_fits`); `exec_ilen` and `exec_plen_short` are its errors. -/
theorem plenReportsTheLengthField : Obligations.PlenReportsTheLengthField := by
  refine ⟨wordsOf_plain fun w hop => by rw [decodeWord, hop]; rfl, fun s => ⟨fun hlong => ?_, fun hshort => ?_,
    fun h8 hfits => ?_⟩⟩
  · exact exec_ilen (by decide) hlong
  · exact ⟨_, exec_plen_short hshort, endsInError_raise _ _ _, rfl⟩
  · exact ⟨_, exec_plen_fits h8 hfits, endsOk_of rfl rfl, rfl⟩

end
end Sys2Proof.Machine

/-! PROOFS. Function-code dispatch (43_frame.md rules R152 to R155): the command `DISP` and the two dispatch tables. The
section on words serves every command whose row leaves `TSEL` unused and takes `FCSEL` as its operand (30_encoding.md
rules R83 and R84). -/

namespace Sys2Proof

/-! ### Words with `FCSEL` as their operand -/

/-- A word that is 0 outside `OP` and `FCSEL`: the row's mask drops `FCSEL` and keeps the three other fields. -/
theorem and_mask_eq_setWidth_opField_iff (w : Word) : w &&& 0xFFFF00FF = (opField w).setWidth 32 ↔
    reservedField w = 0 ∧ tselField w = 0 := by
  have hop : opField (w &&& 0xFFFF00FF) = opField w :=
    BitVec.extractLsb'_and.trans (BitVec.and_allOnes (x := opField w))
  have hres : reservedField (w &&& 0xFFFF00FF) = reservedField w :=
    BitVec.extractLsb'_and.trans (BitVec.and_allOnes (x := reservedField w))
  have ht : tselField (w &&& 0xFFFF00FF) = tselField w :=
    BitVec.extractLsb'_and.trans (BitVec.and_allOnes (x := tselField w))
  have hfc : fcselField (w &&& 0xFFFF00FF) = 0 :=
    BitVec.extractLsb'_and.trans (BitVec.and_zero (x := fcselField w))
  rw [← hop, eq_setWidth_opField_iff, hres, ht, hfc, and_iff_right rfl]

/-- What a row of R84 with mask 0xFFFF00FF decodes to, reserved bits included. -/
def decodeFcselRow (w : Word) (i : Instr) : Except DecodeError Instr :=
  if reservedField w ≠ 0 then .error .reservedBits else decodeFcsel (tselField w) i

/-- Such a row accepts the words whose other fields are 0. -/
theorem decodeFcselRow_of_eq {w : Word} (hw : w &&& 0xFFFF00FF = (opField w).setWidth 32) (i : Instr) :
    decodeFcselRow w i = .ok i := by
  obtain ⟨hres, ht⟩ := (and_mask_eq_setWidth_opField_iff w).1 hw
  simp [decodeFcselRow, decodeFcsel, hres, ht]

/-- Such a row rejects every other word. -/
theorem decodeFcselRow_of_ne {w : Word} (hw : w &&& 0xFFFF00FF ≠ (opField w).setWidth 32) (i : Instr) :
    ∃ e, decodeFcselRow w i = .error e := by
  rw [ne_eq, and_mask_eq_setWidth_opField_iff] at hw
  unfold decodeFcselRow decodeFcsel
  split_ifs with hres ht
  · exact ⟨_, rfl⟩
  · exact ⟨_, rfl⟩
  · exact absurd ⟨not_not.1 hres, not_not.1 ht⟩ hw

end Sys2Proof

namespace Sys2Proof.Machine
section
open Sys2Proof.Claims

/-- Of the words with the `OP` of a command that takes `FCSEL`, those with the other fields 0 run it on their `FCSEL`
and the others end with `E_BADCMD`. -/
theorem wordsOf_fcsel {op : Byte} {i : Byte → Instr}
    (hrow : ∀ w, opField w = op → decodeWord w = decodeFcselRow w (i (fcselField w))) :
    WordsOf op (fun w => w &&& 0xFFFF00FF = op.setWidth 32) fun w => exec (i (w.extractLsb' 8 8)) := by
  rintro w rfl s
  constructor
  · intro hw
    exact runCommand_of_decodeWord_ok ((hrow w rfl).trans (decodeFcselRow_of_eq hw _)) s
  · intro hw
    obtain ⟨e, he⟩ := decodeFcselRow_of_ne hw (i (fcselField w))
    exact runCommand_of_decodeWord_error ((hrow w rfl).trans he) s

/-! ### The command `DISP` (R155) -/

/-- A byte outside `FCSET` has no row in either table. -/
theorem disp_unknown (role : Role) {b : Byte} (h : b ∉ fcset) : disp role b = .error .fcUnknown := by
  rw [disp, fcOfByte_eq_none.2 h]

theorem dispFc_none {role : Role} {fc : Fc} (h : tableKind role fc = none) : dispFc role fc = .error .noDecoder := by
  rw [dispFc, h]

theorem dispFc_some {role : Role} {fc : Fc} {k : Kind} (h : tableKind role fc = some k) : dispFc role fc = .ok k := by
  rw [dispFc, h]

theorem exec_disp (b : Byte) (s : State) : exec (.disp b) s = .next (s.endDispatch (disp s.role b)) := rfl

/-- `DISP` of a function code without a decoder in the block's table. -/
theorem exec_disp_none {s : State} {fc : Fc} (h : tableKind s.role fc = none) :
    exec (.disp (fcByte fc)) s = .next (s.endError .noDecoder) := by
  rw [exec_disp, disp_fcByte, dispFc_none h]
  rfl

/-- `DISP` of a function code with a decoder in the block's table. -/
theorem exec_disp_some {s : State} {fc : Fc} {k : Kind} (h : tableKind s.role fc = some k) :
    exec (.disp (fcByte fc)) s = .next (s.setKind k).endOk := by
  rw [exec_disp, disp_fcByte, dispFc_some h]
  rfl

/-- Settles O39: `DISP` ends as `disp` answers, which is `E_FC_UNKNOWN` (`disp_unknown`), `E_NO_DECODER`
(`exec_disp_none`) or the table's kind (`exec_disp_some`). -/
theorem dispReportsTheKind : Obligations.DispReportsTheKind := by
  refine ⟨wordsOf_fcsel fun w hop => by rw [decodeWord, hop]; rfl, fun s => ⟨fun b hb => ?_, fun fc hnone => ?_,
    fun fc k hsome => ?_⟩⟩
  · rw [exec_disp, disp_unknown _ hb]
    rfl
  · exact exec_disp_none hnone
  · exact ⟨_, exec_disp_some hsome, endsWithKind_of rfl rfl, rfl⟩

/-! ### The rows of the two tables (R152, R153) -/

/-- A row of the block's table, as `DISP` of the row's byte shows it. -/
theorem exec_disp_row {s : State} (fc : Fc) (k : Kind) (h : tableKind s.role fc = some k) :
    ∃ t k', exec (.disp (fcByte fc)) s = .next t ∧ kindCode k' = kindCode k ∧ EndsWithKind s t k' ∧
      t = { s with status := t.status, inflight := t.inflight } :=
  ⟨_, k, exec_disp_some h, rfl, endsWithKind_of rfl rfl, rfl⟩

/-- A code without a decoder, as `DISP` of its byte shows it. -/
theorem exec_disp_noRow {s : State} (fc : Fc) (h : tableKind s.role fc = none) :
    ∃ t, exec (.disp (fcByte fc)) s = .next t ∧ EndsInError t .noDecoder ∧
      t = { s with status := t.status, inflight := t.inflight } :=
  ⟨_, exec_disp_none h, endsInError_endError _ _, rfl⟩

/-- Settles O46: each of the nine rows is a row of `serverKind` (`exec_disp_row`). -/
theorem serverRowsGiveTheirKinds : Obligations.ServerRowsGiveTheirKinds := by
  intro s hrole
  have hrow (fc : Fc) (k : Kind) (h : serverKind fc = some k) := exec_disp_row (s := s) fc k (by rwa [hrole])
  simp only [List.forall_mem_cons]
  exact ⟨hrow .announce .announce rfl, hrow .data .data rfl, hrow .bufferedData .bufferedData rfl, hrow .ping .ping rfl,
    hrow .getConfig .getConfigResponse rfl, hrow .setConfig .setConfigResponse rfl,
    hrow .readRegisters .readRegistersResponse rfl, hrow .writeSingle .writeSingleRegisterResponse rfl,
    hrow .writeMultiple .writeMultipleRegistersResponse rfl, List.forall_mem_nil _⟩

/-- Settles O47: six codes have a row of `clientKind` (`exec_disp_row`) and three have none (`exec_disp_noRow`). -/
theorem clientRowsGiveTheirKinds : Obligations.ClientRowsGiveTheirKinds := by
  intro s hrole
  have hrow (fc : Fc) (k : Kind) (h : clientKind fc = some k) := exec_disp_row (s := s) fc k (by rwa [hrole])
  have hnone (fc : Fc) (h : clientKind fc = none) := exec_disp_noRow (s := s) fc (by rwa [hrole])
  simp only [List.forall_mem_cons]
  exact ⟨⟨hrow .announce .ack rfl, hrow .data .ack rfl, hrow .bufferedData .ack rfl, hrow .ping .ping rfl,
    hrow .getConfig .getConfigRequest rfl, hrow .setConfig .setConfigRequest rfl, List.forall_mem_nil _⟩,
    hnone .readRegisters rfl, hnone .writeSingle rfl, hnone .writeMultiple rfl, List.forall_mem_nil _⟩

end
end Sys2Proof.Machine

/-! PROOFS. Frame encoding (43_frame.md rule R156) and the command `FENC` (R157). -/

namespace Sys2Proof.Machine
section
open Sys2Proof.Claims

/-! ### The frame that `FENC` outputs (R156) -/

/-- The bytes of the frame before its trailer: the header with the length field n + 2, and the ciphered input. -/
def State.fencBytes (s : State) : List Byte :=
  [hiByte s.htid, loByte s.htid, hiByte s.hpid, loByte s.hpid, hiByte (BitVec.ofNat 16 (s.ilen.toNat + 2)),
    loByte (BitVec.ofNat 16 (s.ilen.toNat + 2)), s.hufc.uid, s.hufc.fc] ++ xorKey s.input

/-- The frame: these bytes and their trailer. -/
def State.fencFrame (s : State) : List Byte :=
  s.fencBytes ++ [hiByte (crc16 s.fencBytes), loByte (crc16 s.fencBytes)]

@[simp] theorem State.fencBytes_length (s : State) : s.fencBytes.length = s.ilen.toNat + 8 := by
  simp [State.fencBytes]

@[simp] theorem State.fencFrame_length (s : State) : s.fencFrame.length = s.ilen.toNat + 10 := by
  simp [State.fencFrame]

@[simp] theorem State.fencFrame_take (s : State) : s.fencFrame.take (s.ilen.toNat + 8) = s.fencBytes :=
  List.take_left' s.fencBytes_length

/-- `frame_encode` of the input with the header registers. -/
theorem frameEncode_input {s : State} {fc : Fc} (h : fcByte fc = s.hufc.fc) :
    frameEncode s.htid s.hpid s.hufc.uid fc s.input = s.fencFrame := by
  simp only [frameEncode, trailer_eq, State.input_length]
  rw [State.fencFrame, State.fencBytes, ← h]
  rfl

/-- The first bytes of an output, read back from `OBUF`. -/
theorem State.map_obufByte_output {s : State} {bs : List Byte} {k : Nat} (h : k ≤ bs.length) :
    (List.range k).map (s.output bs).obufByte = bs.take k := by
  refine List.ext_getElem (by simpa using h) fun i hi hi' => ?_
  rw [List.getElem_map, List.getElem_range, List.getElem_take]
  exact State.obufByte_output (List.getElem?_eq_getElem _)

/-! ### The command `FENC` (R157) -/

/-- `FENC` on a function code outside `FCSET`. -/
theorem exec_fenc_unknown {s : State} (hfits : s.ilen.toNat ≤ bufBytes) (h : s.hufc.fc ∉ fcset) :
    exec .fenc s = .next (s.raise [.obuf, .olen, .hlen, .result] .fcUnknown) := by
  rw [exec_fenc, withInput_fits hfits, fencBody, fcOfByte_eq_none.2 h]

/-- `FENC` on an input that fits `IBUF` but whose frame would not fit the length field. -/
theorem exec_fenc_tooLong {s : State} (hlong : maxPayload < s.ilen.toNat) (hfits : s.ilen.toNat ≤ bufBytes)
    (h : s.hufc.fc ∈ fcset) : exec .fenc s = .next (s.raise [.obuf, .olen, .hlen, .result] .tooLong) := by
  obtain ⟨fc, hfc⟩ := exists_fcOfByte h
  rw [exec_fenc, withInput_fits hfits, fencBody, hfc]
  exact congrArg _ (if_pos (by rwa [State.input_length]))

/-- What `FENC` leaves where it completes. -/
def State.fencDone (s : State) : State :=
  ({ s.output s.fencFrame with hlen := BitVec.ofNat 16 (s.ilen.toNat + 2) }.setResult
    (swap16 (crc16 s.fencBytes)) false).endOk

/-- `FENC` on every other input. -/
theorem exec_fenc_fits {s : State} (hn : s.ilen.toNat ≤ maxPayload) (h : s.hufc.fc ∈ fcset) :
    exec .fenc s = .next s.fencDone := by
  obtain ⟨fc, hfc⟩ := exists_fcOfByte h
  rw [exec_fenc, withInput_fits (hn.trans (by decide)), fencBody, hfc]
  simp only [State.input_length, if_neg (not_lt.2 hn), frameEncode_input (fcByte_of_fcOfByte hfc),
    State.fencFrame_take]
  rfl

/-- The window reads after `FENC` as after its output: the registers it writes are no bytes of the window. -/
theorem State.fencDone_readByte (s : State) (a : Nat) : s.fencDone.readByte a = (s.output s.fencFrame).readByte a := rfl

/-- A byte of the frame, read back from `OBUF`. -/
theorem State.fencDone_obufByte {s : State} {i : Nat} {b : Byte} (h : s.fencFrame[i]? = some b) :
    s.fencDone.obufByte i = b :=
  (s.fencDone_readByte _).trans (State.obufByte_output h)

/-- A header byte of the frame. -/
theorem State.fencFrame_header (s : State) {i : Nat} (h : i < 8) : s.fencFrame[i]? = some
    ([hiByte s.htid, loByte s.htid, hiByte s.hpid, loByte s.hpid, hiByte (BitVec.ofNat 16 (s.ilen.toNat + 2)),
      loByte (BitVec.ofNat 16 (s.ilen.toNat + 2)), s.hufc.uid, s.hufc.fc].getD i 0) := by
  rw [List.getD_eq_getElem _ _ h, State.fencFrame, State.fencBytes, List.append_assoc, List.getElem?_append_left h,
    List.getElem?_eq_getElem h]

/-- A payload byte of the frame. -/
theorem State.fencFrame_payload (s : State) {i : Nat} (h : i < s.ilen.toNat) :
    s.fencFrame[8 + i]? = some (s.ibufByte i ^^^ keyByte i) := by
  rw [State.fencFrame, List.getElem?_append_left (by rw [State.fencBytes_length]; omega), State.fencBytes,
    List.getElem?_append_right (by simp), ← s.xorKey_input_getElem? h]
  simp

/-- The trailer of the frame. -/
theorem State.fencFrame_trailer (s : State) :
    s.fencFrame[s.ilen.toNat + 8]? = some (hiByte (crc16 s.fencBytes)) ∧
      s.fencFrame[s.ilen.toNat + 9]? = some (loByte (crc16 s.fencBytes)) := by
  constructor <;> rw [State.fencFrame, List.getElem?_append_right (s.fencBytes_length.trans_le (by omega)),
    State.fencBytes_length, Nat.add_sub_add_left] <;> rfl

/-- The bytes before the trailer, read back from `OBUF`. -/
theorem State.fencDone_map_obufByte (s : State) :
    (List.range (s.ilen.toNat + 8)).map s.fencDone.obufByte = s.fencBytes := by
  rw [← s.fencFrame_take]
  exact State.map_obufByte_output (by rw [State.fencFrame_length]; omega)

/-- Settles O40: after `exec_ilen` the outcomes are `exec_fenc_unknown`, `exec_fenc_tooLong` and `exec_fenc_fits`, and
the bytes of `fencFrame` are the header, the ciphered input and the trailer. -/
theorem fencWritesTheFrame : Obligations.FencWritesTheFrame := by
  refine ⟨wordsOf_plain fun w hop => by rw [decodeWord, hop]; rfl, fun s => ⟨fun hlong => ?_, fun hfits hfc => ?_,
    fun hlong hfits hfc => ?_, fun hn hfc => ?_⟩⟩
  · exact exec_ilen (by decide) hlong
  · exact ⟨_, exec_fenc_unknown hfits hfc, endsInError_raise _ _ _, fun _ => s.raise_readByte_ibuf _ _, rfl⟩
  · exact ⟨_, exec_fenc_tooLong hlong hfits hfc, endsInError_raise _ _ _, fun _ => s.raise_readByte_ibuf _ _, rfl⟩
  · obtain ⟨hhi, hlo⟩ := s.fencFrame_trailer
    have holen : s.fencDone.olen = BitVec.ofNat 17 s.fencFrame.length := rfl
    have hhlen : s.fencDone.hlen = BitVec.ofNat 16 (s.ilen.toNat + 2) := rfl
    refine ⟨_, exec_fenc_fits hn hfc, endsOk_of rfl rfl, ?_, ?_, fun i hi => ?_, fun i hi => ?_, ?_, fun a ha => ?_,
      rfl⟩
    · rw [holen, State.fencFrame_length, BitVec.toNat_ofNat, Nat.mod_eq_of_lt (by omega)]
    · rw [hhlen, BitVec.toNat_ofNat, Nat.mod_eq_of_lt (by omega)]
    · exact State.fencDone_obufByte (s.fencFrame_header hi)
    · exact State.fencDone_obufByte (s.fencFrame_payload hi)
    · rw [State.fencDone_map_obufByte]
      exact ⟨State.fencDone_obufByte hhi, State.fencDone_obufByte hlo, rfl⟩
    · rw [State.fencDone_readByte, State.readByte_output_out _ _ (s.fencFrame_length ▸ ha)]

end
end Sys2Proof.Machine

/-! PROOFS. Frame decoding (43_frame.md rule R158) on the input of a command, check by check as `checks .fdec` lists
them (60_exceptions.md rule R206), and the command `FDEC` (R159). -/

namespace Sys2Proof.Machine
section
open Sys2Proof.Claims

/-! ### The checks of `FDEC`, in their order (R206) -/

/-- The first check of a list decides a proposition. -/
theorem firstOf_cons {c : Bool} {p : Prop} [Decidable p] {e : Err} {cs : List (Bool × Err)} {r : Option Err}
    (hc : c = true ↔ p) (hr : firstOf cs = r) : firstOf ((c, e) :: cs) = if p then some e else r :=
  if_congr hc rfl hr

/-- `E_LENGTH` (R158): the length field is below 2, or it does not match the length of the input. -/
def State.lengthWrong (s : State) : Prop :=
  (s.ibufByte 4 ++ s.ibufByte 5 : Half).toNat < 2 ∨ s.ilen.toNat ≠ 8 + (s.ibufByte 4 ++ s.ibufByte 5 : Half).toNat

/-- The first error of `FDEC`, its checks as propositions. -/
theorem firstOf_checks_fdec (s : State) [Decidable s.lengthWrong] [Decidable (trailerWrong s s.ilen.toNat)] :
    firstOf (checks .fdec s) =
      if bufBytes < s.ilen.toNat then some .ilen
      else if s.ilen.toNat < 8 then some .short
      else if s.ibufByte 7 ∉ fcset then some .fcUnknown
      else if s.lengthWrong then some .length
      else if trailerWrong s s.ilen.toNat then some .crc
      else if s.role = .client ∧ s.ibufByte 7 ∈ [0x05#8, 0x06#8, 0x10#8] then some .noDecoder
      else none :=
  firstOf_cons decide_eq_true_iff (firstOf_cons decide_eq_true_iff (firstOf_cons (by simp)
    (firstOf_cons decide_eq_true_iff (firstOf_cons decide_eq_true_iff (firstOf_cons (by simp) rfl)))))

/-! ### The checks of frame decoding, in its own terms (R158) -/

/-- The last two bytes of an input are compared with the trailer of the bytes before them (41_crc.md rule R115). -/
theorem input_drop_ne_trailer_iff {s : State} (h : 2 ≤ s.ilen.toNat) :
    s.input.drop (s.ilen.toNat - 2) ≠ trailer (s.input.take (s.ilen.toNat - 2)) ↔ trailerWrong s s.ilen.toNat := by
  have hdrop : s.input.drop (s.ilen.toNat - 2) =
      [s.ibufByte (s.ilen.toNat - 2), s.ibufByte (s.ilen.toNat - 1)] := by
    refine List.ext_getElem? fun i => ?_
    rw [List.getElem?_drop]
    match i with
    | 0 => exact s.input_getElem? (by omega)
    | 1 => rw [s.input_getElem? (by omega), show s.ilen.toNat - 2 + 1 = s.ilen.toNat - 1 by omega]; rfl
    | i + 2 => rw [List.getElem?_eq_none (by rw [State.input_length]; omega)]; rfl
  rw [hdrop, trailer_eq, State.input_eq, trailerWrong]
  simp

/-- The codes without a decoder are three codes of the client's table (R152, R153). -/
theorem tableKind_eq_none_iff (role : Role) (fc : Fc) :
    tableKind role fc = none ↔ role = .client ∧ fcByte fc ∈ [0x05#8, 0x06#8, 0x10#8] := by
  cases role <;> cases fc <;> decide

/-- Frame decoding where there is no header (R158 step 1). -/
theorem frameDecode_of_error {role : Role} {f : List Byte} {e : Err} (hdec : hdrDecode f = .error e) :
    frameDecode role f = .error e := by
  rw [frameDecode, hdec]

/-- Frame decoding where there is one (R158 steps 2 to 6). -/
theorem frameDecode_of_header {role : Role} {f : List Byte} {h : Header} (hdec : hdrDecode f = .ok h) :
    frameDecode role f =
      if h.len.toNat < 2 ∨ f.length ≠ 8 + h.len.toNat then .error .length
      else if f.drop (f.length - 2) ≠ trailer (f.take (f.length - 2)) then .error .crc
      else (dispFc role h.fc).map fun k =>
        { header := h, payload := xorKey ((f.take (f.length - 2)).drop 8), kind := k } := by
  rw [frameDecode, hdec]
  cases hk : dispFc role h.fc <;> simp only [hk, Except.map]

/-- The header that the first 8 bytes of the input spell, for a function code. -/
def State.inputHeader (s : State) (fc : Fc) : Header :=
  { tid := s.ibufByte 0 ++ s.ibufByte 1, pid := s.ibufByte 2 ++ s.ibufByte 3, len := s.ibufByte 4 ++ s.ibufByte 5,
    uid := s.ibufByte 6, fc := fc }

/-- The bytes between the header and the trailer of the input, deciphered. -/
def State.inputPayload (s : State) : List Byte := xorKey ((s.input.take (s.ilen.toNat - 2)).drop 8)

/-- Frame decoding of an input with a header, its checks written as those of `firstOf_checks_fdec`. -/
theorem frameDecode_input {s : State} {fc : Fc} [Decidable s.lengthWrong] [Decidable (trailerWrong s s.ilen.toNat)]
    (h8 : 8 ≤ s.ilen.toNat) (hdec : hdrDecode s.input = .ok (s.inputHeader fc)) :
    frameDecode s.role s.input =
      if s.lengthWrong then .error .length
      else if trailerWrong s s.ilen.toNat then .error .crc
      else (dispFc s.role fc).map fun k => { header := s.inputHeader fc, payload := s.inputPayload, kind := k } := by
  rw [frameDecode_of_header hdec, State.input_length]
  exact if_congr Iff.rfl rfl (if_congr (input_drop_ne_trailer_iff (by omega)) rfl rfl)

/-- Frame decoding answers the first error of the checks, or it decodes the input. -/
theorem frameDecode_input_cases {s : State} (hfits : s.ilen.toNat ≤ bufBytes) :
    (∃ e, firstOf (checks .fdec s) = some e ∧ frameDecode s.role s.input = .error e) ∨
      ∃ fc k, firstOf (checks .fdec s) = none ∧ 10 ≤ s.ilen.toNat ∧ fcByte fc = s.ibufByte 7 ∧
        tableKind s.role fc = some k ∧
        frameDecode s.role s.input = .ok { header := s.inputHeader fc, payload := s.inputPayload, kind := k } := by
  classical
  rw [firstOf_checks_fdec, if_neg (not_lt.2 hfits)]
  by_cases hshort : s.ilen.toNat < 8
  · exact .inl ⟨_, if_pos hshort, frameDecode_of_error (hdrDecode_input_short hshort)⟩
  have h8 : 8 ≤ s.ilen.toNat := not_lt.1 hshort
  rw [if_neg hshort]
  by_cases hfcset : s.ibufByte 7 ∉ fcset
  · exact .inl ⟨_, if_pos hfcset, frameDecode_of_error (hdrDecode_input_unknown h8 hfcset)⟩
  obtain ⟨fc, hfc, hdec⟩ := hdrDecode_input_known h8 (not_not.1 hfcset)
  rw [if_neg hfcset, frameDecode_input h8 hdec]
  by_cases hlen : s.lengthWrong
  · exact .inl ⟨_, if_pos hlen, if_pos hlen⟩
  rw [if_neg hlen, if_neg hlen]
  by_cases hcrc : trailerWrong s s.ilen.toNat
  · exact .inl ⟨_, if_pos hcrc, if_pos hcrc⟩
  rw [if_neg hcrc, if_neg hcrc, ← hfc]
  have hnone := tableKind_eq_none_iff s.role fc
  cases hk : tableKind s.role fc with
  | none => exact .inl ⟨_, if_pos (hnone.1 hk), by rw [dispFc_none hk]; rfl⟩
  | some k =>
    have hsome : tableKind s.role fc ≠ none := by simp [hk]
    refine .inr ⟨fc, k, if_neg (mt hnone.2 hsome), ?_, rfl, hk, by rw [dispFc_some hk]; rfl⟩
    unfold State.lengthWrong at hlen
    omega

/-! ### The command `FDEC` (R159) -/

/-- `FDEC` on an input that does not decode. -/
theorem exec_fdec_error {s : State} {e : Err} (hfits : s.ilen.toNat ≤ bufBytes)
    (h : frameDecode s.role s.input = .error e) :
    exec .fdec s = .next (s.raise [.htid, .hpid, .hlen, .hufc, .obuf, .olen, .result] e) := by
  rw [exec_fdec, withInput_fits hfits, fdecBody, h]

/-- `FDEC` on an input that decodes. -/
theorem exec_fdec_ok {s : State} {d : DecodedFrame} (hfits : s.ilen.toNat ≤ bufBytes)
    (h : frameDecode s.role s.input = .ok d) :
    exec .fdec s = .next ((((s.setHeader d.header).output d.payload).setResult
      (swap16 (crc16 (s.inputBytes.take (s.ilen.toNat - 2)))) false).setKind d.kind).endOk := by
  rw [exec_fdec, withInput_fits hfits, fdecBody, h, State.input_length, State.input_eq]
  rfl

@[simp] theorem State.inputPayload_length (s : State) : s.inputPayload.length = s.ilen.toNat - 10 := by
  rw [State.inputPayload, xorKey_length, List.length_drop, List.length_take, State.input_length]
  omega

/-- A byte of the deciphered payload. -/
theorem State.inputPayload_getElem? (s : State) {i : Nat} (h : i + 10 < s.ilen.toNat) :
    s.inputPayload[i]? = some (s.ibufByte (8 + i) ^^^ keyByte i) := by
  rw [State.inputPayload, xorKey_getElem?, List.getElem?_drop, List.getElem?_take_of_lt (by omega),
    s.input_getElem? (by omega), Option.map_some]

/-- Settles O41: after `exec_ilen`, the outcomes are those of decoding the input (`frameDecode_input_cases`). -/
theorem fdecDecodesTheFrame : Obligations.FdecDecodesTheFrame := by
  refine ⟨wordsOf_plain fun w hop => by rw [decodeWord, hop]; rfl, fun s => ⟨fun hlong => ?_, fun e hfits hfirst => ?_,
    fun hnone => ?_⟩⟩
  · exact exec_ilen (by decide) hlong
  · obtain ⟨e', hfirst', hdec⟩ | ⟨fc, k, hnone, -⟩ := frameDecode_input_cases hfits
    · obtain rfl : e' = e := Option.some_inj.1 (hfirst'.symm.trans hfirst)
      exact ⟨_, exec_fdec_error hfits hdec, endsInError_raise _ _ _, fun _ => s.raise_readByte_ibuf _ _,
        s.raise_frame_all _ _⟩
    · simp [hnone] at hfirst
  · have hfits : s.ilen.toNat ≤ bufBytes := by
      by_contra hlong
      classical
      rw [firstOf_checks_fdec, if_pos (not_le.1 hlong)] at hnone
      exact nomatch hnone
    obtain ⟨e, hfirst, -⟩ | ⟨fc, k, -, h10, hfc, hk, hdec⟩ := frameDecode_input_cases hfits
    · simp [hnone] at hfirst
    · refine ⟨_, fc, k, exec_fdec_ok hfits hdec, hfc, hk, endsWithKind_of rfl rfl, ?_, fun i hi => ?_, fun a ha => ?_,
        rfl, by rw [← hfc]; rfl⟩
      · simp only [State.endOk_olen, State.setKind_olen, State.setResult_olen, State.output_olen,
          State.inputPayload_length, BitVec.toNat_ofNat]
        rw [Nat.mod_eq_of_lt (by omega)]
        omega
      · exact State.obufByte_output (s := s.setHeader (s.inputHeader fc)) (s.inputPayload_getElem? hi)
      · exact (s.setHeader (s.inputHeader fc)).readByte_output_out s.inputPayload (s.inputPayload_length ▸ ha)

end
end Sys2Proof.Machine

/-! PROOFS. Transaction-id tracking (44_tid.md rules R181 to R185): the commands `TIDNEXT`, `TIDOBS`, `TIDRD` and
`TIDCLR`. The section on words serves the one row with two operands, `TIDRD`'s (30_encoding.md rules R83 and R84). -/

namespace Sys2Proof

/-! ### Words with `FCSEL` and `TSEL` as their operands -/

/-- A word that is 0 outside `OP`, `FCSEL` and `TSEL`: the row's mask is that of `FCSEL` alone on the word without its
`TSEL`. -/
theorem and_tselMask_eq_setWidth_opField_iff (w : Word) :
    w &&& 0xFFFE00FF = (opField w).setWidth 32 ↔ reservedField w = 0 := by
  have hmask : w &&& 0xFFFE00FF = (w &&& 0xFFFEFFFF) &&& 0xFFFF00FF := by rw [BitVec.and_assoc]; rfl
  have hop : opField (w &&& 0xFFFEFFFF) = opField w :=
    BitVec.extractLsb'_and.trans (BitVec.and_allOnes (x := opField w))
  have hres : reservedField (w &&& 0xFFFEFFFF) = reservedField w :=
    BitVec.extractLsb'_and.trans (BitVec.and_allOnes (x := reservedField w))
  have ht : tselField (w &&& 0xFFFEFFFF) = 0 :=
    BitVec.extractLsb'_and.trans (BitVec.and_zero (x := tselField w))
  rw [hmask, ← hop, and_mask_eq_setWidth_opField_iff, hres, ht, and_iff_left rfl]

/-- The row of `TIDRD` (R84): only the reserved bits are checked. -/
theorem decodeWord_tidrd {w : Word} (hop : opField w = 0x0C) : decodeWord w =
    if reservedField w ≠ 0 then .error .reservedBits else .ok (.tidrd (fcselField w) (tselField w)) := by
  rw [decodeWord, hop]
  rfl

end Sys2Proof

namespace Sys2Proof.Machine
section
open Sys2Proof.Claims

/-- Of the words with the `OP` of `TIDRD`, those with the reserved bits 0 run it on their `FCSEL` and `TSEL` and the
others end with `E_BADCMD`. -/
theorem wordsOf_tidrd : WordsOf 0x0C (fun w => w &&& 0xFFFE00FF = 0x0000000C)
    fun w => exec (.tidrd (w.extractLsb' 8 8) (w.extractLsb' 16 1)) := by
  intro w hop s
  have hlegal : w &&& 0xFFFE00FF = 0x0000000C ↔ reservedField w = 0 := by
    rw [← and_tselMask_eq_setWidth_opField_iff, show opField w = 0x0C from hop]
    rfl
  have hrow := decodeWord_tidrd hop
  constructor
  · intro hw
    exact runCommand_of_decodeWord_ok (hrow.trans (if_neg (not_not.2 (hlegal.1 hw)))) s
  · intro hw
    exact runCommand_of_decodeWord_error (hrow.trans (if_pos (mt hlegal.2 hw))) s

/-! ### The command `TIDNEXT` (R181, R182) -/

/-- `next_id` in R181's own terms. -/
theorem nextId_eq_iff {tidFirst v : Half} {e : Option Half} : nextId tidFirst e = v ↔
    (e = none ∧ v = tidFirst) ∨ ∃ last, e = some last ∧ v.toNat = (last.toNat + 1) % 65536 := by
  cases e with
  | none => simp [nextId, eq_comm]
  | some last =>
    have hnext : (last + 1).toNat = (last.toNat + 1) % 65536 := BitVec.toNat_add last 1
    rw [nextId, eq_comm, BitVec.toNat_eq, hnext]
    simp

theorem exec_tidnext_unknown {b : Byte} (h : b ∉ fcset) (s : State) :
    exec (.tidnext b) s = .next (s.raise [.result, .htid, .hufc] .fcUnknown) := by
  rw [exec, execTidnext, fcOfByte_eq_none.2 h]

theorem exec_tidnext_known (fc : Fc) (s : State) : exec (.tidnext (fcByte fc)) s = .next (tidnextBody s fc) := by
  rw [exec, execTidnext, fcOfByte_fcByte]

theorem tidnextBody_txLast (s : State) (fc : Fc) : (tidnextBody s fc).txLast =
    tidSet s.txLast fc (some (nextId s.params.tidFirst (tidGet s.txLast fc))) := rfl

/-- Settles O42: the id is `next_id` of the entry (`nextId_eq_iff`), and it is written to that entry alone. -/
theorem tidnextAssignsTheNextId : Obligations.TidnextAssignsTheNextId := by
  refine ⟨rfl, wordsOf_fcsel fun w hop => by rw [decodeWord, hop]; rfl, fun s => ⟨fun b hb => ?_, fun fc v hv => ?_⟩⟩
  · exact ⟨_, exec_tidnext_unknown hb s, endsInError_raise _ _ _, rfl⟩
  · obtain rfl := nextId_eq_iff.2 hv
    refine ⟨_, exec_tidnext_known fc s, endsOk_of rfl rfl, ?_, fun fc' hne => ?_, rfl⟩
    · rw [tidnextBody_txLast, tidGet_tidSet_same]
    · rw [tidnextBody_txLast, tidGet_tidSet_other _ _ hne]

/-! ### The command `TIDOBS` (R183) -/

theorem exec_tidobs_unknown {b : Byte} (h : b ∉ fcset) (s : State) :
    exec (.tidobs b) s = .next (s.endError .fcUnknown) := by
  rw [exec, execTidobs, fcOfByte_eq_none.2 h]

theorem exec_tidobs_known (fc : Fc) (s : State) :
    exec (.tidobs (fcByte fc)) s = .next { s with rxLast := tidSet s.rxLast fc (some s.htid) }.endOk := by
  rw [exec, execTidobs, fcOfByte_fcByte]

/-- Settles O43: `HTID` is written to the entry of the function code alone (`exec_tidobs_known`). -/
theorem tidobsRecordsTheReceivedId : Obligations.TidobsRecordsTheReceivedId := by
  refine ⟨wordsOf_fcsel fun w hop => by rw [decodeWord, hop]; rfl, fun s => ⟨fun b hb => ?_, fun fc => ?_⟩⟩
  · exact exec_tidobs_unknown hb s
  · exact ⟨_, exec_tidobs_known fc s, endsOk_of rfl rfl, tidGet_tidSet_same _ _ _,
      fun fc' hne => tidGet_tidSet_other _ _ hne, rfl⟩

/-! ### The command `TIDRD` (R184) -/

theorem exec_tidrd_unknown {b : Byte} (h : b ∉ fcset) (tsel : BitVec 1) (s : State) :
    exec (.tidrd b tsel) s = .next (s.raise [.result] .fcUnknown) := by
  rw [exec, execTidrd, fcOfByte_eq_none.2 h]

theorem exec_tidrd_known (fc : Fc) (tsel : BitVec 1) (s : State) : exec (.tidrd (fcByte fc) tsel) s =
    .next (tidReport s (if tsel = 0 then tidGet s.txLast fc else tidGet s.rxLast fc)).endOk := by
  rw [exec, execTidrd, fcOfByte_fcByte, ← apply_ite (tidGet · fc)]

/-- Settles O44: whichever table `TSEL` selects, the entry is empty or holds an id. -/
theorem tidrdReportsAnEntry : Obligations.TidrdReportsAnEntry := by
  refine ⟨wordsOf_tidrd, fun s tsel => ⟨fun b hb => ?_, fun fc => ?_⟩⟩
  · exact ⟨_, exec_tidrd_unknown hb tsel s, endsInError_raise _ _ _, rfl⟩
  · refine ⟨_, exec_tidrd_known fc tsel s, ?_⟩
    generalize (if tsel = 0 then tidGet s.txLast fc else tidGet s.rxLast fc) = e
    cases e with
    | none => exact ⟨endsOk_of rfl rfl, rfl, rfl⟩
    | some v => exact ⟨endsOk_of rfl rfl, rfl, rfl⟩

/-! ### The command `TIDCLR` (R185) -/

theorem exec_tidclr (s : State) :
    exec .tidclr s = .next { s with txLast := TidTable.empty, rxLast := TidTable.empty }.endOk := rfl

/-- Settles O45: both tables are the empty one, whose entries are all empty (`tidGet_empty`). -/
theorem tidclrEmptiesBothTables : Obligations.TidclrEmptiesBothTables := by
  refine ⟨wordsOf_plain fun w hop => by rw [decodeWord, hop]; rfl, fun s => ?_⟩
  exact ⟨_, exec_tidclr s, endsOk_of rfl rfl, fun fc => ⟨tidGet_empty fc, tidGet_empty fc⟩, rfl⟩

end
end Sys2Proof.Machine

/-! PROOFS. Errors (60_exceptions.md rules R202 to R208). A command that the decoder accepts fails with the first check
of its row of R206 that holds, and completes where none does; `exec_answers` says so once, from the outcomes of the
single commands. What error entry leaves unchanged is said of its two forms, `endError` and `raise`. -/

namespace Sys2Proof

/-! ### The instructions that command words decode to (R84) -/

theorem eq_of_decodePlain_ok {fcsel : Byte} {tsel : BitVec 1} {i j : Instr} (h : decodePlain fcsel tsel j = .ok i) :
    j = i := by
  unfold decodePlain at h
  split_ifs at h
  exact Except.ok.inj h

theorem eq_of_decodeFcsel_ok {tsel : BitVec 1} {i j : Instr} (h : decodeFcsel tsel j = .ok i) : j = i := by
  unfold decodeFcsel at h
  split_ifs at h
  exact Except.ok.inj h

/-- No command word decodes to a function-code row. -/
theorem encodeFrameByte_of_decodeWord_ok {w : Word} {i : Instr} (h : decodeWord w = .ok i) :
    encodeFrameByte i = none := by
  unfold decodeWord at h
  by_cases hr : reservedField w = 0
  case neg => rw [if_pos hr] at h; cases h
  simp only [hr, ne_eq, not_true_eq_false, if_false] at h
  split at h
  case h_7 | h_10 | h_11 => rw [← eq_of_decodeFcsel_ok h]; rfl
  case h_12 => cases h; rfl
  case h_14 => cases h
  all_goals rw [← eq_of_decodePlain_ok h]; rfl

end Sys2Proof

namespace Sys2Proof.Machine
section
open Sys2Proof.Claims

/-! ### How a command answers its checks (R205, R206) -/

/-- A command fails: error entry at once, or, never for `E_BADCMD` and `E_ILEN`, with the outputs its rule lists left
unspecified (R202, R203). -/
def Fails (i : Instr) (s : State) (e : Err) : Prop :=
  exec i s = .next (s.endError e) ∨ (e ∉ [Err.badCmd, .ilen] ∧ exec i s = .next (s.raise (listed i) e))

/-- A command completes: it leaves `ERR` and `ERRCODE` as step 1 of R90 wrote them. -/
def Completes (i : Instr) (s : State) : Prop :=
  ∃ t, exec i s = .next t ∧ t.status.err = s.status.err ∧ t.status.errcode = s.status.errcode

/-- The answer of a command to the first error of a list of checks. -/
def Answers (i : Instr) (s : State) : Option Err → Prop
  | none => Completes i s
  | some e => Fails i s e

/-- The checks are answered one after the other: a command answers the first one where it holds, and else the rest. -/
theorem answers_cons {i : Instr} {s : State} {c : Bool} {p : Prop} {e : Err} {cs : List (Bool × Err)}
    (hc : c = true ↔ p) (hfail : p → Fails i s e) (hpass : ¬ p → Answers i s (firstOf cs)) :
    Answers i s (firstOf ((c, e) :: cs)) := by
  rw [firstOf]
  split
  · exact hfail (hc.1 ‹_›)
  · exact hpass (mt hc.2 ‹_›)

/-- The first error of a list of checks is one of the list. -/
theorem firstOf_mem {cs : List (Bool × Err)} {e : Err} (h : firstOf cs = some e) : e ∈ cs.map Prod.snd := by
  induction cs with
  | nil => exact nomatch h
  | cons c cs ih =>
    rw [firstOf] at h
    split at h
    · exact Option.some_inj.1 h ▸ List.mem_cons_self
    · exact List.mem_cons_of_mem _ (ih h)

/-- The seven commands that read `IBUF` check `ILEN` first. -/
theorem answers_input {i : Instr} {s : State} {cs : List (Bool × Err)}
    (h : i ∈ [.xor, .crc, .crcchk, .hdec, .plen, .fenc, .fdec])
    (hpass : s.ilen.toNat ≤ bufBytes → Answers i s (firstOf cs)) :
    Answers i s (firstOf ((decide (65543 < s.ilen.toNat), .ilen) :: cs)) :=
  answers_cons decide_eq_true_iff (fun hlong => .inl (exec_ilen h hlong)) fun hlong => hpass (not_lt.1 hlong)

/-- A check of a function-code byte: the byte is outside `FCSET`, or it is the byte of a function code. -/
theorem answers_fc {i : Instr} {s : State} {b : Byte} {cs : List (Bool × Err)}
    (hfail : b ∉ fcset → Fails i s .fcUnknown)
    (hpass : ∀ fc, fcByte fc = b → Answers i s (firstOf cs)) :
    Answers i s (firstOf ((!fcset.contains b, .fcUnknown) :: cs)) :=
  answers_cons (by simp) hfail fun hb =>
    let ⟨fc, hfc⟩ := exists_fcOfByte (not_not.1 hb)
    hpass fc (fcByte_of_fcOfByte hfc)

/-! ### The single commands -/

theorem exec_crcchk_short {s : State} (h : s.ilen.toNat < 2) : exec .crcchk s = .next (s.raise [.result] .short) := by
  rw [exec_crcchk, withInput_fits (h.le.trans (by decide)), crcchkBody, if_pos (by rwa [State.input_length])]

theorem exec_crcchk_wrong {s : State} (h2 : 2 ≤ s.ilen.toNat) (hfits : s.ilen.toNat ≤ bufBytes)
    (h : trailerWrong s s.ilen.toNat) : exec .crcchk s = .next (s.raise [.result] .crc) := by
  rw [exec_crcchk, withInput_fits hfits, crcchkBody, State.input_length, if_neg (not_lt.2 h2),
    if_pos ((input_drop_ne_trailer_iff h2).2 h)]

theorem exec_crcchk_right {s : State} (h2 : 2 ≤ s.ilen.toNat) (hfits : s.ilen.toNat ≤ bufBytes)
    (h : ¬ trailerWrong s s.ilen.toNat) : exec .crcchk s =
      .next (s.setResult (crcValue (s.input.take (s.ilen.toNat - 2))) false).endOk := by
  rw [exec_crcchk, withInput_fits hfits, crcchkBody, State.input_length, if_neg (not_lt.2 h2),
    if_neg (mt (input_drop_ne_trailer_iff h2).1 h)]

theorem crcchk_answers (s : State) : Answers .crcchk s (firstOf (checks .crcchk s)) := by
  refine answers_input (by decide) fun hfits => ?_
  refine answers_cons decide_eq_true_iff (fun hshort => .inr ⟨by decide, exec_crcchk_short hshort⟩) fun hshort => ?_
  have h2 : 2 ≤ s.ilen.toNat := not_lt.1 hshort
  exact answers_cons decide_eq_true_iff (fun hcrc => .inr ⟨by decide, exec_crcchk_wrong h2 hfits hcrc⟩)
    fun hcrc => ⟨_, exec_crcchk_right h2 hfits hcrc, rfl, rfl⟩

theorem hdec_answers (s : State) : Answers .hdec s (firstOf (checks .hdec s)) := by
  refine answers_input (by decide) fun hfits => ?_
  refine answers_cons decide_eq_true_iff
    (fun hshort => .inr ⟨by decide, exec_hdec_error hfits (hdrDecode_input_short hshort)⟩) fun hshort => ?_
  have h8 : 8 ≤ s.ilen.toNat := not_lt.1 hshort
  refine answers_fc (fun hfc => .inr ⟨by decide, exec_hdec_error hfits (hdrDecode_input_unknown h8 hfc)⟩)
    fun fc hfc => ?_
  obtain ⟨_, -, hdec⟩ := hdrDecode_input_known h8 (hfc ▸ fcByte_mem fc)
  exact ⟨_, exec_hdec_ok hfits hdec, rfl, rfl⟩

theorem plen_answers (s : State) : Answers .plen s (firstOf (checks .plen s)) := by
  refine answers_input (by decide) fun hfits => ?_
  exact answers_cons decide_eq_true_iff (fun hshort => .inr ⟨by decide, exec_plen_short hshort⟩)
    fun hshort => ⟨_, exec_plen_fits (not_lt.1 hshort) hfits, rfl, rfl⟩

theorem henc_answers (s : State) : Answers .henc s (firstOf (checks .henc s)) :=
  answers_fc (fun hfc => .inr ⟨by decide, exec_henc_unknown hfc⟩)
    fun fc hfc => ⟨_, exec_henc_known (hfc ▸ fcByte_mem fc), rfl, rfl⟩

theorem disp_answers (b : Byte) (s : State) : Answers (.disp b) s (firstOf (checks (.disp b) s)) := by
  refine answers_fc (fun hb => .inl ?_) fun fc hfc => ?_
  · rw [exec_disp, disp_unknown _ hb]
    rfl
  subst hfc
  refine answers_cons (p := tableKind s.role fc = none) ?_ (fun hnone => .inl (exec_disp_none hnone)) fun hsome => ?_
  · rw [tableKind_eq_none_iff]
    simp
  · obtain ⟨k, hk⟩ := Option.ne_none_iff_exists'.1 hsome
    exact ⟨_, exec_disp_some hk, rfl, rfl⟩

theorem fenc_answers (s : State) : Answers .fenc s (firstOf (checks .fenc s)) := by
  refine answers_input (by decide) fun hfits => ?_
  refine answers_fc (fun hfc => .inr ⟨by decide, exec_fenc_unknown hfits hfc⟩) fun fc hfc => ?_
  have hmem : s.hufc.fc ∈ fcset := hfc ▸ fcByte_mem fc
  exact answers_cons decide_eq_true_iff (fun hlong => .inr ⟨by decide, exec_fenc_tooLong hlong hfits hmem⟩)
    fun hlong => ⟨_, exec_fenc_fits (not_lt.1 hlong) hmem, rfl, rfl⟩

theorem fdec_answers (s : State) : Answers .fdec s (firstOf (checks .fdec s)) := by
  refine answers_input (by decide) fun hfits => ?_
  have htail : firstOf (checks .fdec s).tail = firstOf (checks .fdec s) :=
    (if_neg (mt decide_eq_true_iff.1 (not_lt.2 hfits))).symm
  change Answers .fdec s (firstOf (checks .fdec s).tail)
  obtain ⟨e, hfirst, hdec⟩ | ⟨fc, k, hnone, -, -, -, hdec⟩ := frameDecode_input_cases hfits
  · have he : e ∈ [Err.short, .fcUnknown, .length, .crc, .noDecoder] := firstOf_mem (htail.trans hfirst)
    have hbody : ∀ e ∈ [Err.short, .fcUnknown, .length, .crc, .noDecoder], e ∉ [Err.badCmd, .ilen] := by decide
    rw [htail, hfirst]
    exact .inr ⟨hbody e he, exec_fdec_error hfits hdec⟩
  · rw [htail, hnone]
    exact ⟨_, exec_fdec_ok hfits hdec, rfl, rfl⟩

theorem tidnext_answers (b : Byte) (s : State) : Answers (.tidnext b) s (firstOf (checks (.tidnext b) s)) :=
  answers_fc (fun hb => .inr ⟨by decide, exec_tidnext_unknown hb s⟩)
    fun fc hfc => hfc ▸ ⟨_, exec_tidnext_known fc s, rfl, rfl⟩

theorem tidobs_answers (b : Byte) (s : State) : Answers (.tidobs b) s (firstOf (checks (.tidobs b) s)) :=
  answers_fc (fun hb => .inl (exec_tidobs_unknown hb s)) fun fc hfc => hfc ▸ ⟨_, exec_tidobs_known fc s, rfl, rfl⟩

@[simp] theorem tidReport_status (s : State) (v : Option Half) : (tidReport s v).status = s.status := by
  cases v <;> rfl

theorem tidrd_answers (b : Byte) (tsel : BitVec 1) (s : State) :
    Answers (.tidrd b tsel) s (firstOf (checks (.tidrd b tsel) s)) := by
  refine answers_fc (fun hb => .inr ⟨by decide, exec_tidrd_unknown hb tsel s⟩) fun fc hfc => ?_
  subst hfc
  refine ⟨_, exec_tidrd_known fc tsel s, ?_⟩
  rw [State.endOk_status, tidReport_status]
  exact ⟨rfl, rfl⟩

/-- Every command answers its own row of R206. The function-code rows have no row there, and no command word. -/
theorem exec_answers {i : Instr} (h : encodeFrameByte i = none) (s : State) :
    Answers i s (firstOf (checks i s)) := by
  cases i with
  | xor => exact answers_input (by decide) fun hfits => ⟨_, exec_xor_fits hfits, rfl, rfl⟩
  | crc => exact answers_input (by decide) fun hfits => ⟨_, exec_crc_fits hfits, rfl, rfl⟩
  | crcchk => exact crcchk_answers s
  | hdec => exact hdec_answers s
  | henc => exact henc_answers s
  | plen => exact plen_answers s
  | disp b => exact disp_answers b s
  | fenc => exact fenc_answers s
  | fdec => exact fdec_answers s
  | tidnext b => exact tidnext_answers b s
  | tidobs b => exact tidobs_answers b s
  | tidrd b tsel => exact tidrd_answers b tsel s
  | tidclr => exact ⟨_, exec_tidclr s, rfl, rfl⟩
  | _ => exact nomatch h

/-! ### What error entry leaves unchanged (R202, R203) -/

/-- What a command that ended with an error in `t` has left as it was in `s`, when the given outputs may differ. -/
structure ErrorFrame (outs : List Out) (s t : State) (e : Err) : Prop where
  ibuf : sameIbuf s t
  whole : e = .badCmd ∨ e = .ilen → t = { s with status := t.status, inflight := none }
  outputs : ∀ o, o ∉ outs → sameOut s t o
  frame : t = { s with status := t.status, olen := t.olen, htid := t.htid, hpid := t.hpid, hlen := t.hlen,
                       hufc := t.hufc, result := t.result, mem := t.mem, inflight := none, obufSeed := t.obufSeed,
                       draws := t.draws }

theorem ErrorFrame.tables_ilen_role {outs : List Out} {s t : State} {e : Err} (h : ErrorFrame outs s t e) :
    t.txLast = s.txLast ∧ t.rxLast = s.rxLast ∧ t.ilen = s.ilen ∧ t.role = s.role := by
  rw [h.frame]
  exact ⟨rfl, rfl, rfl, rfl⟩

theorem sameOut_refl (s : State) (o : Out) : sameOut s s o := by
  cases o
  case obuf => exact fun _ _ => rfl
  all_goals rfl

theorem sameOut_trans {s t u : State} {o : Out} (hst : sameOut s t o) (htu : sameOut t u o) : sameOut s u o := by
  cases o
  case obuf => exact fun a ha => (htu a ha).trans (hst a ha)
  all_goals exact Eq.trans htu hst

/-- `endError` writes no output. -/
theorem sameOut_endError {s t : State} (e : Err) {o : Out} : sameOut s (t.endError e) o ↔ sameOut s t o := by
  cases o <;> rfl

/-- A draw for one output leaves every other one. -/
theorem clobberOne_sameOut (d : Nat) (s : State) {o o' : Out} (h : o ≠ o') : sameOut s (s.clobberOne d o') o := by
  cases o <;> cases o'
  case obuf.obuf | olen.olen | htid.htid | hpid.hpid | hlen.hlen | hufc.hufc | result.result => exact absurd rfl h
  case obuf.olen | obuf.htid | obuf.hpid | obuf.hlen | obuf.hufc | obuf.result => exact fun _ _ => rfl
  all_goals rfl

theorem clobberFold_sameOut (d : Nat) {outs : List Out} {o : Out} (h : o ∉ outs) (s : State) :
    sameOut s (outs.foldl (State.clobberOne d) s) o := by
  induction outs generalizing s with
  | nil => exact sameOut_refl s o
  | cons o' os ih =>
    obtain ⟨hne, hnot⟩ := not_or.1 (mt List.mem_cons.2 h)
    exact sameOut_trans (clobberOne_sameOut d s hne) (ih hnot _)

theorem raise_sameOut {outs : List Out} {o : Out} (h : o ∉ outs) (s : State) (e : Err) :
    sameOut s (s.raise outs e) o := by
  have hfold := clobberFold_sameOut s.draws h s
  cases o <;> exact hfold

theorem errorFrame_endError (outs : List Out) (s : State) (e : Err) : ErrorFrame outs s (s.endError e) e where
  ibuf _ _ := rfl
  whole _ := rfl
  outputs o _ := (sameOut_endError e).2 (sameOut_refl s o)
  frame := rfl

theorem errorFrame_raise (outs : List Out) (s : State) {e : Err} (h : e ∉ [Err.badCmd, .ilen]) :
    ErrorFrame outs s (s.raise outs e) e where
  ibuf _ ha := s.raise_readByte_ibuf outs e ha
  whole he := absurd (by simpa using he) h
  outputs _ ho := raise_sameOut ho s e
  frame := s.raise_frame_all outs e

/-- A command that fails ends with the error, and leaves everything but its listed outputs. -/
theorem Fails.ends {i : Instr} {s : State} {e : Err} (h : Fails i s e) :
    ∃ t, exec i s = .next t ∧ EndsInError t e ∧ ErrorFrame (listed i) s t e := by
  obtain h | ⟨hne, h⟩ := h
  · exact ⟨_, h, endsInError_endError s e, errorFrame_endError _ s e⟩
  · exact ⟨_, h, endsInError_raise s _ e, errorFrame_raise _ s hne⟩

/-! ### The obligations about the error that a command reports -/

/-- A running command that answers `r` ends with `r` in `ERRCODE`, and `ERR` says whether `r` is an error. -/
theorem Answers.errcode {i : Instr} {s : State} {r : Option Err} (hrun : s.Running) (h : Answers i s r) :
    ∃ t, exec i s = .next t ∧ t.status.errcode = r ∧ t.status.err = r.isSome := by
  cases r with
  | none =>
    obtain ⟨t, hexec, herr, hcode⟩ := h
    refine ⟨t, hexec, hcode.trans ?_, herr.trans ?_⟩ <;> rw [hrun] <;> rfl
  | some e =>
    obtain ⟨t, hexec, ⟨hstatus, -⟩, -⟩ := Fails.ends h
    exact ⟨t, hexec, by rw [hstatus], by rw [hstatus]; rfl⟩

/-- Settles O27: an illegal word ends with `E_BADCMD`, and a command answers its checks (`exec_answers`). -/
theorem firstErrorOfThePrecedence : Obligations.FirstErrorOfThePrecedence := by
  intro w s hrun
  cases hd : decodeWord w with
  | error d =>
    exact ⟨_, runCommand_of_decodeWord_error hd s, fun _ _ => rfl, fun _ hi => (nomatch hi), rfl⟩
  | ok i =>
    obtain ⟨t, hexec, hcode, herr⟩ := (exec_answers (encodeFrameByte_of_decodeWord_ok hd) s).errcode hrun
    refine ⟨t, (runCommand_of_decodeWord_ok hd s).trans hexec, fun _ he => (nomatch he), fun j hj => ?_,
      herr.trans (hcode ▸ rfl)⟩
    cases hj
    exact hcode

/-- A command that reports an error, be it `E_BADCMD` or one of its checks, ends with it and leaves everything but the
outputs listed for the command of its word. -/
theorem runCommand_error {w : Word} {s : State} {e : Err}
    (h : (∃ d, decodeWord w = .error d) ∧ e = .badCmd ∨ ∃ i, decodeWord w = .ok i ∧ firstOf (checks i s) = some e) :
    ∃ t outs, runCommand w s = .next t ∧ EndsInError t e ∧ ErrorFrame outs s t e ∧
      ∀ i, decodeWord w = .ok i → outs = listed i := by
  obtain ⟨⟨d, hd⟩, rfl⟩ | ⟨i, hd, hfirst⟩ := h
  · exact ⟨_, [], runCommand_of_decodeWord_error hd s, endsInError_endError s _, errorFrame_endError _ s _,
      fun i hi => (nomatch hd.symm.trans hi)⟩
  · have hfails : Fails i s e := by
      have hanswers := exec_answers (encodeFrameByte_of_decodeWord_ok hd) s
      rwa [hfirst] at hanswers
    obtain ⟨t, hexec, hends, hframe⟩ := hfails.ends
    refine ⟨t, _, (runCommand_of_decodeWord_ok hd s).trans hexec, hends, hframe, fun j hj => ?_⟩
    cases hd.symm.trans hj
    rfl

/-- Settles O28: `runCommand_error`, and the eight values of `STATUS` are those of `EndsInError`. -/
theorem errorEntryWritesStatus : Obligations.ErrorEntryWritesStatus := by
  intro w s e _ hcause
  obtain ⟨t, outs, hrun, hends, hframe, houts⟩ := runCommand_error hcause
  obtain ⟨hstatus, hidle, hword⟩ := hends
  refine ⟨t, hrun, ⟨hstatus, hidle, hword⟩, ?_, hframe.ibuf, hframe.whole, fun i hi o ho => ?_, hframe.frame⟩
  · rw [hword]
    cases e <;> decide
  · exact hframe.outputs o (houts i hi ▸ ho)

/-- A running command that ends with a code in `ERRCODE` had the cause of that error. -/
theorem cause_of_errcode {w : Word} {s t : State} {e : Err} (hrunning : s.Running) (hrun : runCommand w s = .next t)
    (hcode : t.status.errcode = some e) :
    (∃ d, decodeWord w = .error d) ∧ e = .badCmd ∨ ∃ i, decodeWord w = .ok i ∧ firstOf (checks i s) = some e := by
  obtain ⟨u, hu, hbad, hgood, -⟩ := firstErrorOfThePrecedence w s hrunning
  obtain rfl : u = t := by simpa [hu] using hrun
  cases hd : decodeWord w with
  | error d => exact .inl ⟨⟨d, rfl⟩, Option.some_inj.1 (hcode.symm.trans (hbad d hd))⟩
  | ok i => exact .inr ⟨i, rfl, (hgood i hd).symm.trans hcode⟩

/-- Settles O29: the command had the cause of the error (`cause_of_errcode`), so it leaves what `runCommand_error`
says. -/
theorem stateAfterAnError : Obligations.StateAfterAnError := by
  intro w s t e hrunning hrun hcode
  obtain ⟨u, outs, hu, -, hframe, houts⟩ := runCommand_error (cause_of_errcode hrunning hrun hcode)
  obtain rfl : u = t := by simpa [hu] using hrun
  obtain ⟨htx, hrx, hilen, hrole⟩ := hframe.tables_ilen_role
  exact ⟨⟨htx, hrx, hilen, hrole, hframe.ibuf⟩, hframe.whole,
    fun i hi => ⟨fun o ho => hframe.outputs o (houts i hi ▸ ho), hframe.frame⟩⟩

end
end Sys2Proof.Machine

/-! PROOFS. The return from an error (60_exceptions.md rules R207 and R208): the block accepts the next command after
every command, and until its `CMD` write `STATUS` keeps the error. -/

namespace Sys2Proof.Machine
section
open Sys2Proof.Claims

/-! ### The block accepts the next command (R208) -/

@[simp] theorem State.startCommand_readReg_status (s : State) (w : Word) :
    (s.startCommand w).readReg .status = 0x00000001 := by
  show statusWord statusStarted = _
  decide

/-- Whatever its word, a command ends and leaves the block idle. -/
theorem runCommand_ends (w : Word) (s : State) :
    ∃ t, runCommand w s = .next t ∧ t.status.busy = false ∧ t.status.done = true ∧ t.inflight = none := by
  obtain ⟨e, -, hrun⟩ | ⟨i, t, -, hrun, hexec, hends⟩ := runCommand_cases w s
  · exact ⟨_, hrun, rfl, rfl, rfl⟩
  · obtain ⟨hbusy, hdone⟩ := hends.status.not_busy_done
    exact ⟨t, hrun.trans hexec, hbusy, hdone, hends.inflight⟩

/-- Settles O31: a `CMD` write is refused while a command runs (`hostWrite_busy`); every command leaves the block idle
(`runCommand_ends`), and an idle block accepts every word (`hostWrite_cmd`). -/
theorem blockIsReadyAfterEveryCommand : Obligations.BlockIsReadyAfterEveryCommand := by
  refine ⟨fun s hb => noWrite_of_refused (hostWrite_busy hb _ _), fun w s => ?_⟩
  obtain ⟨t, hrun, hbusy, hdone, hidle⟩ := runCommand_ends w s
  exact ⟨t, hrun, hbusy, hdone, hidle, fun w' => ⟨_, hostWrite_cmd hbusy w', t.startCommand_readReg_status w', rfl⟩⟩

/-! ### Only a `CMD` write, or reset, takes an error out of `STATUS` (R207) -/

/-- A host write leaves `STATUS`, or it is one to `CMD`, which starts a command (R54, R90). -/
theorem hostWrite_status {s t : State} {w : Width} {a : Nat} {v : Int} (h : hostWrite s w a v = .ok t) :
    t.status = s.status ∨ (t.status = statusStarted ∧ w = .w32 ∧ a = s.params.base + regOffset .cmd) := by
  obtain ⟨-, x, d, -, ⟨r, hw, ha, rfl⟩ | ⟨j, -, -, -, rfl⟩⟩ := hostWrite_cases h
  · cases r
    case cmd => exact .inr ⟨rfl, hw, ha⟩
    all_goals exact .inl rfl
  · exact .inl rfl

theorem readAction_status {s t : State} {a b : HostAgent} {w : Width} {addr x : Nat}
    (h : readAction s a w addr x = .ok (b, t)) : t.status = s.status := by
  unfold readAction at h
  split at h
  · cases h
  · rename_i hread
    cases h
    obtain rfl | ⟨rfl, -⟩ := hostRead_frame hread <;> rfl

theorem writeAction_status {s t : State} {a b : HostAgent} {w : Width} {addr : Nat} {v : Int}
    (h : writeAction s a w addr v = .ok (b, t)) :
    t.status = s.status ∨ (t.status = statusStarted ∧ w = .w32 ∧ addr = s.params.base + regOffset .cmd) := by
  unfold writeAction at h
  split at h
  · cases h
  · rename_i hwrite
    cases h
    exact hostWrite_status hwrite

theorem branchAction_state {s t : State} {a b : HostAgent} {l : Nat} (h : branchAction s a l = .ok (b, t)) : t = s := by
  unfold branchAction at h
  cases hb : a.branch l <;> rw [hb] at h <;> cases h
  rfl

theorem bnzAction_status {s t : State} {a b : HostAgent} {v : Int} {mask l : Nat}
    (h : bnzAction s a v mask l = .ok (b, t)) : t.status = s.status := by
  have ht : t = (s.masked v mask).2 := by
    unfold bnzAction at h
    split at h
    · exact branchAction_state h
    · cases h
      rfl
  rw [ht, State.masked_state]

theorem eq_cmd_of_regOffset {r : Reg} (h : regOffset r = regOffset .cmd) : r = .cmd := by
  revert h
  cases r <;> decide

/-- A line of a host program that writes to `CMD` (R87). -/
def WritesCmd (s : State) (x : HostAction) : Prop := ∃ v, x = .wr .cmd v ∨ x = .store .w32 s.params.base v

/-- A line of a host program leaves `STATUS`, or it writes to `CMD`, which starts a command. -/
theorem hostAct_status {k : Nat} {s t : State} {a b : HostAgent} {x : HostAction}
    (h : hostAct k s a x = .ok (b, t)) : t.status = s.status ∨ (t.status = statusStarted ∧ WritesCmd s x) := by
  cases x with
  | wr r v =>
    refine (writeAction_status h).imp_right fun ⟨hstatus, _, haddr⟩ => ⟨hstatus, v, .inl ?_⟩
    rw [eq_cmd_of_regOffset (Nat.add_left_cancel haddr)]
  | wb i v => exact (writeAction_status h).imp_right fun ⟨_, hw, _⟩ => (nomatch hw)
  | store w addr v =>
    refine (writeAction_status h).imp_right fun ⟨hstatus, hw, haddr⟩ => ⟨hstatus, v, .inr ?_⟩
    subst hw haddr
    rfl
  | rd r v => exact .inl (readAction_status h)
  | rb i v => exact .inl (readAction_status h)
  | load w addr v => exact .inl (readAction_status h)
  | bnz v mask l => exact .inl (bnzAction_status h)
  | jmp l => exact .inl (congrArg State.status (branchAction_state h))
  | label l | halt | mov v e => cases h; exact .inl rfl

/-- The same of the step of a host agent. -/
theorem hostStep_status {k : Nat} {s t : State} (h : hostStep k s = .next t) :
    t.status = s.status ∨ (t.status = statusStarted ∧ ∃ x, atLine s k x ∧ WritesCmd s x) := by
  unfold hostStep at h
  split at h
  · cases h; exact .inl rfl
  rename_i a ha
  split at h
  · cases h; exact .inl rfl
  rename_i x hx
  split at h
  · cases h
  rename_i hact
  cases h
  exact (hostAct_status hact).imp_right fun ⟨hstatus, hcmd⟩ => ⟨hstatus, x, ⟨a, ha, hx⟩, hcmd⟩

/-- A state with the invariant that shows an error runs no command. -/
theorem State.Inv.idle_of_err {s : State} (hs : s.Inv) (herr : s.status.err = true) :
    s.status.busy = false ∧ s.inflight = none := by
  have hbusy : s.status.busy = false := by
    by_contra hb
    rw [hs.started (Bool.not_eq_false _ ▸ hb)] at herr
    exact nomatch herr
  exact ⟨hbusy, Option.not_isSome_iff_eq_none.1 (by rw [← hs.busy_iff, hbusy]; decide)⟩

/-- A step with no command in flight leaves `STATUS`, or it is a host's write to `CMD`, or a reset. -/
theorem step_status {s t : State} (hidle : s.inflight = none) (h : step s = .next t) : t.status = s.status ∨
    (t.status = statusStarted ∧ ∃ k x, s.takeEvent.1 = some (.host k) ∧ atLine s k x ∧ WritesCmd s x) ∨
      ∃ strap, s.events.head? = some (.reset strap) := by
  obtain ⟨u, -, hu, hmove⟩ := step_cases h
  obtain ⟨-, hblock⟩ | ⟨k, hk, hhost⟩ | ⟨strap, hreset, -⟩ | rfl := hmove
  · have huidle : u.inflight = none := by rw [hu, hidle]
    simp only [blockStep, huidle] at hblock
    cases hblock
    exact .inl (by rw [hu])
  · rw [hu] at hhost
    exact (hostStep_status hhost).imp_right fun ⟨hstatus, x, hline, hcmd⟩ => .inl ⟨hstatus, k, x, hk, hline, hcmd⟩
  · exact .inr (.inr ⟨strap, hreset⟩)
  · exact .inl (by rw [hu])

/-- When the block moves next, the step is step 2 of the command in flight. -/
theorem step_of_blockNext {s : State} {w : Word} (h : s.BlockNext w) : step s = runCommand w s.takeEvent.2 := by
  obtain ⟨hw, hblock⟩ := h
  have hflight : s.takeEvent.2.inflight = some w := by rw [State.takeEvent_state, hw]
  rw [step_eq, hblock]
  simp only [blockStep, hflight]

/-- Settles O32: an error shows only while no command runs (`State.Inv.idle_of_err`); then `STATUS` reads as it stands,
`step_status` says what a step leaves of it, and a `CMD` write starts a command (`hostWrite_cmd`) that `step_of_blockNext`
runs. -/
theorem nextCmdWriteClearsTheError : Obligations.NextCmdWriteClearsTheError := by
  intro s hs herr
  obtain ⟨hbusy, hidle⟩ := hs.idle_of_err herr
  refine ⟨hostRead_reg hbusy .status, fun t hstep => ?_, fun w => ?_⟩
  · refine (step_status hidle hstep).imp_right (Or.imp_left ?_)
    rintro ⟨hstatus, k, x, hk, hline, v, hcmd⟩
    refine ⟨?_, k, x, v, hk, hline, hcmd⟩
    rw [State.readReg, hstatus]
    decide
  · exact ⟨_, hostWrite_cmd hbusy w, s.startCommand_readReg_status w, rfl, fun _ hnext => step_of_blockNext hnext⟩

end
end Sys2Proof.Machine

/-! PROOFS. The encodings (30_encoding.md rules R79 and R84; 43_frame.md rules R74, R152 and R153): the decoder undoes
the encoder, and the encoder the decoder. -/

namespace Sys2Proof

/-! ### The fields of an assembled word (R79) -/

@[simp] theorem opField_assembleWord (op fcsel : Byte) (tsel : BitVec 1) :
    opField (assembleWord op fcsel tsel) = op := BitVec.extractLsb'_append_eq_right

@[simp] theorem fcselField_assembleWord (op fcsel : Byte) (tsel : BitVec 1) :
    fcselField (assembleWord op fcsel tsel) = fcsel :=
  (BitVec.extractLsb'_append_eq_of_le (xlo := op) (le_refl 8)).trans BitVec.extractLsb'_append_eq_right

@[simp] theorem tselField_assembleWord (op fcsel : Byte) (tsel : BitVec 1) :
    tselField (assembleWord op fcsel tsel) = tsel :=
  (BitVec.extractLsb'_append_eq_of_le (xlo := op) (by decide)).trans
    ((BitVec.extractLsb'_append_eq_of_le (xlo := fcsel) (le_refl 8)).trans BitVec.extractLsb'_append_eq_right)

@[simp] theorem reservedField_assembleWord (op fcsel : Byte) (tsel : BitVec 1) :
    reservedField (assembleWord op fcsel tsel) = 0 :=
  (BitVec.extractLsb'_append_eq_of_le (xlo := op) (by decide)).trans
    ((BitVec.extractLsb'_append_eq_of_le (xlo := fcsel) (by decide)).trans
      ((BitVec.extractLsb'_append_eq_of_le (xlo := tsel) (le_refl 1)).trans rfl))

/-- A word with its reserved bits 0 is assembled from its fields. -/
theorem assembleWord_fields {w : Word} (h : reservedField w = 0) :
    assembleWord (opField w) (fcselField w) (tselField w) = w :=
  calc assembleWord (opField w) (fcselField w) (tselField w)
      = reservedField w ++ tselField w ++ fcselField w ++ opField w := by rw [h]; rfl
    _ = w := fields_append w

/-! ### Decoding an encoded instruction -/

/-- A row whose operand is `FCSEL`. -/
theorem decodeWord_assembleWord_fcsel {op : Byte} {i : Byte → Instr}
    (hrow : ∀ w, opField w = op → decodeWord w = decodeFcselRow w (i (fcselField w))) (fcsel : Byte) :
    decodeWord (assembleWord op fcsel 0) = .ok (i fcsel) := by
  rw [hrow _ (opField_assembleWord op fcsel 0), fcselField_assembleWord]
  exact decodeFcselRow_of_eq ((and_mask_eq_setWidth_opField_iff _).2 (by simp)) _

/-- The row whose operands are `FCSEL` and `TSEL`. -/
theorem decodeWord_assembleWord_tidrd (fcsel : Byte) (tsel : BitVec 1) :
    decodeWord (assembleWord 0x0C fcsel tsel) = .ok (.tidrd fcsel tsel) := by
  rw [decodeWord_tidrd (opField_assembleWord _ _ _)]
  simp

theorem decodeWord_of_encodeWord {i : Instr} {w : Word} (h : encodeWord i = some w) : decodeWord w = .ok i := by
  cases i with
  | disp b =>
    cases h
    exact decodeWord_assembleWord_fcsel (i := .disp) (fun w hop => by rw [decodeWord, hop]; rfl) b
  | tidnext b =>
    cases h
    exact decodeWord_assembleWord_fcsel (i := .tidnext) (fun w hop => by rw [decodeWord, hop]; rfl) b
  | tidobs b =>
    cases h
    exact decodeWord_assembleWord_fcsel (i := .tidobs) (fun w hop => by rw [decodeWord, hop]; rfl) b
  | tidrd b tsel =>
    cases h
    exact decodeWord_assembleWord_tidrd b tsel
  | _ => cases h <;> rfl

theorem decodeFrameByte_of_encodeFrameByte {i : Instr} {r : Role} {b : Byte} (h : encodeFrameByte i = some (r, b)) :
    decodeFrameByte r b = .ok i := by
  cases i <;> cases h <;> rfl

/-- An instruction is a command word or a function-code byte, and not both. -/
theorem encodeWord_isSome_iff (i : Instr) : (encodeWord i).isSome ↔ encodeFrameByte i = none := by
  cases i <;> simp [encodeWord, encodeFrameByte]

/-- Settles O1: the decoders undo the two encoders (`decodeWord_of_encodeWord`, `decodeFrameByte_of_encodeFrameByte`),
of which each instruction has one (`encodeWord_isSome_iff`). -/
theorem decodeOfEncodeIsTheInstruction : Obligations.DecodeOfEncodeIsTheInstruction := fun i _ =>
  ⟨fun _ => decodeWord_of_encodeWord, fun _ _ => decodeFrameByte_of_encodeFrameByte, encodeWord_isSome_iff i⟩

/-! ### Encoding a decoded word -/

/-- Every operand has the width of its field, so every instruction is well-formed. -/
theorem Instr.wellFormed_eq_true (i : Instr) : i.wellFormed = true := by
  cases i <;> rfl

/-- A row without operands that accepts a word has that word's fields. -/
theorem of_decodePlain_ok {fcsel : Byte} {tsel : BitVec 1} {i j : Instr} (h : decodePlain fcsel tsel j = .ok i) :
    j = i ∧ fcsel = 0 ∧ tsel = 0 :=
  ⟨eq_of_decodePlain_ok h, (decodePlain_ok_iff fcsel tsel j).1 ⟨i, h⟩⟩

theorem of_decodeFcsel_ok {tsel : BitVec 1} {i j : Instr} (h : decodeFcsel tsel j = .ok i) : j = i ∧ tsel = 0 :=
  ⟨eq_of_decodeFcsel_ok h, (decodeFcsel_ok_iff tsel j).1 ⟨i, h⟩⟩

/-- A word that the decoder accepts has its reserved bits 0, and its instruction encodes to its three other fields. -/
theorem encodeWord_fields_of_decodeWord_ok {w : Word} {i : Instr} (h : decodeWord w = .ok i) :
    reservedField w = 0 ∧ encodeWord i = some (assembleWord (opField w) (fcselField w) (tselField w)) := by
  unfold decodeWord at h
  by_cases hr : reservedField w = 0
  case neg => rw [if_pos hr] at h; cases h
  refine ⟨hr, ?_⟩
  simp only [hr, ne_eq, not_true_eq_false, if_false] at h
  have hop (n : Nat) (hn : (opField w).toNat = n) : opField w = BitVec.ofNat 8 n := by rw [← hn]; simp
  split at h
  case h_7 | h_10 | h_11 =>
    obtain ⟨rfl, htsel⟩ := of_decodeFcsel_ok h
    rw [hop _ ‹_›, htsel]
    rfl
  case h_12 =>
    cases h
    rw [hop _ ‹_›]
    rfl
  case h_14 => cases h
  all_goals
    obtain ⟨rfl, hfcsel, htsel⟩ := of_decodePlain_ok h
    rw [hop _ ‹_›, hfcsel, htsel]
    rfl

/-- Settles O2: the instruction encodes to the word's fields, and these with reserved bits 0 are the word. -/
theorem decodedWordEncodesBack : Obligations.DecodedWordEncodesBack := by
  intro w i h
  obtain ⟨hr, henc⟩ := encodeWord_fields_of_decodeWord_ok h
  exact ⟨henc.trans (congrArg some (assembleWord_fields hr)), i.wellFormed_eq_true⟩

/-- Settles O4: the words and bytes are closed, and the decoder evaluates on them. -/
theorem specWordsDecode : Obligations.SpecWordsDecode := by
  unfold Obligations.SpecWordsDecode
  decide

end Sys2Proof

/-! PROOFS. The invariant (10_state.md rules R23, R33, R34 and R39; 30_encoding.md rule R90): it holds after reset,
every step keeps it, and what it says of `STATUS` and of memory. -/

namespace Sys2Proof.Machine

/-! ### The block and the host keep the invariant -/

/-- What a command can do to memory keeps the canonical form. -/
theorem EndMem.memWf {s t : State} (h : EndMem s t) (hs : Memory.wf s.mem = true) : Memory.wf t.mem = true := by
  obtain h | h | ⟨bs, hlen, h⟩ := h <;> rw [h]
  · exact hs
  · exact memWf_below _ hs
  · exact memWf_output hs hlen

/-- How a running command ends: `STATUS` comes from the one step 1 wrote. -/
theorem EndStatus.of_running {s t : State} (h : EndStatus s t) (hrun : s.Running) :
    (∃ e, t.status = statusFailed e) ∨ ∃ k, t.status = { statusEnded statusStarted with kind := k } := by
  have hrun : s.status = statusStarted := hrun
  obtain h | ⟨k, h⟩ | h := h
  · exact .inl h
  · exact .inr ⟨k, by rw [h, hrun]⟩
  · exact .inr ⟨.none, by rw [h, hrun]; rfl⟩

/-- A running command that ends leaves the invariant. -/
theorem Ends.inv {i : Instr} {s t : State} (h : Ends i s t) (hs : s.Inv) (hrun : s.Running) : t.Inv := by
  have hmem := h.mem.memWf hs.mem_wf
  obtain ⟨e, hst⟩ | ⟨k, hst⟩ := h.status.of_running hrun
  · exact ⟨hmem, by rw [hst, h.inflight]; rfl, by rw [hst]; exact nofun, by rw [hst]; rfl,
      by rw [hst]; exact fun hk => absurd rfl hk⟩
  · exact ⟨hmem, by rw [hst, h.inflight]; rfl, by rw [hst]; exact nofun, by rw [hst]; rfl,
      by rw [hst]; exact fun _ => ⟨rfl, rfl⟩⟩

/-- What the block's step is: nothing, `E_BADCMD`, or the instruction in flight. -/
theorem blockStep_cases {s t : State} (h : blockStep s = .next t) : t = s ∨ ∃ w, s.inflight = some w ∧
    (t = s.endError .badCmd ∨ ∃ i, decodeWord w = .ok i ∧ exec i s = .next t ∧ Ends i s t) := by
  unfold blockStep at h
  split at h
  · cases h
    exact .inl rfl
  · rename_i w hw
    refine .inr ⟨w, hw, ?_⟩
    obtain ⟨e, -, hrun⟩ | ⟨i, u, hi, hrun, hexec, hends⟩ := runCommand_cases w s
    · rw [hrun] at h
      cases h
      exact .inl rfl
    · rw [hrun, hexec] at h
      cases h
      exact .inr ⟨i, hi, hexec, hends⟩

/-- A command in flight has been started. -/
theorem State.Inv.running {s : State} (hs : s.Inv) {w : Word} (hw : s.inflight = some w) : s.Running :=
  hs.started (by rw [hs.busy_iff, hw]; rfl)

theorem blockStep_inv {s t : State} (hs : s.Inv) (h : blockStep s = .next t) : t.Inv := by
  obtain rfl | ⟨w, hw, rfl | ⟨i, -, -, hends⟩⟩ := blockStep_cases h
  · exact hs
  · exact (ends_endError .xor s .badCmd).inv hs (hs.running hw)
  · exact hends.inv hs (hs.running hw)

/-- A host's write to a register keeps the invariant: only one to `CMD` touches what it speaks of. -/
theorem writeReg_inv {s : State} (hs : s.Inv) (r : Reg) (x : Word) : (s.writeReg r x).Inv := by
  obtain ⟨hmem, hbusy, hstarted, herr, hkind⟩ := hs
  cases r
  case cmd => exact ⟨hmem, rfl, fun _ => rfl, rfl, fun hk => absurd rfl hk⟩
  all_goals exact ⟨hmem, hbusy, hstarted, herr, hkind⟩

theorem HostMoves.inv {s t : State} (h : HostMoves s t) (hs : s.Inv) : t.Inv := by
  obtain ⟨u, ht, hu⟩ := h
  have hu : u.Inv := by
    obtain rfl | ⟨-, ⟨r, x, rfl⟩ | ⟨off, b, hin, rfl⟩⟩ := hu
    · exact hs
    · exact writeReg_inv hs r x
    · obtain ⟨hmem, hbusy, hstarted, herr, hkind⟩ := hs
      exact ⟨memWf_ibufWrite hmem hin, hbusy, hstarted, herr, hkind⟩
  obtain ⟨hmem, hbusy, hstarted, herr, hkind⟩ := hu
  rw [ht]
  exact ⟨hmem, hbusy, hstarted, herr, hkind⟩

/-! ### Reset -/

theorem resetWith_inv (strap : Role) (p : Params) : (State.resetWith strap p).Inv :=
  ⟨rfl, rfl, nofun, rfl, fun hk => absurd rfl hk⟩

theorem applyReset_inv (s : State) (strap : Role) : (s.applyReset strap).Inv :=
  ⟨rfl, rfl, nofun, rfl, fun hk => absurd rfl hk⟩

/-- Settles O21: `State.reset` is a `State.resetWith`, and `resetWith_inv` holds of each. -/
theorem resetHasTheInvariant : Obligations.ResetHasTheInvariant :=
  ⟨resetWith_inv _ _, resetWith_inv⟩

/-- Settles O20: the step is the block's (`blockStep_inv`), a host's (`HostMoves.inv`), a reset (`applyReset_inv`), or
the state is kept. -/
theorem stepKeepsTheInvariant : Obligations.StepKeepsTheInvariant := by
  intro s t hs h
  obtain ⟨u, -, hu, hmove⟩ := step_cases h
  have hinv : u.Inv := by
    obtain ⟨hmem, hbusy, hstarted, herr, hkind⟩ := hs
    rw [hu]
    exact ⟨hmem, hbusy, hstarted, herr, hkind⟩
  obtain ⟨-, hblock⟩ | ⟨k, -, hhost⟩ | ⟨strap, -, rfl⟩ | rfl := hmove
  · exact blockStep_inv hinv hblock
  · exact (hostStep_frame hhost).inv hinv
  · exact applyReset_inv u strap
  · exact hinv

/-! ### The bits of `STATUS` (R23) -/

theorem append_flagBit_getLsbD_zero {n : Nat} (x : BitVec n) (b : Bool) : (x ++ flagBit b).getLsbD 0 = b := by
  rw [BitVec.getLsbD_append]
  simp [flagBit]

theorem append_flagBit_getLsbD_succ {n : Nat} (x : BitVec n) (b : Bool) (i : Nat) :
    (x ++ flagBit b).getLsbD (i + 1) = x.getLsbD i := by
  simp [BitVec.getLsbD_append]

theorem statusWord_getLsbD_busy (st : Status) : (statusWord st).getLsbD 0 = st.busy :=
  append_flagBit_getLsbD_zero _ _

theorem statusWord_getLsbD_done (st : Status) : (statusWord st).getLsbD 1 = st.done :=
  (append_flagBit_getLsbD_succ _ _ 0).trans (append_flagBit_getLsbD_zero _ _)

theorem statusWord_getLsbD_err (st : Status) : (statusWord st).getLsbD 2 = st.err :=
  (append_flagBit_getLsbD_succ _ _ 1).trans
    ((append_flagBit_getLsbD_succ _ _ 0).trans (append_flagBit_getLsbD_zero _ _))

/-- Bits 15:8 stand above the three flags and five reserved bits. -/
theorem statusWord_errcode (st : Status) : (statusWord st).extractLsb' 8 8 = errcodeField st.errcode := by
  have hbelow (n m start : Nat) (x : BitVec n) (y : BitVec m) (h : m ≤ start) :
      (x ++ y).extractLsb' start 8 = x.extractLsb' (start - m) 8 := BitVec.extractLsb'_append_eq_of_le h
  calc (statusWord st).extractLsb' 8 8
      = BitVec.extractLsb' 7 8
          (0#8 ++ kindCode st.kind ++ errcodeField st.errcode ++ 0#5 ++ flagBit st.err ++ flagBit st.done) :=
        BitVec.extractLsb'_append_eq_of_le (xlo := flagBit st.busy) (by decide)
    _ = (0#8 ++ kindCode st.kind ++ errcodeField st.errcode).extractLsb' 0 8 := by
        rw [hbelow _ _ _ _ _ (by decide), hbelow _ _ _ _ _ (by decide), hbelow _ _ _ _ _ (by decide)]
    _ = errcodeField st.errcode := BitVec.extractLsb'_append_eq_right

theorem errcodeField_ne_zero_iff (e : Option Err) : errcodeField e ≠ 0 ↔ e.isSome := by
  obtain _ | e := e
  · decide
  · cases e <;> decide

/-- Settles O22: while `BUSY` is 1 `STATUS` is as step 1 wrote it, with `DONE` 0, and `ERR` says whether there is a
code. -/
theorem statusBitsAgree : Obligations.StatusBitsAgree := by
  intro s hs
  simp only [State.readReg, statusWord_getLsbD_busy, statusWord_getLsbD_done, statusWord_getLsbD_err,
    statusWord_errcode, errcodeField_ne_zero_iff, hs.err_iff, iff_self, and_true]
  rintro ⟨hbusy, hdone⟩
  rw [hs.started hbusy] at hdone
  exact nomatch hdone

/-! ### The canonical form of memory (log 3) -/

theorem memLookup_eq_none_of_lt {m : List Host.Cell} {a : Nat} (h : ∀ c ∈ m, a < c.1) : memLookup m a = none := by
  induction m with
  | nil => rfl
  | cons c m ih =>
    obtain ⟨hc, hm⟩ := List.forall_mem_cons.1 h
    rw [memLookup, if_neg hc.ne', ih hm]

/-- With rising offsets, what a lookup finds is what the list holds. -/
theorem memLookup_eq_some_iff {m : List Host.Cell} (h : m.Pairwise fun c d => c.1 < d.1) {a : Nat} {b : Byte} :
    memLookup m a = some b ↔ (a, b) ∈ m := by
  induction m with
  | nil => simp [memLookup]
  | cons c m ih =>
    obtain ⟨hc, hm⟩ := List.pairwise_cons.1 h
    obtain ⟨k, x⟩ := c
    rw [memLookup, List.mem_cons, Prod.mk.injEq]
    split
    · rename_i hk
      subst hk
      have hnot : (k, b) ∉ m := fun hmem => lt_irrefl k (hc _ hmem)
      simp [hnot, eq_comm]
    · rename_i hk
      rw [ih hm]
      simp [Ne.symm hk]

/-- Settles O23: both lists rise strictly and have the same members (`memLookup_eq_some_iff`). -/
theorem canonicalMemoriesAreEqual : Obligations.CanonicalMemoriesAreEqual := by
  intro m m' hm hm' hsame
  obtain ⟨hm, -⟩ := (memWf_iff m).1 hm
  obtain ⟨hm', -⟩ := (memWf_iff m').1 hm'
  have hanti : Std.Antisymm fun c d : Host.Cell => c.1 < d.1 := ⟨fun _ _ h h' => absurd h (lt_asymm h')⟩
  have hirr : Std.Irrefl fun c d : Host.Cell => c.1 < d.1 := ⟨fun c => lt_irrefl c.1⟩
  exact hm.eq_of_mem_iff hm' fun c => by
    rw [← memLookup_eq_some_iff hm, ← memLookup_eq_some_iff hm', hsame]

end Sys2Proof.Machine

/-! PROOFS. The laws of the codec (40_cipher.md rule R103, 42_header.md rule R136, 43_frame.md rule R160): the cipher
and the header codec undo themselves, and so do frame encoding and frame decoding, first on byte sequences and then as
`FENC` and `FDEC` run them. -/

namespace Sys2Proof.Machine

/-! ### The cipher (R103) -/

theorem xorKey_xorKey (b : List Byte) : xorKey (xorKey b) = b := by
  refine List.ext_getElem? fun i => ?_
  rw [xorKey_getElem?, xorKey_getElem?]
  cases b[i]? with
  | none => rfl
  | some x => simp

/-- After a whole number of keys the keystream starts again. -/
theorem keyByte_add_of_mod {n : Nat} (h : n % 7 = 0) (i : Nat) : keyByte (n + i) = keyByte i := by
  rw [keyByte, keyByte, Nat.add_mod, h, Nat.zero_add, Nat.mod_mod]

theorem xorKey_append {b : List Byte} (h : b.length % 7 = 0) (c : List Byte) :
    xorKey (b ++ c) = xorKey b ++ xorKey c := by
  refine List.ext_getElem? fun i => ?_
  rw [xorKey_getElem?]
  by_cases hi : i < b.length
  · rw [List.getElem?_append_left hi, List.getElem?_append_left (by rwa [xorKey_length]), xorKey_getElem?]
  · obtain ⟨j, rfl⟩ := Nat.exists_eq_add_of_le (not_lt.1 hi)
    rw [List.getElem?_append_right (by omega), List.getElem?_append_right (by rw [xorKey_length]; omega), xorKey_length,
      Nat.add_sub_cancel_left, xorKey_getElem?, keyByte_add_of_mod h]

/-- Settles O53: `xorKey_xorKey` and `xorKey_append`. -/
theorem cipherIsAnInvolution : Obligations.CipherIsAnInvolution :=
  ⟨xorKey_xorKey, fun _ c h => xorKey_append h c⟩

/-! ### The header codec (R136) -/

/-- A half is its two bytes. -/
theorem hiByte_append_loByte (v : Half) : hiByte v ++ loByte v = v := by
  ext k hk
  simp only [hiByte, loByte, BitVec.getElem_append, BitVec.getElem_extractLsb']
  split_ifs <;> rw [← BitVec.getLsbD_eq_getElem] <;> congr 1 <;> omega

theorem be16_append (a b : Byte) : be16 (a ++ b) = [a, b] := by
  rw [be16, hiByte_append, loByte_append]

/-- Decoding a header that is followed by anything. -/
theorem hdrDecode_hdrEncode_append (h : Header) (l : List Byte) : hdrDecode (hdrEncode h ++ l) = .ok h := by
  have hfc := fcOfByte_fcByte h.fc
  simp only [hdrEncode, be16, List.cons_append, List.nil_append, hdrDecode, hfc, unbe16, hiByte_append_loByte]

/-- Encoding a decoded header gives the first 8 bytes back. -/
theorem hdrEncode_of_hdrDecode {f : List Byte} {h : Header} (hdec : hdrDecode f = .ok h) : hdrEncode h = f.take 8 := by
  unfold hdrDecode at hdec
  split at hdec
  · split at hdec
    · cases hdec
    · rename_i fc hfc
      cases hdec
      simp [hdrEncode, unbe16, be16_append, fcByte_of_fcOfByte hfc]
  · cases hdec

theorem hdrDecode_length {f : List Byte} {h : Header} (hdec : hdrDecode f = .ok h) : 8 ≤ f.length := by
  by_contra hlt
  rw [hdrDecode_short (not_le.1 hlt)] at hdec
  exact nomatch hdec

/-- Eight bytes and more have a header exactly where byte 7 is in `FCSET`. -/
theorem hdrDecode_ok_iff {f : List Byte} (h : 8 ≤ f.length) : (∃ h, hdrDecode f = .ok h) ↔ f.getD 7 0 ∈ fcset := by
  rw [hdrDecode_long h, ← not_iff_not, ← fcOfByte_eq_none]
  cases fcOfByte (f.getD 7 0) <;> simp

/-- Settles O57: `hdrDecode_hdrEncode_append`, `hdrEncode_of_hdrDecode` and `hdrDecode_ok_iff`, on exactly 8 bytes. -/
theorem headerCodecRoundTrips : Obligations.HeaderCodecRoundTrips := by
  refine ⟨fun h => ⟨hdrEncode_length h, ?_⟩, fun b h hlen hdec => ?_, fun b hlen => hdrDecode_ok_iff hlen.ge⟩
  · rw [← List.append_nil (hdrEncode h)]
    exact hdrDecode_hdrEncode_append h []
  · rw [hdrEncode_of_hdrDecode hdec, List.take_of_length_le hlen.le]

/-! ### Frame encoding and frame decoding (R156, R158) -/

/-- What a frame that decodes is made of: its header, its ciphered payload and its trailer. -/
theorem frameDecode_ok_parts {role : Role} {f : List Byte} {d : DecodedFrame} (h : frameDecode role f = .ok d) :
    hdrDecode f = .ok d.header ∧ tableKind role d.header.fc = some d.kind ∧ 2 ≤ d.header.len.toNat ∧
      f.length = 8 + d.header.len.toNat ∧ f.drop (f.length - 2) = trailer (f.take (f.length - 2)) ∧
      d.payload = xorKey ((f.take (f.length - 2)).drop 8) := by
  cases hdec : hdrDecode f with
  | error e =>
    rw [frameDecode_of_error hdec] at h
    exact nomatch h
  | ok hd =>
    rw [frameDecode_of_header hdec] at h
    split_ifs at h with hlen hcrc
    obtain ⟨h2, hn⟩ := not_or.1 hlen
    cases hk : tableKind role hd.fc with
    | none =>
      rw [dispFc_none hk] at h
      exact nomatch h
    | some k =>
      rw [dispFc_some hk] at h
      cases h
      exact ⟨rfl, hk, not_lt.1 h2, not_not.1 hn, not_not.1 hcrc, rfl⟩

/-- Frame encoding undoes frame decoding (R160). -/
theorem frameEncode_of_frameDecode {role : Role} {f : List Byte} {d : DecodedFrame} (h : frameDecode role f = .ok d) :
    d.payload.length + 2 = d.header.len.toNat ∧
      frameEncode d.header.tid d.header.pid d.header.uid d.header.fc d.payload = f := by
  obtain ⟨hdec, -, h2, hlen, htrailer, hpayload⟩ := frameDecode_ok_parts h
  have hplen : d.payload.length + 2 = d.header.len.toNat := by
    rw [hpayload, xorKey_length, List.length_drop, List.length_take]
    omega
  have hhead : hdrEncode d.header ++ xorKey d.payload = f.take (f.length - 2) := by
    rw [hpayload, xorKey_xorKey, hdrEncode_of_hdrDecode hdec]
    have htake : f.take 8 = (f.take (f.length - 2)).take 8 := by rw [List.take_take, min_eq_left (by omega)]
    rw [htake, List.take_append_drop]
  refine ⟨hplen, ?_⟩
  calc frameEncode d.header.tid d.header.pid d.header.uid d.header.fc d.payload
      = hdrEncode d.header ++ xorKey d.payload ++ trailer (hdrEncode d.header ++ xorKey d.payload) := by
        simp only [frameEncode, hplen, BitVec.ofNat_toNat, BitVec.setWidth_eq]
    _ = f.take (f.length - 2) ++ f.drop (f.length - 2) := by rw [hhead, htrailer]
    _ = f := List.take_append_drop _ _

/-- The header that frame encoding writes: its length field counts the payload and the trailer. -/
def frameHeader (tid pid : Half) (uid : Byte) (fc : Fc) (n : Nat) : Header :=
  { tid := tid, pid := pid, len := BitVec.ofNat 16 (n + 2), uid := uid, fc := fc }

/-- Frame decoding undoes frame encoding, in a block whose table has the function code. -/
theorem frameDecode_frameEncode {role : Role} {fc : Fc} {k : Kind} (hk : tableKind role fc = some k) (tid pid : Half)
    (uid : Byte) {p : List Byte} (hp : p.length ≤ maxPayload) : frameDecode role (frameEncode tid pid uid fc p) =
      .ok { header := frameHeader tid pid uid fc p.length, payload := p, kind := k } := by
  have hp : p.length ≤ 65533 := hp
  obtain ⟨head, hhead⟩ : ∃ head, head = hdrEncode (frameHeader tid pid uid fc p.length) ++ xorKey p := ⟨_, rfl⟩
  have hframe : frameEncode tid pid uid fc p = head ++ trailer head := by rw [hhead]; rfl
  have hheadlen : head.length = p.length + 8 := by
    rw [hhead, List.length_append, hdrEncode_length, xorKey_length, Nat.add_comm]
  have hdec : hdrDecode (frameEncode tid pid uid fc p) = .ok (frameHeader tid pid uid fc p.length) := by
    rw [hframe, hhead, List.append_assoc]
    exact hdrDecode_hdrEncode_append _ _
  have hlen : (frameHeader tid pid uid fc p.length).len.toNat = p.length + 2 := by
    rw [frameHeader, BitVec.toNat_ofNat, Nat.mod_eq_of_lt (by omega)]
  have hcut : (frameEncode tid pid uid fc p).length - 2 = head.length := by rw [frameEncode_length, hheadlen]; omega
  rw [frameDecode_of_header hdec, hcut, frameEncode_length, hlen, if_neg (by omega), hframe, List.drop_left,
    List.take_left, if_neg (not_not.2 rfl), show (frameHeader tid pid uid fc p.length).fc = fc from rfl,
    dispFc_some hk, hhead, List.drop_left' (hdrEncode_length _), xorKey_xorKey]
  rfl

/-! ### `FENC` after `FDEC`, and `FDEC` after `FENC` -/

/-- A command's input, where `IBUF` holds the bytes that another state has in `OBUF`. -/
theorem State.input_eq_of_obuf {t u : State} {bs : List Byte} (hlen : u.ilen = t.olen)
    (holen : t.olen.toNat = bs.length) (hbs : ∀ i b, bs[i]? = some b → t.obufByte i = b)
    (hcopy : ∀ i, i < t.olen.toNat → u.ibufByte i = t.obufByte i) : u.input = bs := by
  have hlen : u.ilen.toNat = bs.length := by rw [hlen, holen]
  refine List.ext_getElem (by rw [State.input_length, hlen]) fun i hi hi' => Option.some_inj.1 ?_
  rw [← List.getElem?_eq_getElem hi, u.input_getElem? (by omega), hcopy i (by omega),
    hbs i _ (List.getElem?_eq_getElem hi')]

/-- A command that reads `IBUF` and ended without an error had an input that fits. -/
theorem fits_of_completed {i : Instr} {s t : State} (hi : i ∈ [.xor, .crc, .crcchk, .hdec, .plen, .fenc, .fdec])
    (h : exec i s = .next t) (hcode : t.status.errcode = none) : s.ilen.toNat ≤ bufBytes := by
  by_contra hlong
  rw [exec_ilen hi (not_le.1 hlong)] at h
  cases h
  exact nomatch hcode

/-- An `FDEC` that ended without an error decoded its input. -/
theorem exec_fdec_completed {s t : State} (h : exec .fdec s = .next t) (hcode : t.status.errcode = none) :
    ∃ d, frameDecode s.role s.input = .ok d ∧
      t = ((((s.setHeader d.header).output d.payload).setResult
        (swap16 (crc16 (s.inputBytes.take (s.ilen.toNat - 2)))) false).setKind d.kind).endOk := by
  have hfits := fits_of_completed (by decide) h hcode
  cases hd : frameDecode s.role s.input with
  | error e =>
    rw [exec_fdec_error hfits hd] at h
    cases h
    exact nomatch hcode
  | ok d =>
    rw [exec_fdec_ok hfits hd] at h
    cases h
    exact ⟨d, rfl, rfl⟩

/-- An `FENC` that ended without an error encoded its input. -/
theorem exec_fenc_completed {s t : State} (h : exec .fenc s = .next t) (hcode : t.status.errcode = none) :
    s.ilen.toNat ≤ maxPayload ∧ t = s.fencDone := by
  have hfits := fits_of_completed (by decide) h hcode
  by_cases hfc : s.hufc.fc ∈ fcset
  case neg =>
    rw [exec_fenc_unknown hfits hfc] at h
    cases h
    exact nomatch hcode
  by_cases hn : s.ilen.toNat ≤ maxPayload
  case neg =>
    rw [exec_fenc_tooLong (not_le.1 hn) hfits hfc] at h
    cases h
    exact nomatch hcode
  rw [exec_fenc_fits hn hfc] at h
  cases h
  exact ⟨hn, rfl⟩

/-- The length of an input, as the register `OLEN` holds it. -/
theorem State.ofNat_input_length (s : State) : BitVec.ofNat 17 s.input.length = s.ilen := by
  rw [State.input_length, BitVec.ofNat_toNat, BitVec.setWidth_eq]

/-- Settles O58: the input of `FENC` is the decoded payload, so its frame is the decoded one
(`frameEncode_of_frameDecode`). -/
theorem fencOfFdecGivesTheFrame : Obligations.FencOfFdecGivesTheFrame := by
  intro s t u _ h hcode htid hpid hufc hilen hcopy
  obtain ⟨d, hd, rfl⟩ := exec_fdec_completed h hcode
  obtain ⟨-, -, -, hlen, -⟩ := frameDecode_ok_parts hd
  obtain ⟨hplen, hframe⟩ := frameEncode_of_frameDecode hd
  have hn : d.payload.length ≤ 65533 := by have := d.header.len.isLt; omega
  have hinput : u.input = d.payload := State.input_eq_of_obuf hilen
    (by show (BitVec.ofNat 17 d.payload.length).toNat = _; rw [BitVec.toNat_ofNat, Nat.mod_eq_of_lt (by omega)])
    (fun i b hb => State.obufByte_output (s := s.setHeader d.header) hb) hcopy
  have hulen : u.ilen.toNat = d.payload.length := by rw [← State.input_length, hinput]
  have hfc : fcByte d.header.fc = u.hufc.fc := by rw [hufc]; rfl
  have hfenc : u.fencFrame = s.input := by
    rw [← frameEncode_input hfc, htid, hpid, hufc, hinput]
    exact hframe
  refine ⟨u.fencDone, exec_fenc_fits (hulen.trans_le hn) (hfc ▸ fcByte_mem _), endsOk_of rfl rfl, ?_, ?_,
    fun i hi => State.fencDone_obufByte (hfenc ▸ s.input_getElem? hi)⟩
  · show BitVec.ofNat 17 u.fencFrame.length = s.ilen
    rw [hfenc, State.ofNat_input_length]
  · show BitVec.ofNat 16 (u.ilen.toNat + 2) = d.header.len
    rw [hulen, hplen, BitVec.ofNat_toNat, BitVec.setWidth_eq]

/-- Settles O59: the input of `FDEC` is the encoded frame, which decodes to its parts (`frameDecode_frameEncode`). -/
theorem fdecOfFencGivesThePayload : Obligations.FdecOfFencGivesThePayload := by
  intro s t u fc k _ h hcode hfc hk hilen hcopy
  obtain ⟨hn, rfl⟩ := exec_fenc_completed h hcode
  have hn : s.ilen.toNat ≤ 65533 := hn
  have hinput : u.input = s.fencFrame := State.input_eq_of_obuf hilen
    (by show (BitVec.ofNat 17 s.fencFrame.length).toNat = _
        rw [BitVec.toNat_ofNat, State.fencFrame_length, Nat.mod_eq_of_lt (by omega)])
    (fun i b hb => State.fencDone_obufByte hb) hcopy
  have hulen : u.ilen.toNat = s.ilen.toNat + 10 := by rw [← State.input_length, hinput, State.fencFrame_length]
  have hdec := frameDecode_frameEncode hk s.htid s.hpid s.hufc.uid (p := s.input) (by rwa [State.input_length])
  rw [frameEncode_input hfc.symm, ← hinput] at hdec
  refine ⟨_, exec_fdec_ok (hulen.trans_le (by show _ ≤ 65543; omega)) hdec, endsWithKind_of rfl rfl, rfl, rfl, ?_, ?_,
    s.ofNat_input_length, ?_, fun i hi => State.obufByte_output (s.input_getElem? hi)⟩
  · show BitVec.ofNat 16 (s.input.length + 2) = BitVec.ofNat 16 (s.ilen.toNat + 2)
    rw [State.input_length]
  · show Hufc.mk s.hufc.uid (fcByte fc) = s.hufc
    rw [← hfc]
  · show Result.mk (swap16 (crc16 (u.inputBytes.take (u.ilen.toNat - 2)))) false =
      Result.mk (swap16 (crc16 s.fencBytes)) false
    rw [← State.input_eq, hinput, hulen, Nat.add_sub_assoc (by decide), State.fencFrame_take]

end Sys2Proof.Machine

/-! PROOFS. The CRC register and its laws (41_crc.md rules R110 to R113 and R119), and the command `CRCCHK` (R117). -/

namespace Sys2Proof.Machine
section
open Sys2Proof.Claims

/-! ### The register, byte by byte (R110) -/

theorem crcShifts_eq_iterate (k : Nat) (r : Half) : crcShifts k r = crcShift^[k] r := by
  induction k generalizing r with
  | zero => rfl
  | succ k ih => exact ih (crcShift r)

theorem crc16_append (p q : List Byte) : crc16 (p ++ q) = q.foldl crcByte (crc16 p) := List.foldl_append

theorem unbe16_trailer (p : List Byte) : unbe16 (hiByte (crc16 p)) (loByte (crc16 p)) = crc16 p :=
  hiByte_append_loByte (crc16 p)

/-- Settles O54: the register takes a byte by `crcByte`, whose shifts are an iteration (`crcShifts_eq_iterate`), and the
trailer is its two bytes (`trailer_eq`). -/
theorem trailerIsHighByteFirst : Obligations.TrailerIsHighByteFirst := by
  refine ⟨⟨rfl, fun p b => ?_⟩, fun p => ⟨trailer_eq p, rfl, rfl, fun t0 t1 h => ?_⟩⟩
  · rw [crc16_append]
    show crcShifts 8 (crc16 p ^^^ b.zeroExtend 16) = _
    have hext : b.zeroExtend 16 = 0#8 ++ b := BitVec.setWidth_eq_append (by decide)
    rw [crcShifts_eq_iterate, hext]
    rfl
  · rw [trailer_eq] at h
    cases h
    exact ⟨rfl, (unbe16_trailer p).symm⟩

/-! ### The register tells single bits apart (R119) -/

/-- A shift puts the bit that leaves into bit 15. -/
theorem crcShift_getLsbD_top (r : Half) : (crcShift r).getLsbD 15 = r.getLsbD 0 := by
  unfold crcShift
  split
  · rename_i h
    simp [h]
  · rename_i h
    simpa using h

theorem crcShift_injective : Function.Injective crcShift := by
  intro r r' h
  have hlow : r.getLsbD 0 = r'.getLsbD 0 := by rw [← crcShift_getLsbD_top, ← crcShift_getLsbD_top, h]
  have hhigh : r >>> 1 = r' >>> 1 := by
    unfold crcShift at h
    rw [hlow] at h
    split at h
    · exact (BitVec.xor_left_inj _).1 h
    · exact h
  refine BitVec.eq_of_getLsbD_eq fun k hk => ?_
  cases k with
  | zero => exact hlow
  | succ k => simpa [Nat.add_comm] using congrArg (BitVec.getLsbD · k) hhigh

theorem crcShifts_injective (k : Nat) : Function.Injective (crcShifts k) := by
  rw [funext (crcShifts_eq_iterate k)]
  exact crcShift_injective.iterate k

/-- Registers that differ still do after the same bytes. -/
theorem crcFold_injective (q : List Byte) : Function.Injective fun r => q.foldl crcByte r := by
  induction q with
  | nil => exact Function.injective_id
  | cons b q ih =>
    intro r r' h
    exact (BitVec.xor_left_inj _).1 (crcShifts_injective 8 (ih h))

/-- One register differs after bytes that differ. -/
theorem crcByte_injective (r : Half) : Function.Injective (crcByte r) := by
  intro b b' h
  have hext : b.zeroExtend 16 = b'.zeroExtend 16 := (BitVec.xor_right_inj _).1 (crcShifts_injective 8 h)
  simpa using congrArg (BitVec.setWidth 8) hext

/-- Sequences that differ in one byte have different registers. -/
theorem crc16_ne_of_byte_ne {p q : List Byte} {b b' : Byte} (h : b ≠ b') :
    crc16 (p ++ b :: q) ≠ crc16 (p ++ b' :: q) := by
  rw [crc16_append, crc16_append]
  exact fun heq => h (crcByte_injective _ (crcFold_injective q heq))

/-- The same of sequences given byte by byte. -/
theorem crc16_map_range_ne {f g : Nat → Byte} {m j : Nat} (hj : j < m) (hne : f j ≠ g j)
    (hsame : ∀ i, i < m → i ≠ j → f i = g i) : crc16 ((List.range m).map f) ≠ crc16 ((List.range m).map g) := by
  obtain ⟨n, rfl⟩ := Nat.exists_eq_add_of_le (Nat.succ_le_of_lt hj)
  have hsplit (f : Nat → Byte) : (List.range (j.succ + n)).map f =
      (List.range j).map f ++ f j :: (List.range n).map fun i => f (j.succ + i) := by
    simp [List.range_add, List.range_succ, Function.comp_def]
  have hpre : (List.range j).map f = (List.range j).map g :=
    List.map_congr_left fun i hi => hsame i (by have := List.mem_range.1 hi; omega) (List.mem_range.1 hi).ne
  have hpost : ((List.range n).map fun i => f (j.succ + i)) = (List.range n).map fun i => g (j.succ + i) :=
    List.map_congr_left fun i hi => hsame _ (by have := List.mem_range.1 hi; omega) (by omega)
  rw [hsplit, hsplit, hpre, hpost]
  exact crc16_ne_of_byte_ne hne

/-! ### The command `CRCCHK` (R117) -/

/-- Settles O35: after `exec_ilen` the outcomes are `exec_crcchk_short`, `exec_crcchk_wrong` and `exec_crcchk_right`. -/
theorem crcchkComparesTheTrailer : Obligations.CrcchkComparesTheTrailer := by
  refine ⟨wordsOf_plain fun w hop => by rw [decodeWord, hop]; rfl, fun s => ⟨fun hlong => ?_, fun hshort => ?_,
    fun h2 hfits hwrong => ?_, fun h2 hfits hright => ?_⟩⟩
  · exact exec_ilen (by decide) hlong
  · exact ⟨_, exec_crcchk_short hshort, endsInError_raise _ _ _, rfl⟩
  · exact ⟨_, exec_crcchk_wrong h2 hfits hwrong, endsInError_raise _ _ _, rfl⟩
  · refine ⟨_, exec_crcchk_right h2 hfits hright, endsOk_of rfl rfl, ?_, rfl⟩
    rw [← State.input_eq]
    rfl

/-- Settles O55: the last two bytes are the trailer of the bytes before them, so `CRCCHK` completes. -/
theorem ownTrailerPassesCrcchk : Obligations.OwnTrailerPassesCrcchk := by
  intro s b _ hlen hfits hin
  have hright : ¬ trailerWrong s s.ilen.toNat := by
    rw [← input_drop_ne_trailer_iff (by omega), not_not, State.input_eq, hin, hlen, Nat.add_sub_cancel,
      List.drop_left, List.take_left]
  exact ⟨_, exec_crcchk_right (by omega) (hlen.trans_le hfits) hright, endsOk_of rfl rfl⟩

/-- A `CRCCHK` that ended without an error found the trailer right. -/
theorem exec_crcchk_completed {s t : State} (h : exec .crcchk s = .next t) (hcode : t.status.errcode = none) :
    2 ≤ s.ilen.toNat ∧ s.ilen.toNat ≤ bufBytes ∧ ¬ trailerWrong s s.ilen.toNat := by
  have hfits := fits_of_completed (by decide) h hcode
  have h2 : 2 ≤ s.ilen.toNat := by
    by_contra hshort
    rw [exec_crcchk_short (not_le.1 hshort)] at h
    cases h
    exact nomatch hcode
  refine ⟨h2, hfits, fun hwrong => ?_⟩
  rw [exec_crcchk_wrong h2 hfits hwrong] at h
  cases h
  exact nomatch hcode

/-! ### A flipped bit (R119) -/

/-- The trailer is wrong where its two bytes, high byte first, are not the register of the bytes before them. -/
theorem trailerWrong_iff (s : State) : trailerWrong s s.ilen.toNat ↔
    (s.ibufByte (s.ilen.toNat - 2) ++ s.ibufByte (s.ilen.toNat - 1) : Half) ≠
      crc16 ((List.range (s.ilen.toNat - 2)).map s.ibufByte) := by
  have happend (a b : Byte) (v : Half) : (a, b) = (hiByte v, loByte v) ↔ a ++ b = v := by
    constructor
    · rintro h
      cases h
      exact hiByte_append_loByte v
    · rintro rfl
      rw [hiByte_append, loByte_append]
  have htake : s.inputBytes.take (s.ilen.toNat - 2) = (List.range (s.ilen.toNat - 2)).map s.ibufByte := by
    rw [State.inputBytes, ← List.map_take, List.take_range, min_eq_left (Nat.sub_le _ _)]
  rw [trailerWrong, htake, ne_eq, ne_eq, happend]

theorem flipped_ne {k : Nat} (hk : k < 8) (b : Byte) : b ^^^ 1#8 <<< k ≠ b := by
  have hbit : 1#8 <<< k ≠ 0#8 := by
    interval_cases k <;> decide
  intro h
  exact hbit ((BitVec.xor_right_inj b).1 (h.trans BitVec.xor_zero.symm))

/-- Settles O56: a flipped bit before the trailer changes the register (`crc16_map_range_ne`) and not the trailer; one
in the trailer changes the trailer and not the register. -/
theorem singleBitFlipFailsCrcchk : Obligations.SingleBitFlipFailsCrcchk := by
  intro s t u j k _ h hcode hilen hj hk hflip hsame
  obtain ⟨h2, hfits, hright⟩ := exec_crcchk_completed h hcode
  rw [trailerWrong_iff, not_not] at hright
  have hne : u.ibufByte j ≠ s.ibufByte j := hflip ▸ flipped_ne hk _
  refine ⟨_, exec_crcchk_wrong (hilen ▸ h2) (hilen ▸ hfits) ?_, endsInError_raise _ _ _⟩
  rw [trailerWrong_iff, hilen]
  by_cases hbody : j < s.ilen.toNat - 2
  · rw [hsame _ (by omega) (by omega), hsame _ (by omega) (by omega), hright]
    exact (crc16_map_range_ne hbody hne fun i hi => hsame i (by omega)).symm
  · have hreg : (List.range (s.ilen.toNat - 2)).map u.ibufByte = (List.range (s.ilen.toNat - 2)).map s.ibufByte :=
      List.map_congr_left fun i hi => by
        have := List.mem_range.1 hi
        exact hsame i (by omega) (by omega)
    rw [hreg, ← hright]
    intro heq
    have hhi := (hiByte_append _ _).symm.trans ((congrArg hiByte heq).trans (hiByte_append _ _))
    have hlo := (loByte_append _ _).symm.trans ((congrArg loByte heq).trans (loByte_append _ _))
    obtain rfl | rfl : j = s.ilen.toNat - 2 ∨ j = s.ilen.toNat - 1 := by omega
    · exact hne hhi
    · exact hne hlo

end
end Sys2Proof.Machine

/-! PROOFS. The step (30_encoding.md section 3, 70_reset_and_hazards.md sections 1 and 4): what an event makes of a
state, that the command in flight is run, and what only reset or a command of its own changes. -/

namespace Sys2Proof.Machine
section
open Sys2Proof.Claims

/-! ### The next event (R244, log 8) -/

/-- With no listed event, a command in flight makes the block move. -/
theorem State.takeEvent_inflight {s : State} {w : Word} (hev : s.events = []) (hw : s.inflight = some w) :
    s.takeEvent.1 = some .block := by
  simp only [State.takeEvent_nil hev, State.defaultEvent, hw]

theorem State.takeEvent_idle {s : State} (hev : s.events = []) (hw : s.inflight = none) :
    s.takeEvent.1 = (s.hosts.findIdx? fun a => !a.ended).map .host := by
  simp only [State.takeEvent_nil hev, State.defaultEvent, hw]

/-- With no command in flight either, the first agent with a line left moves. -/
theorem State.takeEvent_firstAgent {s : State} {k : Nat} {a : HostAgent} (hev : s.events = [])
    (hw : s.inflight = none) (ha : s.hosts[k]? = some a) (hline : a.pc < a.prog.length)
    (hfirst : ∀ j b, j < k → s.hosts[j]? = some b → b.prog.length ≤ b.pc) : s.takeEvent.1 = some (.host k) := by
  obtain ⟨hk, hget⟩ := List.getElem?_eq_some_iff.1 ha
  have hfind : s.hosts.findIdx? (fun a => !a.ended) = some k := by
    refine List.findIdx?_eq_some_iff_getElem.2 ⟨hk, by simpa [hget, HostAgent.ended] using hline, fun j hj => ?_⟩
    simpa [HostAgent.ended] using hfirst j _ hj (List.getElem?_eq_getElem (hj.trans hk))
  rw [State.takeEvent_idle hev hw, hfind]
  rfl

/-- With no agent left either, the machine is idle. -/
theorem step_idle {s : State} (hev : s.events = []) (hw : s.inflight = none)
    (hended : ∀ a ∈ s.hosts, a.prog.length ≤ a.pc) : step s = .next s := by
  have hfind : s.hosts.findIdx? (fun a => !a.ended) = none :=
    List.findIdx?_eq_none_iff.2 fun a ha => by simpa [HostAgent.ended] using hended a ha
  rw [step_eq, State.takeEvent_idle hev hw, hfind, State.takeEvent_nil hev]
  rfl

theorem step_of_host {s : State} {k : Nat} (h : s.takeEvent.1 = some (.host k)) :
    step s = hostStep k s.takeEvent.2 := by rw [step_eq, h]

theorem step_of_reset {s : State} {strap : Role} {es : List Event} (h : s.events = .reset strap :: es) :
    step s = .next (s.takeEvent.2.applyReset strap) := by rw [step_eq, State.takeEvent_cons h]

theorem step_of_block_idle {s : State} {es : List Event} (h : s.events = .block :: es) (hw : s.inflight = none) :
    step s = .next s.takeEvent.2 := by
  rw [step_eq, State.takeEvent_cons h]
  simp only [blockStep, hw]

/-- Settles O5: `step_of_blockNext`, `step_of_host`, `step_of_reset` and `step_of_block_idle` by the event that is
taken, and with no listed event `State.takeEvent_inflight`, `State.takeEvent_firstAgent` and `step_idle`. -/
theorem stepRunsTheCommandInFlight : Obligations.StepRunsTheCommandInFlight := by
  intro s t
  have ht : s.takeEvent.2 = t := s.takeEvent_state
  refine ⟨ht, fun w hnext => ⟨fun i hi => ?_, fun e he => ?_⟩, fun k hk => ?_, fun e es hes => ⟨?_, ?_, ?_⟩,
    fun hev => ⟨fun w hw => s.takeEvent_inflight hev hw, fun hw => ⟨fun k a ha hline hfirst => ?_, fun hended => ?_⟩⟩⟩
  · rw [step_of_blockNext hnext, ht, runCommand_of_decodeWord_ok hi]
  · rw [step_of_blockNext hnext, ht, runCommand_of_decodeWord_error he]
  · rw [step_of_host hk, ht]
  · rw [State.takeEvent_cons hes]
  · rintro rfl hw
    rw [step_of_block_idle hes hw, ht]
  · rintro strap rfl
    rw [step_of_reset hes, ht]
  · exact s.takeEvent_firstAgent hev hw ha hline hfirst
  · exact step_idle hev hw hended

/-! ### A command in flight is run -/

/-- Settles O15: what a host can do while a command runs is to draw (`hostStep_frame`). -/
theorem hostStepsWhileBusyLeaveTheBlockAlone : Obligations.HostStepsWhileBusyLeaveTheBlockAlone := by
  intro s t k hb h
  obtain ⟨u, ht, rfl | ⟨hidle, -⟩⟩ := hostStep_frame h
  · exact ht
  · rw [hb] at hidle
    exact nomatch hidle

/-- Host events leave the command in flight and `STATUS`. -/
theorem after_hostEvents {w : Word} {t : State} (es : List Event) {s : State} (hes : s.events = es)
    (hb : s.status.busy = true) (hw : s.inflight = some w) (hhost : ∀ e ∈ es, ∃ k, e = .host k)
    (h : after es.length s = some t) : t.inflight = some w ∧ t.status = s.status ∧ t.events = [] := by
  induction es generalizing s with
  | nil =>
    cases h
    exact ⟨hw, rfl, hes⟩
  | cons e es ih =>
    obtain ⟨⟨k, rfl⟩, hrest⟩ := List.forall_mem_cons.1 hhost
    have hstep : step s = hostStep k { s with events := es } := by
      rw [step_of_host (k := k) (by rw [State.takeEvent_cons hes]), State.takeEvent_cons hes]
    rw [List.length_cons, after, hstep] at h
    split at h
    · rename_i u hu
      have hframe := hostStepsWhileBusyLeaveTheBlockAlone { s with events := es } u k hb hu
      obtain ⟨hw', hst, hev⟩ :=
        ih (s := u) (by rw [hframe]) (by rw [hframe]; exact hb) (by rw [hframe]; exact hw) hrest h
      exact ⟨hw', hst.trans (by rw [hframe]), hev⟩
    · cases h

/-- Settles O7: after the host events the list is empty and the command still in flight, so the block moves. -/
theorem blockMovesWhenEventsAreUsedUp : Obligations.BlockMovesWhenEventsAreUsedUp := by
  intro s t w hs hw hhost h
  obtain ⟨htw, hst, hev⟩ := after_hostEvents s.events rfl (by rw [hs.busy_iff, hw]; rfl) hw hhost h
  refine ⟨htw, hst, ?_⟩
  rw [step_of_blockNext ⟨htw, t.takeEvent_inflight hev htw⟩, State.takeEvent_nil hev]

/-! ### What a step leaves of the role, the parameters and the tables -/

/-- A host leaves `CONFIG`, the parameters and the tables. -/
theorem HostMoves.config_tables {s t : State} (h : HostMoves s t) :
    t.params = s.params ∧ t.role = s.role ∧ t.txLast = s.txLast ∧ t.rxLast = s.rxLast := by
  obtain ⟨u, ht, hu⟩ := h
  rw [ht]
  obtain rfl | ⟨-, ⟨r, x, rfl⟩ | ⟨off, b, -, rfl⟩⟩ := hu
  · exact ⟨rfl, rfl, rfl, rfl⟩
  · cases r <;> exact ⟨rfl, rfl, rfl, rfl⟩
  · exact ⟨rfl, rfl, rfl, rfl⟩

/-- The block leaves `CONFIG` and the parameters. -/
theorem blockStep_config {s t : State} (h : blockStep s = .next t) : t.params = s.params ∧ t.role = s.role := by
  obtain rfl | ⟨w, -, rfl | ⟨i, -, -, hends⟩⟩ := blockStep_cases h
  · exact ⟨rfl, rfl⟩
  · exact ⟨rfl, rfl⟩
  · rw [hends.frame]
    exact ⟨rfl, rfl⟩

/-- Settles O24: neither the block (`blockStep_config`) nor a host (`HostMoves.config_tables`) writes `CONFIG`. -/
theorem roleChangesOnlyByReset : Obligations.RoleChangesOnlyByReset := by
  intro s t h
  obtain ⟨u, -, hu, hmove⟩ := step_cases h
  have hparams : u.params = s.params := by rw [hu]
  have hrole : u.role = s.role := by rw [hu]
  obtain ⟨-, hblock⟩ | ⟨k, -, hhost⟩ | ⟨strap, hreset, rfl⟩ | rfl := hmove
  · obtain ⟨hp, hr⟩ := blockStep_config hblock
    exact ⟨hp.trans hparams, .inl (hr.trans hrole)⟩
  · obtain ⟨hp, hr, -, -⟩ := (hostStep_frame hhost).config_tables
    exact ⟨hp.trans hparams, .inl (hr.trans hrole)⟩
  · exact ⟨hparams, .inr ⟨strap, hreset, rfl⟩⟩
  · exact ⟨hparams, .inl hrole⟩

/-- What a step that changes a table ran: the block's command in flight, or a reset. -/
theorem step_tables {s t : State} (h : step s = .next t) : (t.txLast = s.txLast ∧ t.rxLast = s.rxLast) ∨
    (∃ strap, s.events.head? = some (.reset strap)) ∨
    ∃ i w u, s.BlockNext w ∧ decodeWord w = .ok i ∧ u = { s with events := u.events } ∧ Ends i u t := by
  obtain ⟨u, -, hu, hmove⟩ := step_cases h
  have htables : u.txLast = s.txLast ∧ u.rxLast = s.rxLast := by
    rw [hu]
    exact ⟨rfl, rfl⟩
  obtain ⟨hnext, hblock⟩ | ⟨k, -, hhost⟩ | ⟨strap, hreset, -⟩ | rfl := hmove
  · obtain rfl | ⟨w, hw, rfl | ⟨i, hi, -, hends⟩⟩ := blockStep_cases hblock
    · exact .inl htables
    · exact .inl htables
    · exact .inr (.inr ⟨i, w, u, ⟨by rw [← hw, hu], hnext⟩, hi, hu, hends⟩)
  · obtain ⟨-, -, htx, hrx⟩ := (hostStep_frame hhost).config_tables
    exact .inl ⟨htx.trans htables.1, hrx.trans htables.2⟩
  · exact .inr (.inl ⟨strap, hreset⟩)
  · exact .inl htables

/-- An entry that a write of one entry changed is that entry. -/
theorem fc_eq_of_tidSet_ne {tab : TidTable} {fc fc' : Fc} {e : Option Half}
    (h : tidGet (tidSet tab fc' e) fc ≠ tidGet tab fc) : fc' = fc := by
  by_contra hne
  exact h (tidGet_tidSet_other _ _ (Ne.symm hne))

/-- Settles O25: a command that changes a table (`step_tables`) is `TIDCLR` or writes one entry (`Ends.tx`,
`Ends.rx`). -/
theorem tablesChangeOnlyByTheirCommands : Obligations.TablesChangeOnlyByTheirCommands := by
  intro s t fc h
  obtain ⟨htx, hrx⟩ | hreset | ⟨i, w, u, hnext, hi, hu, hends⟩ := step_tables h
  · rw [htx, hrx]
    exact ⟨fun hne => absurd rfl hne, fun hne => absurd rfl hne⟩
  · exact ⟨fun _ => .inr (.inr hreset), fun _ => .inr (.inr hreset)⟩
  have htx : u.txLast = s.txLast := by rw [hu]
  have hrx : u.rxLast = s.rxLast := by rw [hu]
  constructor
  · intro hne
    obtain hsame | rfl | ⟨fc', v, rfl, hset⟩ := hends.tx
    · exact absurd (by rw [hsame, htx]) hne
    · exact .inr (.inl ⟨w, hnext, hi⟩)
    · rw [hset, htx] at hne
      obtain rfl := fc_eq_of_tidSet_ne hne
      exact .inl ⟨w, hnext, hi⟩
  · intro hne
    obtain hsame | rfl | ⟨fc', rfl, hset⟩ := hends.rx
    · exact absurd (by rw [hsame, hrx]) hne
    · exact .inr (.inl ⟨w, hnext, hi⟩)
    · rw [hset, hrx] at hne
      obtain rfl := fc_eq_of_tidSet_ne hne
      exact .inl ⟨w, hnext, hi⟩

/-- Every register but `CONFIG` reads 0 after reset (R230). -/
theorem State.applyReset_readReg (s : State) (strap : Role) {r : Reg} (h : r ≠ .config) :
    (s.applyReset strap).readReg r = 0 := by
  cases r
  case config => exact absurd rfl h
  case cmd => rfl
  case status => exact show statusWord Status.reset = 0 by decide
  all_goals
    simp only [State.readReg, State.applyReset_ilen, State.applyReset_olen, State.applyReset_htid,
      State.applyReset_hpid, State.applyReset_hlen, State.applyReset_hufc, State.applyReset_result]
    decide

/-- Settles O26: the step is `State.applyReset` (`step_of_reset`), field by field. -/
theorem resetEventLeavesResetValues : Obligations.ResetEventLeavesResetValues := by
  intro s strap es hes
  have hzero (r : Reg) (h : r ≠ .config) := s.takeEvent.2.applyReset_readReg strap h
  refine ⟨_, step_of_reset hes, hzero .status nofun, hzero .cmd nofun, hzero .ilen nofun, hzero .olen nofun,
    hzero .htid nofun, hzero .hpid nofun, hzero .hlen nofun, hzero .hufc nofun, hzero .result nofun, ?_,
    fun fc => ⟨tidGet_empty fc, tidGet_empty fc⟩, rfl, rfl, ?_⟩
  · rw [State.readReg, State.applyReset_role]
    cases strap <;> decide
  · rw [State.takeEvent_cons hes]
    exact ⟨rfl, rfl, rfl⟩

end
end Sys2Proof.Machine

/-! PROOFS. What host accesses read and write (10_state.md section 2; 20_memory.md rules R54, R55 and R61): the
registers as numbers, reads while a command runs and while none does, and writes of values that fit and of values that
do not. -/

namespace Sys2Proof.Machine

/-! ### Registers as numbers (R22 to R32) -/

/-- A word of two parts, as a number. -/
theorem toNat_append_add {n m : Nat} (x : BitVec n) (y : BitVec m) :
    (x ++ y).toNat = x.toNat * 2 ^ m + y.toNat := by
  rw [BitVec.toNat_append, ← Nat.shiftLeft_add_eq_or_of_lt y.isLt, Nat.shiftLeft_eq]

/-- Reserved bits above a field read 0. -/
theorem toNat_zero_append (n : Nat) {m : Nat} (y : BitVec m) : (0#n ++ y).toNat = y.toNat := by
  rw [toNat_append_add, BitVec.toNat_ofNat, Nat.zero_mod, Nat.zero_mul, Nat.zero_add]

theorem toNat_flagBit (b : Bool) : (flagBit b).toNat = b.toNat := BitVec.toNat_ofBool b

/-- The fields of `STATUS` at their places (R23). -/
theorem statusWord_toNat (st : Status) : (statusWord st).toNat = st.busy.toNat + 2 * st.done.toNat +
    4 * st.err.toNat + 256 * (errcodeField st.errcode).toNat + 65536 * (kindCode st.kind).toNat := by
  calc (statusWord st).toNat
      = (0#8 ++ kindCode st.kind ++ errcodeField st.errcode ++ 0#5 ++ flagBit st.err ++ flagBit st.done).toNat * 2 ^ 1 +
          (flagBit st.busy).toNat := toNat_append_add _ _
    _ = _ := by
      simp only [toNat_append_add, toNat_flagBit, BitVec.toNat_ofNat, Nat.zero_mod]
      omega

theorem readReg_hufc_toNat (s : State) :
    (s.readReg .hufc).toNat = s.hufc.uid.toNat + 256 * s.hufc.fc.toNat := by
  calc (s.readReg .hufc).toNat
      = (0#16 ++ s.hufc.fc).toNat * 2 ^ 8 + s.hufc.uid.toNat := toNat_append_add _ _
    _ = _ := by rw [toNat_zero_append]; omega

theorem readReg_result_toNat (s : State) :
    (s.readReg .result).toNat = s.result.value.toNat + 65536 * s.result.valid.toNat := by
  calc (s.readReg .result).toNat
      = (0#15 ++ flagBit s.result.valid).toNat * 2 ^ 16 + s.result.value.toNat := toNat_append_add _ _
    _ = _ := by rw [toNat_zero_append, toNat_flagBit]; omega

theorem readReg_config_toNat (s : State) :
    (s.readReg .config).toNat = match s.role with | .server => 0 | .client => 1 := by
  refine (toNat_zero_append 31 (roleBit s.role)).trans ?_
  cases s.role <;> rfl

/-! ### Reads (R54, R55, R61) -/

/-- A read of a register while no command runs, as the number its fields make. -/
theorem hostRead_reg_toNat {s : State} (hb : s.status.busy = false) (r : Reg) {n : Nat}
    (h : (s.readReg r).toNat = n) : hostRead s .w32 (s.params.base + regOffset r) = .ok (n, s) :=
  h ▸ hostRead_reg hb r

/-- A read of a register other than `STATUS` while a command runs. -/
theorem hostRead_reg_busy {s : State} (hb : s.status.busy = true) {r : Reg} (hr : r ≠ .status) :
    hostRead s .w32 (s.params.base + regOffset r) =
      .ok ((Config.freeWord s.draws (regOffset r)).toNat, { s with draws := s.draws + 1 }) := by
  have hoff : regOffset r < 0x80000 := by cases r <;> decide
  rw [hostRead_of_target s hoff (targetAt_reg r)]
  cases r
  case status => exact absurd rfl hr
  all_goals exact congrArg Except.ok (if_pos hb)

/-- A read of `STATUS`, whether a command runs or not. -/
theorem hostRead_status (s : State) :
    hostRead s .w32 (s.params.base + regOffset .status) = .ok ((s.readReg .status).toNat, s) :=
  hostRead_of_target s (by decide) (targetAt_reg .status)

/-- A read of `OBUF` while a command runs. -/
theorem hostRead_obuf_busy {s : State} (hb : s.status.busy = true) {i : Nat} (hi : i < 65543) :
    hostRead s .w8 (s.params.base + 0x40000 + i) =
      .ok (((Config.freeWord s.draws (0x40000 + i)).extractLsb' 0 8).toNat, { s with draws := s.draws + 1 }) := by
  rw [Nat.add_assoc, hostRead_of_target s (by omega) (targetAt_obuf hi)]
  exact congrArg Except.ok (if_pos hb)

/-- Settles O14: `STATUS` and `IBUF` read as they stand (`hostRead_status`, `hostRead_ibuf`), and every other read is a
draw (`hostRead_reg_busy`, `hostRead_obuf_busy`). -/
theorem readsWhileBusy : Obligations.ReadsWhileBusy := by
  intro s hs hb
  refine ⟨⟨hostRead_status s, ?_, ?_⟩, fun i hi => hostRead_ibuf s hi, fun r hr => hostRead_reg_busy hb hr,
    fun i hi => hostRead_obuf_busy hb hi⟩
  · rw [State.readReg, statusWord_getLsbD_busy, hb]
  · rw [State.readReg, statusWord_getLsbD_done, hs.started hb]
    rfl

/-- Settles O12: a read draws or does nothing (`hostRead_frame`), and a write takes part in a command only at the
address of `CMD` (`hostWrite_cases`). -/
theorem onlyACmdWriteHasASideEffect : Obligations.OnlyACmdWriteHasASideEffect := by
  refine ⟨fun s s' w a v h => ?_, fun s s' w a v h ha => ?_, fun s v hb hv => hostWrite_reg_fits hb .cmd hv⟩
  · obtain rfl | ⟨rfl, hb⟩ := hostRead_frame h
    · exact ⟨rfl, fun _ => ⟨rfl, h⟩⟩
    · exact ⟨rfl, fun hidle => absurd (hb.symm.trans hidle) (by decide)⟩
  · obtain ⟨-, x, d, -, ⟨r, -, haddr, rfl⟩ | ⟨j, -, -, -, rfl⟩⟩ := hostWrite_cases h
    · cases r
      case cmd => exact absurd haddr ha
      all_goals exact ⟨rfl, rfl⟩
    · exact ⟨rfl, rfl⟩

/-! ### Writes (R54, log 14) -/

theorem not_fits {w : Width} {v : Int} (h : v < 0 ∨ 2 ^ widthBits w ≤ v) : fits w v = false := by
  rw [← Bool.not_eq_true, fits_iff]
  omega

/-- A write to a register of a value that does not fit writes a free word. -/
theorem hostWrite_reg_misfit {s : State} (hb : s.status.busy = false) (r : Reg) {v : Int}
    (h : v < 0 ∨ 2 ^ 32 ≤ v) : hostWrite s .w32 (s.params.base + regOffset r) v =
      .ok { s.writeReg r (Config.freeWord s.draws (regOffset r)) with draws := s.draws + 1 } := by
  rw [hostWrite_reg hb, State.wordToWrite_misfit s (not_fits h)]

/-- A write to `IBUF` of a value that does not fit writes a free byte. -/
theorem hostWrite_ibuf_misfit {s : State} (hb : s.status.busy = false) {i : Nat} (hi : i < 65543) {v : Int}
    (h : v < 0 ∨ 2 ^ 8 ≤ v) : hostWrite s .w8 (s.params.base + 0x20000 + i) v =
      .ok { s with
        mem := memWrite s.mem (0x20000 + i) [(Config.freeWord s.draws (0x20000 + i)).extractLsb' 0 8]
        draws := s.draws + 1 } := by
  rw [hostWrite_ibuf hb hi, State.wordToWrite_misfit s (not_fits h)]

/-- A write to `OBUF` is refused, whatever its index and value. -/
theorem hostWrite_obuf (s : State) (i : Nat) (v : Int) :
    ∃ e, hostWrite s .w8 (s.params.base + 0x40000 + i) v = .error e := by
  cases h : hostWrite s .w8 (s.params.base + 0x40000 + i) v with
  | error e => exact ⟨e, rfl⟩
  | ok t =>
    obtain ⟨-, x, d, -, ⟨r, hw, -⟩ | ⟨j, hj, -, haddr, -⟩⟩ := hostWrite_cases h
    · exact nomatch hw
    · omega

/-- The byte that an 8-bit write of a value that fits stores. -/
theorem extractLsb'_ofInt {v : Int} (h : fits .w8 v = true) :
    (BitVec.ofInt 32 v).extractLsb' 0 8 = BitVec.ofInt 8 v := by
  obtain ⟨hlo, hhi⟩ := (fits_iff _ _).1 h
  obtain ⟨n, rfl⟩ := Int.eq_ofNat_of_zero_le hlo
  rw [BitVec.ofInt_natCast, BitVec.ofInt_natCast]
  apply BitVec.eq_of_toNat_eq
  simp [BitVec.extractLsb']

theorem State.writeReg_readByte (s : State) (r : Reg) (x : Word) (a : Nat) :
    (s.writeReg r x).readByte a = s.readByte a := by
  cases r <;> rfl

/-- What a host write makes of a byte of `IBUF`: nothing, or it is a write to that byte. -/
theorem hostWrite_ibufByte {s t : State} {w : Width} {addr : Nat} {v : Int} (h : hostWrite s w addr v = .ok t)
    (i : Nat) : t.ibufByte i = s.ibufByte i ∨ (w = .w8 ∧ addr = s.params.base + 0x20000 + i ∧
      (fits .w8 v = true → t.ibufByte i = BitVec.ofInt 8 v)) := by
  obtain ⟨-, x, d, hx, ⟨r, -, -, rfl⟩ | ⟨j, -, rfl, haddr, rfl⟩⟩ := hostWrite_cases h
  · exact .inl (s.writeReg_readByte r x _)
  · obtain ⟨hsame, hother⟩ := s.readByte_write (0x20000 + j) (x.extractLsb' 0 8)
    by_cases hij : i = j
    · subst hij
      refine .inr ⟨rfl, haddr, fun hf => hsame.trans ?_⟩
      obtain ⟨rfl, -⟩ := hx hf
      exact extractLsb'_ofInt hf
    · exact .inl (hother _ (by show 0x20000 + i ≠ _; omega))

end Sys2Proof.Machine

/-! PROOFS. The lines of a host program (30_encoding.md section 4, rules R87 and R88): the access lines, the lines that
touch no register, and the pseudo-instructions `POLL` and `LOADIN`; and who can change a byte of `IBUF`. -/

namespace Sys2Proof.Machine
section
open Sys2Proof.Claims

/-! ### The agent of a step -/

/-- One agent is replaced: all that a line which touches no register does to the machine. -/
def State.setAgent (s : State) (k : Nat) (b : HostAgent) : State := { s with hosts := s.hosts.set k b }

@[simp] theorem State.setAgent_setAgent (s : State) (k : Nat) (a b : HostAgent) :
    (s.setAgent k a).setAgent k b = s.setAgent k b := by
  simp only [State.setAgent, List.set_set]

theorem State.setAgent_get {s : State} {k : Nat} {a : HostAgent} (ha : s.hosts[k]? = some a) (b : HostAgent) :
    (s.setAgent k b).hosts[k]? = some b :=
  List.getElem?_set_self (List.getElem?_eq_some_iff.1 ha).1

/-- Agent `k` is `a`, and it stands at a line of its program. -/
def StandsAt (s : State) (k : Nat) (a : HostAgent) (x : HostAction) : Prop :=
  s.hosts[k]? = some a ∧ a.prog[a.pc]? = some x

/-- The line after a prefix of a program. -/
theorem StandsAt.of_append {s : State} {k : Nat} {a : HostAgent} {x : HostAction} {pre post : List HostAction}
    (ha : s.hosts[k]? = some a) (hprog : a.prog = pre ++ x :: post) (hpc : a.pc = pre.length) : StandsAt s k a x :=
  ⟨ha, by rw [hprog, hpc, List.getElem?_append_right (le_refl _), Nat.sub_self]; rfl⟩

theorem hostStep_of_act {s t : State} {k : Nat} {a b : HostAgent} {x : HostAction} (hx : StandsAt s k a x)
    (h : hostAct k s a x = .ok (b, t)) : hostStep k s = .next (t.setAgent k b) := by
  obtain ⟨ha, hline⟩ := hx
  rw [hostStep_of ha hline, h]
  rfl

/-! ### The access lines (R87, R210) -/

/-- A line that reads: the access with its width, address and variable. -/
def ReadLine (s : State) (x : HostAction) (w : Width) (addr v : Nat) : Prop :=
  x = .load w addr v ∨ (∃ r, x = .rd r v ∧ w = .w32 ∧ addr = s.params.base + regOffset r) ∨
    ∃ i, x = .rb i v ∧ w = .w8 ∧ addr = s.params.base + 0x40000 + i

/-- A line that writes: the access with its width, address and source. -/
def WriteLine (s : State) (x : HostAction) (w : Width) (addr : Nat) (v : HostSrc) : Prop :=
  x = .store w addr v ∨ (∃ r, x = .wr r v ∧ w = .w32 ∧ addr = s.params.base + regOffset r) ∨
    ∃ i, x = .wb i v ∧ w = .w8 ∧ addr = s.params.base + 0x20000 + i

theorem ReadLine.hostAct {s : State} {x : HostAction} {w : Width} {addr v : Nat} (h : ReadLine s x w addr v) (k : Nat)
    (a : HostAgent) : hostAct k s a x = readAction s a w addr v := by
  obtain rfl | ⟨r, rfl, rfl, rfl⟩ | ⟨i, rfl, rfl, rfl⟩ := h <;> rfl

theorem WriteLine.hostAct {s : State} {x : HostAction} {w : Width} {addr : Nat} {v : HostSrc}
    (h : WriteLine s x w addr v) (k : Nat) (a : HostAgent) :
    hostAct k s a x = writeAction s a w addr (srcValue k a v) := by
  obtain rfl | ⟨r, rfl, rfl, rfl⟩ | ⟨i, rfl, rfl, rfl⟩ := h <;> rfl

theorem hostStep_read {s t : State} {k : Nat} {a : HostAgent} {x : HostAction} {w : Width} {addr v n : Nat}
    (hx : StandsAt s k a x) (hline : ReadLine s x w addr v) (h : hostRead s w addr = .ok (n, t)) :
    hostStep k s = .next (t.setAgent k (a.setVar v n)) :=
  hostStep_of_act hx (by rw [hline.hostAct, readAction, h])

theorem hostStep_write {s t : State} {k : Nat} {a : HostAgent} {x : HostAction} {w : Width} {addr : Nat}
    {v : HostSrc} (hx : StandsAt s k a x) (hline : WriteLine s x w addr v)
    (h : hostWrite s w addr (srcValue k a v) = .ok t) : hostStep k s = .next (t.setAgent k a.advance) :=
  hostStep_of_act hx (by rw [hline.hostAct, writeAction, h])

/-- A read leaves the host agents. -/
theorem hostRead_hosts {s t : State} {w : Width} {addr n : Nat} (h : hostRead s w addr = .ok (n, t)) :
    t.hosts = s.hosts := by
  obtain rfl | ⟨rfl, -⟩ := hostRead_frame h <;> rfl

/-- So does a write. -/
theorem hostWrite_hosts {s t : State} {w : Width} {addr : Nat} {v : Int} (h : hostWrite s w addr v = .ok t) :
    t.hosts = s.hosts := by
  obtain ⟨-, x, d, -, ⟨r, -, -, rfl⟩ | ⟨j, -, -, -, rfl⟩⟩ := hostWrite_cases h
  · cases r <;> rfl
  · rfl

/-- Settles O16: the step is the line's access (`hostStep_read`, `hostStep_write`), or it is refused with it. -/
theorem hostLinesPerformTheirAccess : Obligations.HostLinesPerformTheirAccess := by
  intro s k a x ha hx
  refine ⟨fun w addr v hline => ⟨fun n t h => ?_, fun e h => ?_⟩, fun w addr v n hline hn => ?_⟩
  · refine ⟨a.setVar v n, varGet_varSet_self _ _ _, fun u hu => varGet_varSet_other _ _ hu, rfl, rfl, ?_⟩
    rw [← hostRead_hosts h]
    exact hostStep_read ⟨ha, hx⟩ hline h
  · exact hostStep_refused ha hx (by rw [ReadLine.hostAct hline, readAction, h])
  · have hsrc : srcValue k a v = n := by
      obtain ⟨m, rfl, rfl⟩ | ⟨y, rfl, hy | ⟨hy, rfl⟩⟩ := hn
      · rfl
      · exact HostAgent.value_set hy
      · exact HostAgent.value_unset hy
    subst hsrc
    constructor
    · intro t h
      rw [← hostWrite_hosts h]
      exact hostStep_write ⟨ha, hx⟩ hline h
    · intro e h
      exact hostStep_refused ha hx (by rw [WriteLine.hostAct hline, writeAction, h])

/-! ### The lines that touch no register (R87) -/

theorem hostStep_label {s : State} {k l : Nat} {a : HostAgent} (hx : StandsAt s k a (.label l)) :
    hostStep k s = .next (s.setAgent k a.advance) := hostStep_of_act hx rfl

theorem hostStep_halt {s : State} {k : Nat} {a : HostAgent} (hx : StandsAt s k a .halt) :
    hostStep k s = .next (s.setAgent k { a with pc := a.prog.length }) := hostStep_of_act hx rfl

theorem hostStep_mov {s : State} {k v : Nat} {e : HostExpr} {a : HostAgent} (hx : StandsAt s k a (.mov v e)) :
    hostStep k s = .next (s.setAgent k (a.setVar v (exprValue k a e))) := hostStep_of_act hx rfl

theorem branchAction_of {s : State} {a b : HostAgent} {l : Nat} (h : a.branch l = .ok b) :
    branchAction s a l = .ok (b, s) := by rw [branchAction, h, Except.map]

theorem hostStep_jmp {s : State} {k l : Nat} {a b : HostAgent} (hx : StandsAt s k a (.jmp l))
    (h : a.branch l = .ok b) : hostStep k s = .next (s.setAgent k b) :=
  hostStep_of_act hx (branchAction_of h)

theorem State.masked_natural (s : State) (n mask : Nat) : s.masked (Int.ofNat n) mask = (n &&& mask, s) :=
  if_neg (Int.not_lt.2 (Int.natCast_nonneg n))

theorem State.masked_negative (s : State) {z : Int} (h : z < 0) (mask : Nat) :
    s.masked z mask = (Config.freeMasked s.draws, { s with draws := s.draws + 1 }) := if_pos h

/-- A `bnz` whose test gives 0 goes on. -/
theorem hostStep_bnz_untaken {s u : State} {k v mask l : Nat} {a : HostAgent} (hx : StandsAt s k a (.bnz v mask l))
    (h : s.masked (a.value k v) mask = (0, u)) : hostStep k s = .next (u.setAgent k a.advance) := by
  refine hostStep_of_act hx ?_
  rw [hostAct, bnzAction, h]
  rfl

/-- A `bnz` whose test gives another value branches. -/
theorem hostStep_bnz_taken {s u : State} {k v mask l n : Nat} {a b : HostAgent} (hx : StandsAt s k a (.bnz v mask l))
    (h : s.masked (a.value k v) mask = (n, u)) (hn : n ≠ 0) (hb : a.branch l = .ok b) :
    hostStep k s = .next (u.setAgent k b) := by
  refine hostStep_of_act hx ?_
  rw [hostAct, bnzAction, h]
  exact (if_pos hn).trans (branchAction_of hb)

/-- Settles O19: line by line `hostStep_label`, `hostStep_halt`, `hostStep_jmp`, `hostStep_bnz_untaken`,
`hostStep_bnz_taken` and `hostStep_mov`; a branch goes to a line with its label (`HostAgent.branch_ok`). -/
theorem hostControlLines : Obligations.HostControlLines := by
  intro s k a x ha hx
  have hx : StandsAt s k a x := ⟨ha, hx⟩
  refine ⟨?_, ?_, ?_, ?_, ?_, ?_, ?_, fun n => rfl, fun y z => HostAgent.value_set, fun y => HostAgent.value_unset,
    fun e f => ⟨rfl, rfl, rfl⟩⟩
  · rintro l rfl
    exact hostStep_label hx
  · rintro rfl
    exact ⟨_, decide_eq_true (le_refl _), hostStep_halt hx⟩
  · rintro l rfl hl
    obtain ⟨i, hb, hi⟩ := HostAgent.branch_ok hl
    exact ⟨{ a with pc := i }, hi, rfl, rfl, hostStep_jmp hx hb⟩
  · rintro v mask l n rfl hv h0
    refine hostStep_bnz_untaken hx ?_
    rw [HostAgent.value_set hv, State.masked_natural, h0]
  · rintro v mask l n rfl hv hne hl
    obtain ⟨i, hb, hi⟩ := HostAgent.branch_ok hl
    refine ⟨{ a with pc := i }, hi, rfl, rfl, hostStep_bnz_taken hx ?_ hne hb⟩
    rw [HostAgent.value_set hv, State.masked_natural]
  · rintro v mask l z rfl hv hz hl
    obtain ⟨i, hb, hi⟩ := HostAgent.branch_ok hl
    have hmask : s.masked (a.value k v) mask = (Config.freeMasked s.draws, { s with draws := s.draws + 1 }) := by
      rw [HostAgent.value_set hv, State.masked_negative s hz]
    by_cases h0 : Config.freeMasked s.draws = 0
    · rw [h0] at hmask
      exact ⟨a.advance, rfl, rfl, by rw [if_pos h0]; rfl, hostStep_bnz_untaken hx hmask⟩
    · exact ⟨{ a with pc := i }, rfl, rfl, by rw [if_neg h0]; exact hi, hostStep_bnz_taken hx hmask h0 hb⟩
  · rintro v e rfl
    exact ⟨a.setVar v (exprValue k a e), varGet_varSet_self _ _ _, fun u hu => varGet_varSet_other _ _ hu, rfl, rfl,
      hostStep_mov hx⟩

/-! ### Runs of lines -/

theorem afterHost_succ {s u : State} {k n : Nat} (h : hostStep k s = .next u) :
    afterHost k (n + 1) s = afterHost k n u := by rw [afterHost, h]

/-- The first line that bears a label is the one a branch goes to. -/
theorem HostAgent.branch_first {a : HostAgent} {l : Nat} {pre post : List HostAction}
    (hprog : a.prog = pre ++ .label l :: post) (hpre : .label l ∉ pre) :
    a.branch l = .ok { a with pc := pre.length } := by
  have hnone : pre.findIdx? (fun x => decide (x = .label l)) = none :=
    List.findIdx?_eq_none_iff.2 fun x hx => decide_eq_false fun h => hpre (h ▸ hx)
  rw [HostAgent.branch, hprog, List.findIdx?_append, hnone, List.findIdx?_cons]
  simp

/-! ### `POLL` (R88) -/

/-- `BUSY` is bit 0 of `STATUS`, as the mask of `POLL` tests it. -/
theorem readReg_status_and_one (s : State) : (s.readReg .status).toNat &&& 1 = s.status.busy.toNat := by
  have hle := s.status.busy.toNat_le
  rw [Nat.and_one_is_mod, State.readReg, statusWord_toNat]
  omega

/-- The last line of `POLL`, which tests the `STATUS` that the line before has read. -/
theorem hostStep_poll_test {s : State} {k p v : Nat} {a : HostAgent} {pre post : List HostAction}
    (hx : StandsAt s k a (.bnz v 1 p)) (hprog : a.prog = pre ++ .label p :: post) (hpre : .label p ∉ pre)
    (hv : varGet a.vars v = some (Int.ofNat (s.readReg .status).toNat)) : hostStep k s =
      .next (s.setAgent k { a with pc := if s.status.busy then pre.length else a.pc + 1 }) := by
  have hmask : s.masked (a.value k v) 1 = (s.status.busy.toNat, s) := by
    rw [HostAgent.value_set hv, State.masked_natural, readReg_status_and_one]
  cases hb : s.status.busy with
  | false =>
    rw [hb] at hmask
    exact hostStep_bnz_untaken hx hmask
  | true =>
    rw [hb] at hmask
    exact hostStep_bnz_taken hx hmask Nat.one_ne_zero (HostAgent.branch_first hprog hpre)

/-- Settles O18: the label, the read of `STATUS` (`hostRead_status`) and the test of its bit 0
(`hostStep_poll_test`). -/
theorem pollWaitsForTheBlock : Obligations.PollWaitsForTheBlock := by
  intro s k p v a pre post ha hprog hpre hpc
  have hprog : a.prog = pre ++ .label p :: .rd .status v :: .bnz v 1 p :: post := by simpa [pollLines] using hprog
  obtain ⟨b, hb⟩ : ∃ b, b = a.advance.setVar v (s.readReg .status).toNat := ⟨_, rfl⟩
  have hbprog : b.prog = a.prog := by rw [hb]; rfl
  have hbpc : b.pc = pre.length + 2 := by rw [hb, ← hpc]; rfl
  have hbvar : varGet b.vars v = some (Int.ofNat (s.readReg .status).toNat) := by
    rw [hb]
    exact varGet_varSet_self _ _ _
  have hlabel := hostStep_label (.of_append ha hprog hpc)
  have hread : hostStep k (s.setAgent k a.advance) = .next (s.setAgent k b) := by
    have hx := StandsAt.of_append (State.setAgent_get ha a.advance) (hprog.trans (List.append_cons ..))
      (by rw [List.length_append, ← hpc]; rfl)
    rw [hostStep_read hx (.inr (.inl ⟨.status, rfl, rfl, rfl⟩)) (hostRead_status _), State.setAgent_setAgent, hb]
    rfl
  have htest : hostStep k (s.setAgent k b) =
      .next (s.setAgent k { b with pc := if s.status.busy then pre.length else b.pc + 1 }) := by
    have hx : StandsAt (s.setAgent k b) k b (.bnz v 1 p) := .of_append (pre := pre ++ [.label p, .rd .status v])
      (State.setAgent_get ha b) (by rw [hbprog, hprog, List.append_assoc]; rfl) (by rw [hbpc, List.length_append]; rfl)
    rw [hostStep_poll_test hx (hbprog.trans hprog) hpre hbvar, State.setAgent_setAgent]
    rfl
  refine ⟨_, { b with pc := if s.status.busy then pre.length else b.pc + 1 }, ?_, rfl, hbprog, hbvar, by rw [hbpc]⟩
  rw [afterHost_succ hlabel, afterHost_succ hread, afterHost_succ htest]
  rfl

/-! ### `LOADIN` (R88) -/

theorem loadBytes_length (i : Nat) (bs : List Byte) : (loadBytes i bs).length = bs.length := by
  induction bs generalizing i with
  | nil => rfl
  | cons b bs ih => exact congrArg (· + 1) (ih (i + 1))

/-- The lines of `LOADIN` from an index on, run while no command runs: the byte writes, then the write of `ILEN`. -/
theorem afterHost_loadin {k n : Nat} (hn : n ≤ 65543) (bs : List Byte) {s : State} {a : HostAgent} {i : Nat}
    {pre post : List HostAction} (hb : s.status.busy = false) (ha : s.hosts[k]? = some a)
    (hprog : a.prog = pre ++ (loadBytes i bs ++ .wr .ilen (.imm n) :: post)) (hpc : a.pc = pre.length)
    (hi : i + bs.length ≤ 65543) : ∃ t, afterHost k (bs.length + 1) s = some t ∧ t.ilen.toNat = n ∧
      (∀ j, j < bs.length → t.ibufByte (i + j) = bs.getD j 0) ∧
      (∀ x, x < 0x20000 + i ∨ 0x20000 + i + bs.length ≤ x → t.readByte x = s.readByte x) ∧
      t = { s with mem := t.mem, ilen := t.ilen,
                   hosts := s.hosts.set k { a with pc := pre.length + (bs.length + 1) } } := by
  induction bs generalizing s a i pre with
  | nil =>
    have hstep := hostStep_write (.of_append ha hprog hpc) (.inr (.inl ⟨.ilen, rfl, rfl, rfl⟩))
      (hostWrite_reg_fits hb .ilen (n := n) (by omega))
    refine ⟨_, afterHost_succ hstep, ?_, nofun, fun _ _ => rfl, ?_⟩
    · show ((BitVec.ofNat 32 n).extractLsb' 0 17).toNat = n
      simp only [BitVec.extractLsb'_toNat, BitVec.toNat_ofNat, Nat.shiftRight_zero]
      omega
    · rw [← hpc]
      rfl
  | cons b bs ih =>
    rw [List.length_cons] at hi
    have hstep := hostStep_write (.of_append ha hprog hpc) (.inr (.inr ⟨i, rfl, rfl, rfl⟩))
      (hostWrite_ibuf_fits hb (i := i) (n := b.toNat) (by omega) b.isLt)
    obtain ⟨hsame, hother⟩ := s.readByte_write (0x20000 + i) (BitVec.ofNat 8 b.toNat)
    obtain ⟨t, hrun, hilen, hbytes, hrest, ht⟩ := ih
      (s := State.setAgent { s with mem := memWrite s.mem (0x20000 + i) [BitVec.ofNat 8 b.toNat] } k a.advance)
      hb (State.setAgent_get ha a.advance) (hprog.trans (List.append_cons ..))
      (by rw [List.length_append, ← hpc]; rfl) (i := i + 1) (by omega)
    refine ⟨t, (afterHost_succ hstep).trans hrun, hilen, fun j hj => ?_, fun x hx => ?_, ?_⟩
    · cases j with
      | zero =>
        rw [Nat.add_zero, State.ibufByte]
        refine (hrest _ (.inl (by show 0x20000 + i < _; omega))).trans (hsame.trans ?_)
        rw [BitVec.ofNat_toNat, BitVec.setWidth_eq]
        rfl
      | succ j =>
        rw [Nat.add_comm j 1, ← Nat.add_assoc, hbytes j (by simpa using hj), Nat.add_comm 1 j]
        rfl
    · rw [List.length_cons] at hx
      exact (hrest x (by omega)).trans (hother x (by omega))
    · refine ht.trans ?_
      simp only [State.setAgent, HostAgent.advance, List.set_set, List.length_append, List.length_cons, List.length_nil,
        Nat.zero_add, Nat.add_assoc, Nat.add_comm 1]

/-- Settles O17: `afterHost_loadin` from index 0. -/
theorem loadinFillsTheInput : Obligations.LoadinFillsTheInput := by
  intro s k a bs pre post hb ha hprog hpc hlen
  have hprog : a.prog = pre ++ (loadBytes 0 bs ++ .wr .ilen (.imm bs.length) :: post) := by
    simpa [loadinLines] using hprog
  obtain ⟨t, hrun, hilen, hbytes, hrest, ht⟩ := afterHost_loadin hlen bs hb ha hprog hpc (by omega)
  refine ⟨t, hrun, hilen, fun i hi => ?_, fun x hx => hrest x (by omega), ?_⟩
  · rw [← hbytes i hi, Nat.zero_add]
  · rw [loadinLines, List.length_append, loadBytes_length]
    exact ht

/-! ### Who can change a byte of `IBUF` (R33, R54) -/

/-- What a line of a host program does to the block: it draws at most, or it performs a write. -/
theorem hostAct_cases {k : Nat} {s t : State} {a b : HostAgent} {x : HostAction} (h : hostAct k s a x = .ok (b, t)) :
    t = { s with draws := t.draws } ∨
      ∃ w addr v, WriteLine s x w addr v ∧ hostWrite s w addr (srcValue k a v) = .ok t := by
  have hread {w : Width} {addr v : Nat} (hline : ReadLine s x w addr v) : t = { s with draws := t.draws } := by
    rw [hline.hostAct, readAction] at h
    split at h
    · cases h
    · rename_i hr
      cases h
      obtain rfl | ⟨rfl, -⟩ := hostRead_frame hr <;> rfl
  have hwrite {w : Width} {addr : Nat} {v : HostSrc} (hline : WriteLine s x w addr v) :
      hostWrite s w addr (srcValue k a v) = .ok t := by
    rw [hline.hostAct, writeAction] at h
    split at h
    · cases h
    · rename_i hw
      cases h
      exact hw
  cases x with
  | wr r v => exact .inr ⟨_, _, v, .inr (.inl ⟨r, rfl, rfl, rfl⟩), hwrite (.inr (.inl ⟨r, rfl, rfl, rfl⟩))⟩
  | wb i v => exact .inr ⟨_, _, v, .inr (.inr ⟨i, rfl, rfl, rfl⟩), hwrite (.inr (.inr ⟨i, rfl, rfl, rfl⟩))⟩
  | store w addr v => exact .inr ⟨w, addr, v, .inl rfl, hwrite (.inl rfl)⟩
  | rd r v => exact .inl (hread (.inr (.inl ⟨r, rfl, rfl, rfl⟩)))
  | rb i v => exact .inl (hread (.inr (.inr ⟨i, rfl, rfl, rfl⟩)))
  | load w addr v => exact .inl (hread (.inl rfl))
  | bnz v mask l =>
    rw [hostAct, bnzAction, State.masked_state] at h
    split at h
    · rw [branchAction_state h]
      exact .inl rfl
    · cases h
      exact .inl rfl
  | jmp l =>
    rw [branchAction_state h]
    exact .inl rfl
  | label l | halt | mov v e =>
    cases h
    exact .inl rfl

/-- A step of an agent that changes a byte of `IBUF` is a write to that byte. -/
theorem hostStep_ibufByte {k i : Nat} {s t : State} (h : hostStep k s = .next t)
    (hne : t.ibufByte i ≠ s.ibufByte i) : ∃ a x addr v, s.hosts[k]? = some a ∧ a.prog[a.pc]? = some x ∧
      (x = .store .w8 addr v ∨ ∃ j, x = .wb j v ∧ addr = s.params.base + 0x20000 + j) ∧
      addr = s.params.base + 0x20000 + i ∧
      (fits .w8 (srcValue k a v) = true → t.ibufByte i = BitVec.ofInt 8 (srcValue k a v)) := by
  unfold hostStep at h
  split at h
  · cases h
    exact absurd rfl hne
  rename_i a ha
  split at h
  · cases h
    exact absurd rfl hne
  rename_i x hx
  split at h
  · cases h
  rename_i a' s' hact
  cases h
  have hne : s'.ibufByte i ≠ s.ibufByte i := hne
  obtain hdraw | ⟨w, addr, v, hline, hwrite⟩ := hostAct_cases hact
  · rw [hdraw] at hne
    exact absurd rfl hne
  obtain hsame | ⟨rfl, haddr, hval⟩ := hostWrite_ibufByte hwrite i
  · exact absurd hsame hne
  refine ⟨a, x, addr, v, ha, hx, ?_, haddr, hval⟩
  obtain hstore | ⟨r, -, hw, -⟩ | ⟨j, hwb, -, hj⟩ := hline
  · exact .inl hstore
  · exact nomatch hw
  · exact .inr ⟨j, hwb, hj⟩

/-- A command leaves `IBUF`. -/
theorem Ends.sameIbuf {i : Instr} {s t : State} (h : Ends i s t) : sameIbuf s t := by
  intro a ha
  have hlook : memLookup t.mem a = memLookup s.mem a := by
    obtain hmem | hmem | ⟨bs, -, hmem⟩ := h.mem <;> rw [hmem]
    · rw [memLookup_below, if_pos ha]
    · rw [memLookup_write, if_neg (by omega)]
  have hseed : t.ibufSeed = s.ibufSeed := by rw [h.frame]
  simp only [State.readByte, State.freeByteAt, hlook, hseed, if_pos ha]

theorem blockStep_sameIbuf {s t : State} (h : blockStep s = .next t) : sameIbuf s t := by
  obtain rfl | ⟨w, -, rfl | ⟨i, -, -, hends⟩⟩ := blockStep_cases h
  · exact fun _ _ => rfl
  · exact fun _ _ => rfl
  · exact hends.sameIbuf

/-- An unwritten byte of `IBUF` reads as a draw (log 3). -/
theorem State.ibufByte_unwritten {s : State} {i : Nat} (hi : i < 65543) (h : memLookup s.mem (0x20000 + i) = none) :
    s.ibufByte i = Config.freeByte s.ibufSeed (0x20000 + i) := by
  have hlt : 0x20000 + i < obufBase := by show _ < 0x40000; omega
  show (memLookup s.mem (0x20000 + i)).getD (s.freeByteAt (0x20000 + i)) = _
  rw [h, Option.getD_none, State.freeByteAt, if_pos hlt]

/-- Settles O11: `hostRead_reg` and `hostRead_obuf` for reads; `hostWrite_reg_fits`, and the two `_misfit` lemmas, for
writes; `hostWrite_obuf`; `hostRead_ibuf` and `State.ibufByte_unwritten`; `hostWrite_ibufByte`; and a step changes
`IBUF` only by `hostStep_ibufByte` or by reset. -/
theorem hostAccessRights : Obligations.HostAccessRights := by
  refine ⟨fun s hb => ?_, fun s v hb hv => ?_, fun s v hb => ⟨fun hv r => ?_, fun hv i hi => ?_⟩,
    fun s i => noWrite_of_refused (hostWrite_obuf s i),
    fun s i hi => ⟨hostRead_ibuf s hi, State.ibufByte_unwritten hi⟩, fun s t i v hv h => ?_,
    fun s t i _ h hne => ?_⟩
  · have hread {r : Reg} {n : Nat} (h : (s.readReg r).toNat = n) := hostRead_reg_toNat hb r h
    refine ⟨hread (r := .cmd) rfl, hread (r := .status) ?_, hread (r := .ilen) (toNat_zero_append 15 _),
      hread (r := .olen) (toNat_zero_append 15 _), hread (r := .htid) (toNat_zero_append 16 _),
      hread (r := .hpid) (toNat_zero_append 16 _), hread (r := .hlen) (toNat_zero_append 16 _),
      hread (readReg_hufc_toNat s), hread (readReg_result_toNat s), hread (readReg_config_toNat s),
      fun i hi => hostRead_obuf hb hi⟩
    rw [State.readReg, statusWord_toNat, hb, Bool.toNat_false, Nat.zero_add]
  · have hwrite (r : Reg) := hostWrite_reg_fits hb r hv
    refine ⟨?_, hwrite .ilen, hwrite .htid, hwrite .hpid, hwrite .hlen, hwrite .hufc⟩
    simp only [List.forall_mem_cons]
    exact ⟨hwrite .status, hwrite .olen, hwrite .result, hwrite .config, List.forall_mem_nil _⟩
  · refine ⟨_, hostWrite_reg_fits hb r (BitVec.isLt _), ?_⟩
    rw [hostWrite_reg_misfit hb r hv, BitVec.ofNat_toNat, BitVec.setWidth_eq]
  · refine ⟨_, hostWrite_ibuf_fits hb hi (BitVec.isLt _), ?_⟩
    rw [hostWrite_ibuf_misfit hb hi hv, BitVec.ofNat_toNat, BitVec.setWidth_eq]
  · obtain ⟨hb, x, d, -, ⟨r, hw, -⟩ | ⟨j, hj, -, haddr, -⟩⟩ := hostWrite_cases h
    · exact nomatch hw
    · obtain rfl : i = j := by omega
      rw [hostWrite_ibuf_fits hb hj hv] at h
      cases h
      exact (s.readByte_write _ _).1
  · obtain ⟨u, -, hu, hmove⟩ := step_cases h
    have hubyte : u.ibufByte i = s.ibufByte i := by rw [hu]; rfl
    have hhosts : u.hosts = s.hosts := by rw [hu]
    have hbase : u.params.base = s.params.base := by rw [hu]
    rw [← hubyte] at hne
    obtain ⟨-, hblock⟩ | ⟨k, hk, hhost⟩ | ⟨strap, hreset, -⟩ | rfl := hmove
    · exact absurd (blockStep_sameIbuf hblock _ (by show 0x20000 + i < 0x40000; omega)) hne
    · obtain ⟨a, x, addr, v, ha, hx, hline, haddr, hval⟩ := hostStep_ibufByte hhost hne
      rw [hhosts] at ha
      rw [hbase] at hline haddr
      exact .inl ⟨k, a, x, addr, v, hk, ha, hx, hline, haddr, fun hlo hhi => hval ((fits_iff _ _).2 ⟨hlo, hhi⟩)⟩
    · exact .inr ⟨strap, hreset⟩
    · exact absurd rfl hne

end
end Sys2Proof.Machine

/-! PROOFS. What instructions write and leave alone: the function-code rows (43_frame.md section 1, log 10), the frames
of the commands that store to `OBUF` and of those that do not, and the outputs of a failing body (60_exceptions.md rule
R203). -/

namespace Sys2Proof.Machine
section
open Sys2Proof.Claims

/-! ### The function-code rows (log 10) -/

/-- Settles O49: each row's kind is what the table of its role gives its byte (`dispatchRow_eq`). -/
theorem functionCodeRowRunsAsDisp : Obligations.FunctionCodeRowRunsAsDisp := by
  intro i r b h s
  cases i <;> cases h <;> exact dispatchRow_eq rfl s

/-- Settles O48: a row runs as `DISP` of its byte (`functionCodeRowRunsAsDisp`), whose outcomes are the rows of the two
tables (`exec_disp_row`, `exec_disp_noRow`). -/
theorem functionCodeRowsComplete : Obligations.FunctionCodeRowsComplete := by
  have hrow {s : State} {i : Instr} (fc : Fc) (k : Kind) (r : Role) (hr : s.role = r)
      (hi : encodeFrameByte i = some (r, fcByte fc)) (hk : tableKind r fc = some k) :
      ∃ t k', exec i s = .next t ∧ kindCode k' = kindCode k ∧ EndsWithKind s t k' ∧
        t = { s with status := t.status, inflight := t.inflight } := by
    rw [functionCodeRowRunsAsDisp i r _ hi]
    exact exec_disp_row fc k (hr ▸ hk)
  have hnone {s : State} {i : Instr} (fc : Fc) (r : Role) (hr : s.role = r)
      (hi : encodeFrameByte i = some (r, fcByte fc)) (hk : tableKind r fc = none) :
      ∃ t, exec i s = .next t ∧ EndsInError t .noDecoder ∧
        t = { s with status := t.status, inflight := t.inflight } := by
    rw [functionCodeRowRunsAsDisp i r _ hi]
    exact exec_disp_noRow fc (hr ▸ hk)
  refine ⟨fun s hr => ?_, fun s hr => ?_, fun s hr => ?_⟩ <;> simp only [List.forall_mem_cons]
  · exact ⟨hrow .announce .announce _ hr rfl rfl, hrow .data .data _ hr rfl rfl,
      hrow .bufferedData .bufferedData _ hr rfl rfl, hrow .ping .ping _ hr rfl rfl,
      hrow .getConfig .getConfigResponse _ hr rfl rfl, hrow .setConfig .setConfigResponse _ hr rfl rfl,
      hrow .readRegisters .readRegistersResponse _ hr rfl rfl,
      hrow .writeSingle .writeSingleRegisterResponse _ hr rfl rfl,
      hrow .writeMultiple .writeMultipleRegistersResponse _ hr rfl rfl, List.forall_mem_nil _⟩
  · exact ⟨hrow .announce .ack _ hr rfl rfl, hrow .data .ack _ hr rfl rfl, hrow .bufferedData .ack _ hr rfl rfl,
      hrow .ping .ping _ hr rfl rfl, hrow .getConfig .getConfigRequest _ hr rfl rfl,
      hrow .setConfig .setConfigRequest _ hr rfl rfl, List.forall_mem_nil _⟩
  · exact ⟨hnone .readRegisters _ hr rfl rfl, hnone .writeSingle _ hr rfl rfl, hnone .writeMultiple _ hr rfl rfl,
      List.forall_mem_nil _⟩

/-! ### The commands that store to `OBUF` -/

theorem ends_of_exec {i : Instr} {s t : State} (h : exec i s = .next t) : Ends i s t := by
  obtain ⟨u, hexec, hends⟩ := exec_ends i s
  rw [hexec] at h
  cases h
  exact hends

/-- Where `t` shows no error, every byte outside `OBUF[0..OLEN)` is as in `s`. -/
def OutputFrame (s t : State) : Prop :=
  t.status.err = false → ∀ a, a < obufBase ∨ obufBase + t.olen.toNat ≤ a → t.readByte a = s.readByte a

theorem OutputFrame.of_error {s t : State} {e : Err} (h : EndsInError t e) : OutputFrame s t := by
  intro herr
  obtain ⟨hstatus, -⟩ := h
  rw [hstatus] at herr
  exact nomatch herr

theorem OutputFrame.of_olen {s t : State} {n : Nat} (hlen : t.olen.toNat = n)
    (h : ∀ a, a < obufBase ∨ obufBase + n ≤ a → t.readByte a = s.readByte a) : OutputFrame s t :=
  fun _ a ha => h a (hlen ▸ ha)

/-- Each of the five commands has this frame, by what it writes where it completes. -/
theorem exec_outputFrame {i : Instr} (h : i ∈ [Instr.xor, .crc, .henc, .fenc, .fdec]) (s : State) :
    ∃ t, exec i s = .next t ∧ OutputFrame s t := by
  have hilen {i : Instr} (hi : i ∈ [.xor, .crc, .crcchk, .hdec, .plen, .fenc, .fdec])
      (hlong : ¬ s.ilen.toNat ≤ 65543) : ∃ t, exec i s = .next t ∧ OutputFrame s t :=
    ⟨_, exec_ilen hi (not_le.1 hlong), .of_error (endsInError_endError s .ilen)⟩
  simp only [List.mem_cons, List.not_mem_nil, or_false] at h
  obtain rfl | rfl | rfl | rfl | rfl := h
  · by_cases hfits : s.ilen.toNat ≤ 65543
    case neg => exact hilen (by decide) hfits
    obtain ⟨t, hexec, -, holen, -, hother, -⟩ := (xorCiphersTheInput.2 s).2 hfits
    exact ⟨t, hexec, .of_olen (by rw [holen]) hother⟩
  · by_cases hfits : s.ilen.toNat ≤ 65543
    case neg => exact hilen (by decide) hfits
    obtain ⟨t, hexec, -, -, holen, -, -, hother, -⟩ := (crcReportsValueAndTrailer.2 s).2 hfits
    exact ⟨t, hexec, .of_olen (by rw [holen]; rfl) hother⟩
  · by_cases hfc : s.hufc.fc ∈ fcset
    case neg => exact ⟨_, exec_henc_unknown hfc, .of_error (endsInError_raise _ _ _)⟩
    obtain ⟨t, hexec, -, holen, -, hother, -⟩ := (hencWritesTheHeaderBytes.2 s).2 hfc
    exact ⟨t, hexec, .of_olen (by rw [holen]; rfl) hother⟩
  · by_cases hfits : s.ilen.toNat ≤ 65543
    case neg => exact hilen (by decide) hfits
    by_cases hfc : s.hufc.fc ∈ fcset
    case neg => exact ⟨_, exec_fenc_unknown hfits hfc, .of_error (endsInError_raise _ _ _)⟩
    by_cases hn : s.ilen.toNat ≤ 65533
    case neg => exact ⟨_, exec_fenc_tooLong (not_le.1 hn) hfits hfc, .of_error (endsInError_raise _ _ _)⟩
    obtain ⟨-, -, -, hdone⟩ := fencWritesTheFrame.2 s
    obtain ⟨t, hexec, -, holen, -, -, -, -, hother, -⟩ := hdone hn hfc
    exact ⟨t, hexec, .of_olen holen hother⟩
  · by_cases hfits : s.ilen.toNat ≤ 65543
    case neg => exact hilen (by decide) hfits
    obtain ⟨-, -, hdone⟩ := fdecDecodesTheFrame.2 s
    obtain ⟨e, -, hdec⟩ | ⟨-, -, hnone, -⟩ := frameDecode_input_cases hfits
    · exact ⟨_, exec_fdec_error hfits hdec, .of_error (endsInError_raise _ _ _)⟩
    obtain ⟨t, -, -, hexec, -, -, -, holen, -, hother, -⟩ := hdone hnone
    exact ⟨t, hexec, .of_olen (by omega) hother⟩

/-- Settles O50: `exec_outputFrame`, `Ends.sameIbuf`, and the frame of every instruction (`Ends.frame`), whose tables
only other instructions write. -/
theorem outputCommandsFrame : Obligations.OutputCommandsFrame := by
  intro i s t hi h _
  obtain ⟨u, hexec, hframe⟩ := exec_outputFrame hi s
  obtain rfl : u = t := by simpa [hexec] using h
  have hends := ends_of_exec hexec
  have htx : u.txLast = s.txLast := by
    obtain htx | rfl | ⟨fc, v, rfl, -⟩ := hends.tx
    · exact htx
    · exact absurd hi (by decide)
    · simp at hi
  have hrx : u.rxLast = s.rxLast := by
    obtain hrx | rfl | ⟨fc, rfl, -⟩ := hends.rx
    · exact hrx
    · exact absurd hi (by decide)
    · simp at hi
  have hall := hends.frame
  rw [htx, hrx] at hall
  exact ⟨hframe, hends.sameIbuf, hall⟩

/-! ### The instructions that store no byte -/

/-- `t` has the memory and `OLEN` of `s`. -/
def KeepsBuffers (s t : State) : Prop := t.mem = s.mem ∧ t.obufSeed = s.obufSeed ∧ t.olen = s.olen

/-- Draws for registers other than `OLEN` keep them. -/
theorem clobberFold_keepsBuffers (d : Nat) {outs : List Out} (hbuf : Out.obuf ∉ outs) (hlen : Out.olen ∉ outs)
    (s : State) : KeepsBuffers s (outs.foldl (State.clobberOne d) s) := by
  induction outs generalizing s with
  | nil => exact ⟨rfl, rfl, rfl⟩
  | cons o os ih =>
    obtain ⟨hbuf, hbufs⟩ := not_or.1 (mt List.mem_cons.2 hbuf)
    obtain ⟨hlen, hlens⟩ := not_or.1 (mt List.mem_cons.2 hlen)
    obtain ⟨hm, hs, hl⟩ := ih hbufs hlens (s.clobberOne d o)
    cases o
    case obuf => exact absurd rfl hbuf
    case olen => exact absurd rfl hlen
    all_goals exact ⟨hm, hs, hl⟩

theorem keepsBuffers_raise {outs : List Out} (hbuf : Out.obuf ∉ outs) (hlen : Out.olen ∉ outs) (s : State) (e : Err) :
    KeepsBuffers s (s.raise outs e) :=
  clobberFold_keepsBuffers s.draws hbuf hlen s

/-- The instructions that do not store to `OBUF` list neither it nor `OLEN`. -/
theorem buffers_not_listed {i : Instr} (h : i ∉ [Instr.xor, .crc, .henc, .fenc, .fdec]) :
    Out.obuf ∉ listed i ∧ Out.olen ∉ listed i := by
  cases i
  case xor | crc | henc | fenc | fdec => exact absurd (by decide) h
  all_goals simp [listed]

/-- How an instruction ends: with `E_ILEN`, or any error where it lists no output; with an error in its body; or done,
and then with the buffers kept unless it is one that stores to `OBUF`. -/
inductive Outcome (i : Instr) (s : State) : State → Prop
  | error (e : Err) (h : e = .ilen ∨ listed i = []) : Outcome i s (s.endError e)
  | raise (e : Err) : Outcome i s (s.raise (listed i) e)
  | done {t : State} (hcode : t.status.errcode = s.status.errcode)
      (hkeep : i ∉ [Instr.xor, .crc, .henc, .fenc, .fdec] → KeepsBuffers s t) : Outcome i s t

theorem Outcome.of_withInput {i : Instr} {s : State} {body : State → State} (h : exec i s = withInput s body)
    (hb : Outcome i s (body s)) : ∃ t, exec i s = .next t ∧ Outcome i s t := by
  obtain ⟨-, hw⟩ | ⟨-, hw⟩ := withInput_cases s body
  · exact ⟨_, h.trans hw, .error .ilen (.inl rfl)⟩
  · exact ⟨_, h.trans hw, hb⟩

theorem Outcome.dispatch {i : Instr} (hl : listed i = []) (s : State) (d : Except Err Kind) :
    Outcome i s (s.endDispatch d) := by
  cases d with
  | error e => exact .error e (.inr hl)
  | ok k => exact .done rfl fun _ => ⟨rfl, rfl, rfl⟩

/-- Each byte of `FCSET` is the byte of a function code (R74). -/
theorem exists_fcByte {b : Byte} (h : b ∈ fcset) : ∃ fc, b = fcByte fc :=
  (exists_fcOfByte h).imp fun _ hfc => (fcByte_of_fcOfByte hfc).symm

/-- Every instruction answers a next state, and it is one of these outcomes. -/
theorem exec_outcome (i : Instr) (s : State) : ∃ t, exec i s = .next t ∧ Outcome i s t := by
  cases i with
  | xor => exact Outcome.of_withInput (exec_xor s) (.done rfl fun h => absurd (by decide) h)
  | crc => exact Outcome.of_withInput (exec_crc s) (.done rfl fun h => absurd (by decide) h)
  | crcchk =>
    refine Outcome.of_withInput (exec_crcchk s) ?_
    unfold crcchkBody
    split
    · exact .raise _
    split
    · exact .raise _
    · exact .done rfl fun _ => ⟨rfl, rfl, rfl⟩
  | hdec =>
    refine Outcome.of_withInput (exec_hdec s) ?_
    unfold hdecBody
    split
    · exact .raise _
    · exact .done rfl fun _ => ⟨rfl, rfl, rfl⟩
  | henc =>
    by_cases h : s.hufc.fc ∈ fcset
    · exact ⟨_, exec_henc_known h, .done rfl fun h => absurd (by decide) h⟩
    · exact ⟨_, exec_henc_unknown h, .raise _⟩
  | plen =>
    refine Outcome.of_withInput (exec_plen s) ?_
    unfold plenBody
    split
    · exact .raise _
    · exact .done rfl fun _ => ⟨rfl, rfl, rfl⟩
  | disp b => exact ⟨_, exec_disp b s, .dispatch rfl s _⟩
  | fenc =>
    refine Outcome.of_withInput (exec_fenc s) ?_
    unfold fencBody
    split
    · exact .raise _
    split
    · exact .raise _
    · exact .done rfl fun h => absurd (by decide) h
  | fdec =>
    refine Outcome.of_withInput (exec_fdec s) ?_
    unfold fdecBody
    split
    · exact .raise _
    · exact .done rfl fun h => absurd (by decide) h
  | tidnext b =>
    by_cases h : b ∈ fcset
    · obtain ⟨fc, rfl⟩ := exists_fcByte h
      exact ⟨_, exec_tidnext_known fc s, .done rfl fun _ => ⟨rfl, rfl, rfl⟩⟩
    · exact ⟨_, exec_tidnext_unknown h s, .raise _⟩
  | tidobs b =>
    by_cases h : b ∈ fcset
    · obtain ⟨fc, rfl⟩ := exists_fcByte h
      exact ⟨_, exec_tidobs_known fc s, .done rfl fun _ => ⟨rfl, rfl, rfl⟩⟩
    · exact ⟨_, exec_tidobs_unknown h s, .error _ (.inr rfl)⟩
  | tidrd b tsel =>
    by_cases h : b ∈ fcset
    · obtain ⟨fc, rfl⟩ := exists_fcByte h
      refine ⟨_, exec_tidrd_known fc tsel s, ?_⟩
      cases (if tsel = 0 then tidGet s.txLast fc else tidGet s.rxLast fc) with
      | none => exact .done rfl fun _ => ⟨rfl, rfl, rfl⟩
      | some v => exact .done rfl fun _ => ⟨rfl, rfl, rfl⟩
    · exact ⟨_, exec_tidrd_unknown h tsel s, .raise _⟩
  | tidclr => exact ⟨_, exec_tidclr s, .done rfl fun _ => ⟨rfl, rfl, rfl⟩⟩
  | _ => exact ⟨_, functionCodeRowRunsAsDisp _ _ _ rfl s, .dispatch rfl s _⟩

theorem outcome_of_exec {i : Instr} {s t : State} (h : exec i s = .next t) : Outcome i s t := by
  obtain ⟨u, hexec, houtcome⟩ := exec_outcome i s
  rw [hexec] at h
  cases h
  exact houtcome

theorem Outcome.keepsBuffers {i : Instr} {s t : State} (h : Outcome i s t)
    (hi : i ∉ [Instr.xor, .crc, .henc, .fenc, .fdec]) : KeepsBuffers s t := by
  cases h with
  | error e _ => exact ⟨rfl, rfl, rfl⟩
  | raise e =>
    obtain ⟨hbuf, hlen⟩ := buffers_not_listed hi
    exact keepsBuffers_raise hbuf hlen s e
  | done _ hkeep => exact hkeep hi

/-- Settles O51: the instruction keeps both buffers (`Outcome.keepsBuffers`), and `Ends.frame` is what else it keeps. -/
theorem registerCommandsStoreNothing : Obligations.RegisterCommandsStoreNothing := by
  intro i s t hi h
  obtain ⟨hmem, hseed, holen⟩ := (outcome_of_exec h).keepsBuffers hi
  have hframe := (ends_of_exec h).frame
  rw [hmem, hseed, holen] at hframe
  refine ⟨fun a => ?_, hframe⟩
  rw [hframe]
  rfl

/-! ### The outputs of a failing body (R203 (c), log 4) -/

/-- An output takes what the draw gives it. -/
theorem clobberOne_holdsDraw (d : Nat) (s : State) (o : Out) : holdsDraw d (s.clobberOne d o) o := by
  cases o
  case obuf =>
    intro a ha
    have hlook : memLookup (memBelow s.mem obufBase) a = none := by rw [memLookup_below, if_neg (not_lt.2 ha)]
    show (memLookup (memBelow s.mem obufBase) a).getD (Config.freeByte (if a < obufBase then s.ibufSeed else d) a) = _
    rw [hlook, Option.getD_none, if_neg (not_lt.2 ha)]
  case hufc | result => exact ⟨rfl, rfl⟩
  all_goals rfl

/-- What an output holds is carried along where the output is the same. -/
theorem holdsDraw_of_sameOut {d : Nat} {s t : State} {o : Out} (h : holdsDraw d s o) (hsame : sameOut s t o) :
    holdsDraw d t o := by
  cases o
  case obuf => exact fun a ha => (hsame a ha).trans (h a ha)
  case hufc | result =>
    obtain ⟨hfst, hsnd⟩ := h
    exact ⟨hsame ▸ hfst, hsame ▸ hsnd⟩
  all_goals exact Eq.trans hsame h

/-- After a fold of draws every output of the list holds the draw. -/
theorem clobberFold_holdsDraw (d : Nat) {outs : List Out} {o : Out} (ho : o ∈ outs) (s : State) :
    holdsDraw d (outs.foldl (State.clobberOne d) s) o := by
  induction outs generalizing s with
  | nil => exact nomatch ho
  | cons o' os ih =>
    by_cases hos : o ∈ os
    · exact ih hos _
    · obtain rfl := (List.mem_cons.1 ho).resolve_right hos
      exact holdsDraw_of_sameOut (clobberOne_holdsDraw d s o) (clobberFold_sameOut d hos _)

theorem raise_holdsDraw {outs : List Out} {o : Out} (ho : o ∈ outs) (s : State) (e : Err) :
    holdsDraw s.draws (s.raise outs e) o := by
  have h := clobberFold_holdsDraw s.draws ho s
  cases o <;> exact h

/-- Settles O30: an error in the body is `raise` of the listed outputs (`exec_outcome`), which hold the draw
(`raise_holdsDraw`). -/
theorem unspecifiedOutputsAreFreshDraws : Obligations.UnspecifiedOutputsAreFreshDraws := by
  intro i s t e hrun h hcode hne
  have hrun : s.status = statusStarted := hrun
  cases outcome_of_exec h with
  | error e' hcause =>
    obtain rfl : e' = e := Option.some_inj.1 hcode
    have hl : listed i = [] := hcause.resolve_left hne
    rw [hl]
    exact ⟨nofun, fun hl => absurd rfl hl⟩
  | raise e' => exact ⟨fun o ho => raise_holdsDraw ho s e', fun _ => rfl⟩
  | done hsame _ =>
    rw [hsame, hrun] at hcode
    exact nomatch hcode

end
end Sys2Proof.Machine

/-! PROOFS. Consecutive transaction ids (44_tid.md rule R186): they count up from the next id, modulo 65536. -/

namespace Sys2Proof.Machine
section
open Sys2Proof.Claims

/-- After `TIDNEXT` the next id of the same function code is one more. -/
theorem nextId_tidnextBody (s : State) (fc : Fc) :
    nextId (tidnextBody s fc).params.tidFirst (tidGet (tidnextBody s fc).txLast fc) =
      nextId s.params.tidFirst (tidGet s.txLast fc) + 1 := by
  rw [tidnextBody_txLast, tidGet_tidSet_same]
  rfl

/-- The ids of consecutive `TIDNEXT` are the next id and the numbers after it. -/
theorem tidIds_eq_map (fc : Fc) (n : Nat) (s : State) : tidIds fc n s =
    (List.range n).map fun i => nextId s.params.tidFirst (tidGet s.txLast fc) + BitVec.ofNat 16 i := by
  induction n generalizing s with
  | zero => rfl
  | succ n ih =>
    have hstep : tidIds fc (n + 1) s =
        nextId s.params.tidFirst (tidGet s.txLast fc) :: tidIds fc n (tidnextBody s fc) := by
      rw [tidIds, exec_tidnext_known]
      rfl
    have hadd (v : Half) (i : Nat) : v + 1 + BitVec.ofNat 16 i = v + BitVec.ofNat 16 (i + 1) := by
      rw [BitVec.ofNat_add, BitVec.add_assoc, BitVec.add_comm 1]
      rfl
    rw [hstep, ih, nextId_tidnextBody, List.range_succ_eq_map, List.map_cons, List.map_map]
    exact congrArg₂ List.cons (BitVec.add_zero _).symm (List.map_congr_left fun i _ => hadd _ i)

/-- Counting from a half gives each value once in 65536 steps. -/
theorem nodup_map_add_range (v : Half) {n : Nat} (hn : n ≤ 65536) :
    ((List.range n).map fun i => v + BitVec.ofNat 16 i).Nodup := by
  refine List.Nodup.map_on (fun i hi j hj h => ?_) List.nodup_range
  have hi := List.mem_range.1 hi
  have hj := List.mem_range.1 hj
  have hval := congrArg BitVec.toNat ((BitVec.add_right_inj v).1 h)
  rwa [BitVec.toNat_ofNat, BitVec.toNat_ofNat, Nat.mod_eq_of_lt (by omega), Nat.mod_eq_of_lt (by omega)] at hval

/-- Settles O60: the ids are consecutive (`tidIds_eq_map`), and at most 65536 of them are distinct
(`nodup_map_add_range`). -/
theorem consecutiveIdsAreDistinct : Obligations.ConsecutiveIdsAreDistinct := by
  intro s fc n hn
  rw [tidIds_eq_map]
  exact ⟨by rw [List.length_map, List.length_range], nodup_map_add_range _ hn⟩

end
end Sys2Proof.Machine
